-- ==== Sys2Proof/Word.lean ====
section
/-! DEFINITION. The word types of the block and the two instances (00_scope.md R3, R4). -/

namespace Sys2Proof

/-- A 32-bit unsigned word (00_scope.md R4, R3 "Word width"). -/
abbrev Word := BitVec 32

/-- The 8-bit data unit of the serial line (00_scope.md R3, R228 (g)). -/
abbrev Byte := BitVec 8

/-- One register bit. -/
abbrev Bit := BitVec 1

/-- The two UART instances (00_scope.md R3: `N_INST` is 2, fixed). The 1-bit register `SEL` holds one of them. -/
inductive Inst where
  | i0
  | i1
deriving DecidableEq, Repr

/-- The instance that is not `i`. -/
def Inst.other : Inst → Inst
  | .i0 => .i1
  | .i1 => .i0

end Sys2Proof
end

