-- ==== Sys2Proof/Config.lean ====
section
/-! DEFINITION. The parameters a model of the block takes as arguments (00_scope.md R3) and the free values (00_scope.md R5, `draw`).
The parameters are plain data, so that `State` can carry them: a statement about every state is one about every parameter (log 1). -/

namespace Sys2Proof

/-- Bit positions (of the lowest bit) of every field of the control word and of the two depth nibbles of the data word.
The widths are fixed by the source; the positions are the parameter `LAYOUT` (00_scope.md R3, 30_encoding.md R82, R86). -/
structure Layout where
  en       : Nat
  sim      : Nat
  hwfc     : Nat
  prsc     : Nat
  baud     : Nat
  rxNempty : Nat
  txFull   : Nat
  irq      : Nat
  txBusy   : Nat
  rxFifo   : Nat
  txFifo   : Nat
deriving DecidableEq, Repr

/-- The nine fields of the control word as (position, width) pairs (30_encoding.md R81, widths). -/
def Layout.ctrlFields (l : Layout) : List (Nat × Nat) :=
  [(l.en, 1), (l.sim, 1), (l.hwfc, 1), (l.prsc, 2), (l.baud, 10), (l.rxNempty, 1), (l.txFull, 1), (l.irq, 5), (l.txBusy, 1)]

/-- The three fields of the data word as read; the byte is bits 7:0 by the source (30_encoding.md R85, R86). -/
def Layout.dataFields (l : Layout) : List (Nat × Nat) :=
  [(0, 8), (l.rxFifo, 4), (l.txFifo, 4)]

/-- Fields that lie inside a 32-bit word and do not overlap. -/
abbrev FieldsDisjoint (fs : List (Nat × Nat)) : Prop :=
  (∀ f ∈ fs, f.1 + f.2 ≤ 32) ∧ fs.Pairwise (fun a b => a.1 + a.2 ≤ b.1 ∨ b.1 + b.2 ≤ a.1)

/-- What a `LAYOUT` must satisfy: "fields do not overlap" (40_register_model.md R112, 92_eei_decisions.md section 2). -/
abbrev Layout.wf (l : Layout) : Prop :=
  FieldsDisjoint l.ctrlFields ∧ FieldsDisjoint l.dataFields

/-- The default layout `L0` (30_encoding.md R82, R86). -/
def Layout.l0 : Layout :=
  { en := 0, sim := 1, hwfc := 2, prsc := 3, baud := 6, rxNempty := 16, txFull := 21, irq := 22, txBusy := 31,
    rxFifo := 8, txFifo := 12 }

/-- `DIV_STRATEGY` (00_scope.md R3; 41_divisor_resolver.md R142, R143). -/
inductive DivStrategy where
  | divide
  | subtract
deriving DecidableEq, Repr

/-- The parameters that exist once per instance: `BASEi`, `TXD_LOG2[i]`, `RXD_LOG2[i]`, `CAP_BITi` (00_scope.md R3). -/
structure InstConfig where
  base    : Word
  txdLog2 : BitVec 4
  rxdLog2 : BitVec 4
  capBit  : BitVec 5
deriving DecidableEq, Repr

/-- The parameters of 00_scope.md R3. `clockHz` is the build-time system clock: the host passes it as the operand of
`setup`, no step of the block reads it (log 16). -/
structure Config where
  c0          : InstConfig
  c1          : InstConfig
  clockHz     : Word
  cap         : Word
  divStrategy : DivStrategy
  div0Result  : Option Word
  setupEn     : Bit
  setupSim    : Bit
  en0Flush    : Bool
  layout      : Layout
deriving DecidableEq, Repr

/-- The parameters of instance `i`. -/
def Config.inst (c : Config) : Inst → InstConfig
  | .i0 => c.c0
  | .i1 => c.c1

/-- The constraints R3 puts on the parameters: bases are multiples of 4, the two 8-byte ranges are disjoint (read modulo 2^32,
log 20), the capability bits are distinct, the layout's fields do not overlap. -/
abbrev Config.wf (c : Config) : Prop :=
  c.c0.base.toNat % 4 = 0 ∧ c.c1.base.toNat % 4 = 0 ∧
  8 ≤ (c.c1.base - c.c0.base).toNat ∧ 8 ≤ (c.c0.base - c.c1.base).toNat ∧
  c.c0.capBit ≠ c.c1.capBit ∧ c.layout.wf

/-- The example values of 95_test_vectors.md (its opening paragraph), which `State.reset` carries (log 1): values this spec's
examples use, never a claim about the chip. -/
def Config.vectors : Config :=
  { c0 := { base := 0xFFF50000#32, txdLog2 := 0#4, rxdLog2 := 0#4, capBit := 18#5 }
    c1 := { base := 0xFFF60000#32, txdLog2 := 0#4, rxdLog2 := 0#4, capBit := 26#5 }
    clockHz := 19200000#32
    cap := 0x04040000#32
    divStrategy := .divide
    div0Result := none
    setupEn := 1#1
    setupSim := 0#1
    en0Flush := true
    layout := Layout.l0 }

/-- FREE VALUE. The byte of a DATA read with no data present (00_scope.md R5 `draw(8)`; 40_register_model.md R124, M6; log 8):
the n-th draw of the run. It has no body: no proof can know a value of it. -/
opaque Config.freeByte : Nat → Byte

/-- FREE VALUE. The running quotient seen while the subtraction loop never ends (41_divisor_resolver.md R154; log 9). -/
opaque Config.freeWord : Nat → Word

end Sys2Proof
end

