-- ==== Sys2Proof/Syntax.lean ====
section
/-! DEFINITION. The block's operations, one constructor per row of spec/opcode_table.json: the twelve commands
(30_encoding.md R90) and the four port transactions (30_encoding.md R88, 40_register_model.md R121 to R124). -/

namespace Sys2Proof

/-- A command, or a port transaction. `handle` is a base address (30_encoding.md R89). -/
inductive Instr where
  /-- AVAILABLE, `op = 0x0` (40_register_model.md R120). -/
  | available (handle : Word)
  /-- SETUP, `op = 0x1`: `a0 = clock_hz`, `a1 = baud`, `a2 = irq_enable_mask` (43_setup.md R200). -/
  | setup (handle clockHz baud irqMask : Word)
  /-- PUT_BYTE, `op = 0x2` (42_blocking_io.md R171). -/
  | putByte (handle : Word) (b : Byte)
  /-- GET_BYTE, `op = 0x3` (42_blocking_io.md R172). -/
  | getByte (handle : Word)
  /-- CHAR_RECEIVED, `op = 0x4` (42_blocking_io.md R173). -/
  | charReceived (handle : Word)
  /-- CHAR_RECEIVED_GET, `op = 0x5` (42_blocking_io.md R174). -/
  | charReceivedGet (handle : Word)
  /-- TX_BUSY, `op = 0x6` (42_blocking_io.md R175). -/
  | txBusy (handle : Word)
  /-- ENABLE, `op = 0x7` (42_blocking_io.md R176). -/
  | enable (handle : Word)
  /-- DISABLE, `op = 0x8` (42_blocking_io.md R177). -/
  | disable (handle : Word)
  /-- RTSCTS_ENABLE, `op = 0x9` (42_blocking_io.md R178). -/
  | rtsctsEnable (handle : Word)
  /-- RTSCTS_DISABLE, `op = 0xA` (42_blocking_io.md R179). -/
  | rtsctsDisable (handle : Word)
  /-- PUTS, `op = 0xB`: `s` is the string without its terminator (42_blocking_io.md R180). -/
  | puts (handle : Word) (s : List Byte)
  /-- PORT_RD_CTRL, header `0000` (40_register_model.md R121). -/
  | portRdCtrl (i : Inst)
  /-- PORT_RD_DATA, header `0100` (40_register_model.md R124). -/
  | portRdData (i : Inst)
  /-- PORT_WR_CTRL, header `1000` (40_register_model.md R122). -/
  | portWrCtrl (i : Inst) (wdata : Word)
  /-- PORT_WR_DATA, header `1100` (40_register_model.md R123). -/
  | portWrData (i : Inst) (wdata : Word)
deriving DecidableEq, Repr

end Sys2Proof
end

