-- ==== Sys2Proof/WellFormed.lean ====
section
/-! DEFINITION. Well-formed instructions (30_encoding.md R95). What R95 asks of the raw words (a defined opcode, reserved bits 0,
no stray byte, narrow characters) is checked in Decode; of an `Instr` only one thing can still be wrong. -/

namespace Sys2Proof

/-- No byte of a `puts` string is the terminator `0x00` (42_blocking_io.md R180; 10_state.md R21, `STR`). -/
def Instr.wellFormed : Instr → Bool
  | .available _ => true
  | .setup _ _ _ _ => true
  | .putByte _ _ => true
  | .getByte _ => true
  | .charReceived _ => true
  | .charReceivedGet _ => true
  | .txBusy _ => true
  | .enable _ => true
  | .disable _ => true
  | .rtsctsEnable _ => true
  | .rtsctsDisable _ => true
  | .puts _ s => s.all (fun c => c != 0#8)
  | .portRdCtrl _ => true
  | .portRdData _ => true
  | .portWrCtrl _ _ => true
  | .portWrData _ _ => true

end Sys2Proof
end

