-- ==== Sys2Proof/Decode.lean ====
section
/-! DEFINITION. Decoder and encoder of the two instruction formats: F-CMD, words on the command port (30_encoding.md R89 to R91,
R95), and F-PORT, the header of a port transaction (30_encoding.md R88). -/

namespace Sys2Proof

/-! ## The command, F-CMD -/

/-- Why a command is not well formed (30_encoding.md R95; misuse condition M9). -/
inductive DecodeError where
  /-- `op` in `0xC..0xF`. -/
  | undefinedOpcode
  /-- A reserved bit of word 0 (bits 7:4 or 31:16) is 1. -/
  | reservedBits
  /-- `b` is not 0 on a command that has no byte operand. -/
  | strayByte
  /-- A word of a `puts` string has a bit of 31:8 set. -/
  | wideCharacter
  /-- A `puts` record whose string holds the terminator `0x00` (no sequence of words stands for it). -/
  | terminatorInString
deriving DecidableEq, Repr

/-- What the decoder makes of the words on the command port: an instruction and the words after it; a command whose words have
not all come; or words that are no command. -/
inductive Decoded where
  | ok (i : Instr) (rest : List Word)
  | incomplete
  | malformed (e : DecodeError)
deriving DecidableEq, Repr

/-- Opcode field of word 0 (30_encoding.md R89). -/
def fieldOp (w : Word) : BitVec 4 := w.extractLsb' 0 4
/-- Byte operand field of word 0. -/
def fieldB (w : Word) : Byte := w.extractLsb' 8 8
/-- The two reserved fields of word 0, bits 7:4 and 31:16. -/
def fieldReserved (w : Word) : BitVec 4 × BitVec 16 := (w.extractLsb' 4 4, w.extractLsb' 16 16)
/-- A character word's byte, and the bits above it that must be 0. -/
def fieldChar (w : Word) : Byte := w.extractLsb' 0 8
def fieldAboveChar (w : Word) : BitVec 24 := w.extractLsb' 8 24

/-- The opcode numbers of 30_encoding.md R90. -/
abbrev opAvailable : BitVec 4 := 0x0#4
abbrev opSetup : BitVec 4 := 0x1#4
abbrev opPutByte : BitVec 4 := 0x2#4
abbrev opGetByte : BitVec 4 := 0x3#4
abbrev opCharReceived : BitVec 4 := 0x4#4
abbrev opCharReceivedGet : BitVec 4 := 0x5#4
abbrev opTxBusy : BitVec 4 := 0x6#4
abbrev opEnable : BitVec 4 := 0x7#4
abbrev opDisable : BitVec 4 := 0x8#4
abbrev opRtsctsEnable : BitVec 4 := 0x9#4
abbrev opRtsctsDisable : BitVec 4 := 0xA#4
abbrev opPuts : BitVec 4 := 0xB#4

/-- What 30_encoding.md R95 asks of word 0, and the first thing found wrong. -/
def word0Error (w : Word) : Option DecodeError :=
  if 0xC#4 ≤ fieldOp w then some .undefinedOpcode
  else if fieldReserved w ≠ (0#4, 0#16) then some .reservedBits
  else if fieldB w ≠ 0#8 ∧ fieldOp w ≠ opPutByte then some .strayByte
  else none

/-- What the words of a `puts` string come to. -/
inductive StringRead where
  | ok (s : List Byte) (rest : List Word)
  | incomplete
  | wide
deriving DecidableEq, Repr

/-- Put a character in front of the rest of a string. -/
def StringRead.cons (c : Byte) : StringRead → StringRead
  | .ok s rest => .ok (c :: s) rest
  | .incomplete => .incomplete
  | .wide => .wide

/-- The words of a `puts` string up to its terminator, "words are taken until one has bits [7:0] = 0x00" (30_encoding.md R91);
bits 31:8 of every word, the terminator's too, must be 0 (30_encoding.md R89; log 10). DESIGN CHOICE (log 24): a wide word makes
the string malformed as soon as it is reached, whether or not the terminator has come. -/
def takeString : List Word → StringRead
  | [] => .incomplete
  | w :: rest =>
    if fieldAboveChar w ≠ 0#24 then .wide
    else if fieldChar w = 0#8 then .ok [] rest
    else (takeString rest).cons (fieldChar w)

/-- The operands after word 0 and the handle. -/
def decodeOperands (w0 handle : Word) (rest : List Word) : Decoded :=
  match (fieldOp w0).toNat with
  | 0x0 => .ok (.available handle) rest
  | 0x1 =>
    match rest with
    | a0 :: a1 :: a2 :: rest => .ok (.setup handle a0 a1 a2) rest
    | _ => .incomplete
  | 0x2 => .ok (.putByte handle (fieldB w0)) rest
  | 0x3 => .ok (.getByte handle) rest
  | 0x4 => .ok (.charReceived handle) rest
  | 0x5 => .ok (.charReceivedGet handle) rest
  | 0x6 => .ok (.txBusy handle) rest
  | 0x7 => .ok (.enable handle) rest
  | 0x8 => .ok (.disable handle) rest
  | 0x9 => .ok (.rtsctsEnable handle) rest
  | 0xA => .ok (.rtsctsDisable handle) rest
  | 0xB =>
    match takeString rest with
    | .ok s rest => .ok (.puts handle s) rest
    | .incomplete => .incomplete
    | .wide => .malformed .wideCharacter
  | _ => .malformed .undefinedOpcode

/-- The command at the front of the words on the command port (30_encoding.md R89 to R91, R95). Word 0 is judged before word 1
is looked at (60_exceptions.md R249; 92_eei_decisions.md D31). Words that no further words can make a command of are malformed at
once (log 24); else an unfinished command is waited for (log 4). -/
def decodeCommand : List Word → Decoded
  | [] => .incomplete
  | w0 :: rest =>
    match word0Error w0 with
    | some e => .malformed e
    | none =>
      match rest with
      | [] => .incomplete
      | handle :: rest => decodeOperands w0 handle rest

/-! ## The port header, F-PORT -/

/-- Offsets of the two registers inside an instance's range (00_scope.md R3, `OFF_CTRL`, `OFF_DATA`). -/
abbrev offCtrl : BitVec 3 := 0b000#3
abbrev offData : BitVec 3 := 0b100#3

/-- The transaction a header `we off[2] off[1] off[0]` names; every other pattern is none (30_encoding.md R88, M12). -/
def decodeHeader (header : BitVec 4) (i : Inst) (wdata : Word) : Option Instr :=
  match header.toNat with
  | 0b0000 => some (.portRdCtrl i)
  | 0b0100 => some (.portRdData i)
  | 0b1000 => some (.portWrCtrl i wdata)
  | 0b1100 => some (.portWrData i wdata)
  | _ => none

/-! ## The encoder -/

/-- An encoded instruction: words for the command port, or a header with the instance and the write word beside it. -/
inductive Code where
  | command (words : List Word)
  | port (header : BitVec 4) (i : Inst) (wdata : Word)
deriving DecidableEq, Repr

/-- Word 0 of a command: `op` in bits 3:0, `b` in bits 15:8, the rest 0 (30_encoding.md R89). -/
def encodeWord0 (op : BitVec 4) (b : Byte) : Word :=
  op.setWidth 32 ||| (b.setWidth 32 <<< 8)

/-- A string as words: one character a word, then the terminator (30_encoding.md R89). -/
def encodeString (s : List Byte) : List Word :=
  s.map (fun c => c.setWidth 32) ++ [0#32]

/-- The code of an instruction (30_encoding.md R88 to R90). -/
def encode : Instr → Code
  | .available h => .command [encodeWord0 opAvailable 0#8, h]
  | .setup h a0 a1 a2 => .command [encodeWord0 opSetup 0#8, h, a0, a1, a2]
  | .putByte h b => .command [encodeWord0 opPutByte b, h]
  | .getByte h => .command [encodeWord0 opGetByte 0#8, h]
  | .charReceived h => .command [encodeWord0 opCharReceived 0#8, h]
  | .charReceivedGet h => .command [encodeWord0 opCharReceivedGet 0#8, h]
  | .txBusy h => .command [encodeWord0 opTxBusy 0#8, h]
  | .enable h => .command [encodeWord0 opEnable 0#8, h]
  | .disable h => .command [encodeWord0 opDisable 0#8, h]
  | .rtsctsEnable h => .command [encodeWord0 opRtsctsEnable 0#8, h]
  | .rtsctsDisable h => .command [encodeWord0 opRtsctsDisable 0#8, h]
  | .puts h s => .command (encodeWord0 opPuts 0#8 :: h :: encodeString s)
  | .portRdCtrl i => .port 0b0000#4 i 0#32
  | .portRdData i => .port 0b0100#4 i 0#32
  | .portWrCtrl i v => .port 0b1000#4 i v
  | .portWrData i v => .port 0b1100#4 i v

/-- Decode a code: a command must be the whole of its words. -/
def decode : Code → Option Instr
  | .command words =>
    match decodeCommand words with
    | .ok i [] => some i
    | .ok _ (_ :: _) => none
    | .incomplete => none
    | .malformed _ => none
  | .port header i wdata => decodeHeader header i wdata

/-- The length of an instruction's command in words; the port transactions are no words of the command port (30_encoding.md R91). -/
def commandLength : Instr → Nat
  | .setup _ _ _ _ => 5
  | .puts _ s => 2 + s.length + 1
  | .portRdCtrl _ | .portRdData _ | .portWrCtrl _ _ | .portWrData _ _ => 0
  | .available _ | .putByte _ _ | .getByte _ | .charReceived _ | .charReceivedGet _ | .txBusy _ | .enable _ | .disable _
  | .rtsctsEnable _ | .rtsctsDisable _ => 2

/-! ## The table's words -/

/-- The 32-bit words of a number, the first the least significant; 5 words, the longest command of a fixed length. -/
def wordsOf (w : Nat) : List Word :=
  [BitVec.ofNat 32 w, BitVec.ofNat 32 (w >>> 32), BitVec.ofNat 32 (w >>> 64), BitVec.ofNat 32 (w >>> 96), BitVec.ofNat 32 (w >>> 128)]

/-- The instruction of a row's word. A row of fewer than 32 bits is an F-PORT header (30_encoding.md R88), whose instance and
write word, beside it, are taken as instance 0 and 0 (log 21). -/
def decodeTableWord (nbits w : Nat) : Option Instr :=
  if 32 ≤ nbits then
    match decodeCommand (wordsOf w) with
    | .ok i _ => some i
    | .incomplete => none
    | .malformed _ => none
  else if w < 16 then decodeHeader (BitVec.ofNat 4 w) .i0 0#32
  else none

end Sys2Proof
end

