-- ==== Sys2Proof/Machine/State.lean ====
section
/-! DEFINITION. The machine's state as plain data (10_state.md R21, R22, R25, R29), the reasons a step can stop, and the state
after reset (10_state.md R31, 70_reset_and_hazards.md R270). -/

namespace Sys2Proof.Machine

/-- The sequencer's state register, "the block's program counter": one of 18 names (10_state.md R22). -/
inductive Fsm where
  | idle
  | avRd
  | suRes
  | suWr
  | pbPoll
  | pbWr
  | gbPoll
  | gbRd
  | crRd
  | cgRd
  | tbRd
  | rmwRd
  | rmwWr
  | psNext
  | psCrPoll
  | psCrWr
  | psChPoll
  | psChWr
deriving DecidableEq, Repr

/-- The six stored fields of a control register (10_state.md R25). -/
structure Stored where
  en   : Bit
  sim  : Bit
  hwfc : Bit
  prsc : BitVec 2
  baud : BitVec 10
  irq  : BitVec 5
deriving DecidableEq, Repr

/-- The nine fields of a control word, the unpacker's output (40_register_model.md R110). -/
structure Unpacked where
  en       : Bit
  sim      : Bit
  hwfc     : Bit
  prsc     : BitVec 2
  baud     : BitVec 10
  rxNempty : Bit
  txFull   : Bit
  irq      : BitVec 5
  txBusy   : Bit
deriving DecidableEq, Repr

/-- The stored fields of an unpacked word. -/
def Unpacked.stored (u : Unpacked) : Stored :=
  { en := u.en, sim := u.sim, hwfc := u.hwfc, prsc := u.prsc, baud := u.baud, irq := u.irq }

/-- The fields of a data word as read (40_register_model.md R113). -/
structure UnpackedData where
  rtx    : Byte
  rxFifo : BitVec 4
  txFifo : BitVec 4
deriving DecidableEq, Repr

/-- One UART instance: its control register and the reference back-end behind it (10_state.md R25, R29;
44_peripheral_backend.md R215). `cts` is the clear-to-send input the environment drives (44_peripheral_backend.md R223; log 13). -/
structure Periph where
  ctrl   : Stored
  txq    : List Byte
  txsh   : Option Byte
  rxq    : List Byte
  wireTx : List Byte
  cts    : Bool
deriving DecidableEq, Repr

/-- One bus cycle of the block: a register read or write with the word that travelled (30_encoding.md R88), or a read of the
capability word (00_scope.md R5). -/
inductive BusCycle where
  | regRead (i : Inst) (off : BitVec 3) (data : Word)
  | regWrite (i : Inst) (off : BitVec 3) (data : Word)
  | capRead (data : Word)
deriving DecidableEq, Repr

/-- The size of an access at the register port (20_memory.md R53). -/
inductive AccessSize where
  | byte
  | half
  | word
deriving DecidableEq, Repr

/-- An access as the register file is offered it (20_memory.md R53; 40_register_model.md R125). -/
structure PortAccess where
  we    : Bool
  size  : AccessSize
  addr  : Word
  wdata : Word
deriving DecidableEq, Repr

/-- One turn of one agent (10_state.md R20), or an input of the environment. None of them but `seq` reaches the register port: the
sequencer is its only master (20_memory.md R50, R63). -/
inductive Event where
  /-- The sequencer takes its step. -/
  | seq
  /-- `TxLoad(i)` (44_peripheral_backend.md R217). -/
  | txLoad (i : Inst)
  /-- `TxDone(i)` (44_peripheral_backend.md R218). -/
  | txDone (i : Inst)
  /-- `RxArrive(i, b)` (44_peripheral_backend.md R219). -/
  | rxArrive (i : Inst) (b : Byte)
  /-- The environment sets the clear-to-send input of instance `i` (44_peripheral_backend.md R223). -/
  | cts (i : Inst) (level : Bool)
  /-- The host asserts reset (70_reset_and_hazards.md R270). -/
  | reset
deriving DecidableEq, Repr

/-- The machine's state. The fields from `cfg` on are the model's own (INVENTORY.md, State). -/
structure State where
  /-- The sequencer's state register (10_state.md R22). -/
  fsm    : Fsm
  /-- `OP` (10_state.md R21). -/
  op     : BitVec 4
  /-- `HND`. -/
  hnd    : Word
  /-- `SEL`. -/
  sel    : Inst
  /-- `B`. -/
  b      : Byte
  /-- `W`. -/
  w      : Word
  /-- `CLK`. -/
  clk    : Word
  /-- `BD`. -/
  bd     : Word
  /-- `DEN`. -/
  den    : Word
  /-- `RAW`. -/
  raw    : Word
  /-- `TAP`. -/
  tap    : Word
  /-- `IRQM`. -/
  irqm   : Word
  /-- `STR`. -/
  str    : List Byte
  /-- `R0`. -/
  r0     : Word
  /-- Instance 0 (10_state.md R25, R29). -/
  p0     : Periph
  /-- Instance 1. -/
  p1     : Periph
  /-- The parameters (00_scope.md R3; log 1). -/
  cfg    : Config
  /-- The bus cycle of the last step, if it made one (log 7). -/
  bus    : Option BusCycle
  /-- The words of the commands the host will offer (10_state.md R20; log 4). -/
  offers : List Word
  /-- The order in which the agents move (10_state.md R20; log 2). -/
  agenda : List Event
  /-- How many free values the run has drawn (log 8). -/
  draws  : Nat
deriving DecidableEq, Repr

/-- Why the machine stops with a fault. The block itself never faults (60_exceptions.md R245). -/
inductive Fault where
  /-- Raised by a command's meaning, and by fetching, when `fsm` is a state that the command in `OP` has no transition in: "a
  state with no listed transition for the current condition does not exist" (10_state.md R22). Safe: no run from reset reaches
  such a state (log 12). -/
  | noTransition
deriving DecidableEq, Repr

/-- Why the model gives no meaning: `refuse(reason)` of 00_scope.md R5. -/
inductive Refusal where
  /-- An instruction whose meaning is not written yet, by its mnemonic. Safe. -/
  | notModelled (mnemonic : String)
  /-- M1: the handle of a command other than AVAILABLE is neither base (10_state.md R23). Raised by the accept step. Safe. -/
  | unknownHandle
  /-- M2: `u32(2*baud) = 0` under `DIVIDE` with no `DIV0_RESULT` (41_divisor_resolver.md R154). Raised by SETUP. Safe. -/
  | divideByZero
  /-- M9: the command is not well formed (30_encoding.md R95). Raised by fetching, and by PUTS's accept step. Safe. -/
  | notWellFormed (e : DecodeError)
  /-- M10: a DATA write while `SIM = 1` (40_register_model.md R123). Raised by PORT_WR_DATA, PUT_BYTE, PUTS. Safe. -/
  | simRedirect
  /-- M12: an access to the register port that is not an aligned 32-bit access to one of the four words (40_register_model.md
  R125). Raised by the register file, `registerFile`; the sequencer presents no such access, so no step raises it. Safe. -/
  | badAccess
  /-- A command is offered while another one is running, which "the host must not" do (10_state.md R23). Raised by every
  command's meaning; `step` never offers so (log 11). Safe. -/
  | commandWhileBusy
deriving DecidableEq, Repr

/-- The stored fields after reset: all 0 (10_state.md R31). -/
def Stored.reset : Stored :=
  { en := 0#1, sim := 0#1, hwfc := 0#1, prsc := 0#2, baud := 0#10, irq := 0#5 }

/-- An instance after reset: queues and shifter empty, nothing on the wire (10_state.md R31); no clear to send (log 13). -/
def Periph.reset : Periph :=
  { ctrl := Stored.reset, txq := [], txsh := none, rxq := [], wireTx := [], cts := false }

/-- The state after reset of the block with parameters `cfg` (10_state.md R31). -/
def State.resetOf (cfg : Config) : State :=
  { fsm := .idle, op := 0#4, hnd := 0#32, sel := .i0, b := 0#8, w := 0#32, clk := 0#32, bd := 0#32, den := 0#32, raw := 0#32,
    tap := 0#32, irqm := 0#32, str := [], r0 := 0#32, p0 := Periph.reset, p1 := Periph.reset, cfg := cfg, bus := none,
    offers := [], agenda := [], draws := 0 }

/-- The machine right after reset, with the example parameters of 95_test_vectors.md (log 1). -/
def State.reset : State := State.resetOf Config.vectors

/-- Instance `i`. -/
def State.periph (s : State) : Inst → Periph
  | .i0 => s.p0
  | .i1 => s.p1

/-- Put `p` in the place of instance `i`. -/
def State.setPeriph (s : State) (i : Inst) (p : Periph) : State :=
  match i with
  | .i0 => { s with p0 := p }
  | .i1 => { s with p1 := p }

/-- The outcome of a step of this machine. -/
abbrev Result := Host.Outcome State Fault Refusal

end Sys2Proof.Machine
end

