-- ==== Sys2Proof/Machine/Operands.lean ====
section
/-! DEFINITION. Bit fields, the unpacker and the packer (40_register_model.md R110 to R113), and the operand forms: handles,
bytes, booleans (30_encoding.md R92 to R94). -/

namespace Sys2Proof.Machine

/-- `n` bits of a word from bit `pos` up. -/
def takeField (n pos : Nat) (w : Word) : BitVec n := w.extractLsb' pos n

/-- A field's value at bit `pos` of a word, every other bit 0. -/
def placeField {n : Nat} (pos : Nat) (v : BitVec n) : Word := v.setWidth 32 <<< pos

/-- `Unpack(w)` (40_register_model.md R110). -/
def unpack (l : Layout) (w : Word) : Unpacked :=
  { en       := takeField 1 l.en w
    sim      := takeField 1 l.sim w
    hwfc     := takeField 1 l.hwfc w
    prsc     := takeField 2 l.prsc w
    baud     := takeField 10 l.baud w
    rxNempty := takeField 1 l.rxNempty w
    txFull   := takeField 1 l.txFull w
    irq      := takeField 5 l.irq w
    txBusy   := takeField 1 l.txBusy w }

/-- `Pack(f)` (40_register_model.md R111). -/
def pack (l : Layout) (f : Stored) : Word :=
  placeField l.en f.en ||| placeField l.sim f.sim ||| placeField l.hwfc f.hwfc ||| placeField l.prsc f.prsc
    ||| placeField l.baud f.baud ||| placeField l.irq f.irq

/-- `UnpackData(d)`: the byte is bits 7:0 by the source (40_register_model.md R113). -/
def unpackData (l : Layout) (d : Word) : UnpackedData :=
  { rtx := takeField 8 0 d, rxFifo := takeField 4 l.rxFifo d, txFifo := takeField 4 l.txFifo d }

/-- A data word as read: the byte and the two depth nibbles, every other bit 0 (30_encoding.md R86; 40_register_model.md R124). -/
def packData (l : Layout) (d : UnpackedData) : Word :=
  placeField 0 d.rtx ||| placeField l.rxFifo d.rxFifo ||| placeField l.txFifo d.txFifo

/-- The mask of a field: `n` ones at bit `pos`. -/
def fieldMask (n pos : Nat) : Word := placeField pos (BitVec.allOnes n)

/-- `M_STORED`, the mask of the six stored fields (30_encoding.md R83). -/
def maskStored (l : Layout) : Word :=
  fieldMask 1 l.en ||| fieldMask 1 l.sim ||| fieldMask 1 l.hwfc ||| fieldMask 2 l.prsc ||| fieldMask 10 l.baud
    ||| fieldMask 5 l.irq

/-- `M_STATUS`, the mask of the three status bits (30_encoding.md R83). -/
def maskStatus (l : Layout) : Word :=
  fieldMask 1 l.rxNempty ||| fieldMask 1 l.txFull ||| fieldMask 1 l.txBusy

/-- `M_IRQ`, the mask of the interrupt-enable field (30_encoding.md R93). -/
def maskIrq (l : Layout) : Word := fieldMask 5 l.irq

/-- The byte operand in the DATA word: `zext_32(b)` (30_encoding.md R94). -/
def byteWord (b : Byte) : Word := b.setWidth 32

/-- The byte of a DATA word: `D[7:0]` (30_encoding.md R94). -/
def wordByte (d : Word) : Byte := takeField 8 0 d

/-- A boolean result: 1 or 0 (30_encoding.md R94). -/
def bitWord (v : Bit) : Word := v.setWidth 32

/-- A truth value as a register bit. -/
def bitOf (p : Bool) : Bit := BitVec.ofBool p

/-- The instance a handle names, compared as a whole word, `BASE0` first (10_state.md R23; 30_encoding.md R94). -/
def resolveHandle (c : Config) (h : Word) : Option Inst :=
  if h = c.c0.base then some .i0
  else if h = c.c1.base then some .i1
  else none

/-- The address of a register word: `BASEi + off` (00_scope.md R5; 30_encoding.md R88). -/
def portAddress (c : Config) (i : Inst) (off : BitVec 3) : Word := (c.inst i).base + off.setWidth 32

/-- Capacity of the transmit queue, `2^TXD_LOG2[i]` (40_register_model.md R113). -/
def txCap (c : Config) (i : Inst) : Nat := 2 ^ (c.inst i).txdLog2.toNat

/-- Capacity of the receive queue, `2^RXD_LOG2[i]`. -/
def rxCap (c : Config) (i : Inst) : Nat := 2 ^ (c.inst i).rxdLog2.toNat

/-- `T(s)`, the bytes `puts` writes to DATA: every LF becomes CR LF (42_blocking_io.md R180). -/
def translateNewlines : List Byte → List Byte
  | [] => []
  | c :: r => if c = 0x0A#8 then 0x0D#8 :: 0x0A#8 :: translateNewlines r else c :: translateNewlines r

/-- The header of an access to the register port: a whole word inside one of the two 8-byte ranges (20_memory.md R53;
30_encoding.md R88; 40_register_model.md R125). -/
def accessHeader (c : Config) (a : PortAccess) : Option (BitVec 4 × Inst) :=
  let header := fun (off : Word) => bitOf a.we ++ off.extractLsb' 0 3
  if a.size ≠ .word then none
  else if a.addr - c.c0.base < 8#32 then some (header (a.addr - c.c0.base), .i0)
  else if a.addr - c.c1.base < 8#32 then some (header (a.addr - c.c1.base), .i1)
  else none

/-- The port transaction an access is, or none: then it is M12 (40_register_model.md R125). The one address map of the port. -/
def decodeAccess (c : Config) (a : PortAccess) : Option Instr :=
  match accessHeader c a with
  | some (header, i) => decodeHeader header i a.wdata
  | none => none

/-- The access whose header is `header` on instance `i`: a word at `BASEi + off` (30_encoding.md R88). -/
def accessOf (c : Config) (header : BitVec 4) (i : Inst) (wdata : Word) : PortAccess :=
  { we := header.getLsbD 3, size := .word, addr := portAddress c i (header.extractLsb' 0 3), wdata := wdata }

/-- The state in which the sequencer's step issues the port transaction `i`, for the host's probe (log 21): CHAR_RECEIVED's, for a
read of CTRL; CHAR_RECEIVED_GET's, for a read of DATA; a single-bit command's write of the word in `W`, whose one bit is already as the
command makes it, for a write of CTRL; PUT_BYTE's write of the byte in `B`, for a write of DATA (30_encoding.md R90: the four port
transactions "are what commands are made of"). A command is no port transaction, and the state is left. -/
def State.issuing (s : State) : Instr → State
  | .portRdCtrl i => { s with fsm := .crRd, op := opCharReceived, sel := i }
  | .portRdData i => { s with fsm := .cgRd, op := opCharReceivedGet, sel := i }
  | .portWrCtrl i v =>
    { s with fsm := .rmwWr, op := if takeField 1 s.cfg.layout.en v = 1#1 then opEnable else opDisable, sel := i, w := v }
  | .portWrData i v => { s with fsm := .pbWr, op := opPutByte, sel := i, b := wordByte v }
  | .available _ | .setup _ _ _ _ | .putByte _ _ | .getByte _ | .charReceived _ | .charReceivedGet _ | .txBusy _ | .enable _
  | .disable _ | .rtsctsEnable _ | .rtsctsDisable _ | .puts _ _ => s

/-- The command the latches hold, by its opcode (10_state.md R21, `OP`): what the sequencer is executing outside IDLE. Its
operands are the latches' present contents; no step after the accept step reads an operand from the command (log 5). -/
def runningCommand (s : State) : Option Instr :=
  match s.op.toNat with
  | 0x0 => some (.available s.hnd)
  | 0x1 => some (.setup s.hnd s.clk s.bd s.irqm)
  | 0x2 => some (.putByte s.hnd s.b)
  | 0x3 => some (.getByte s.hnd)
  | 0x4 => some (.charReceived s.hnd)
  | 0x5 => some (.charReceivedGet s.hnd)
  | 0x6 => some (.txBusy s.hnd)
  | 0x7 => some (.enable s.hnd)
  | 0x8 => some (.disable s.hnd)
  | 0x9 => some (.rtsctsEnable s.hnd)
  | 0xA => some (.rtsctsDisable s.hnd)
  | 0xB => some (.puts s.hnd s.str)
  | _ => none

end Sys2Proof.Machine
end

