-- ==== Sys2Proof/Machine/Flags.lean ====
section
/-! DEFINITION. The block has no condition codes; its flags are the three status bits of each instance, functions of the
back-end's state evaluated at each CTRL read (10_state.md R24; 44_peripheral_backend.md R216). -/

namespace Sys2Proof.Machine

/-- `TX_FULL = 1` iff `|txq| = TXCAP`. -/
def txFull (c : Config) (i : Inst) (p : Periph) : Bit := bitOf (p.txq.length == txCap c i)

/-- `TX_BUSY = 1` iff the queue or the shifter holds a byte (90_conflicts.md C3). -/
def txBusy (p : Periph) : Bit := bitOf (!p.txq.isEmpty || p.txsh.isSome)

/-- `RX_NEMPTY = 1` iff the receive queue holds a byte. -/
def rxNempty (p : Periph) : Bit := bitOf (!p.rxq.isEmpty)

/-- The word a read of `CTRL(i)` returns: the stored fields, the three status bits, reserved bits 0 (40_register_model.md R121). -/
def ctrlWord (c : Config) (i : Inst) (p : Periph) : Word :=
  pack c.layout p.ctrl ||| placeField c.layout.rxNempty (rxNempty p) ||| placeField c.layout.txFull (txFull c i p)
    ||| placeField c.layout.txBusy (txBusy p)

/-- `U`, the unpacker's output on the latch `W`: not storage (10_state.md R21, R30). -/
def State.u (s : State) : Unpacked := unpack s.cfg.layout s.w

/-- `ready = 1` iff `fsm = IDLE`: not storage (10_state.md R21, R30). -/
def State.ready (s : State) : Bit := bitOf (s.fsm == .idle)

end Sys2Proof.Machine
end

