-- ==== Sys2Proof/Machine/Resolver.lean ====
section
/-! DEFINITION. The baud-rate divisor resolver (41_divisor_resolver.md): a pure function on 32-bit unsigned words. -/

namespace Sys2Proof.Machine

/-- `DEN = u32(2 * baud)` (41_divisor_resolver.md R141). -/
def denominator (baud : Word) : Word := 2#32 * baud

/-- The repeated subtraction of 41_divisor_resolver.md R143: the running remainder and the count, from a remainder and a count.
The first argument bounds the iterations: with `den ≠ 0` there are at most `clk` of them. -/
def subtractLoop : Nat → Word → Word → Word → Word × Word
  | 0, clk, _, raw => (clk, raw)
  | n + 1, clk, den, raw => if den ≤ clk then subtractLoop n (clk - den) den (raw + 1#32) else (clk, raw)

/-- How the quotient of 41_divisor_resolver.md R142, R143 and R154 comes out. -/
inductive Quotient where
  /-- The remainder left in `CLK` (the operand itself under `DIVIDE`) and `raw0`. -/
  | value (clk raw0 : Word)
  /-- The subtraction loop never ends (`SUBTRACT`, `DEN = 0`). -/
  | neverEnds
  /-- `DIVIDE` with `DEN = 0` and no `DIV0_RESULT`: refuse(M2). -/
  | noMeaning
deriving DecidableEq, Repr

/-- `Quotient(clock, DEN)` by the configured strategy (41_divisor_resolver.md R142, R143, R154). -/
def quotient (c : Config) (clk den : Word) : Quotient :=
  match c.divStrategy with
  | .divide =>
    if den = 0#32 then
      match c.div0Result with
      | some q => .value clk q
      | none => .noMeaning
    else .value clk (clk / den)
  | .subtract =>
    if den = 0#32 then .neverEnds
    else .value (subtractLoop (clk.toNat + 1) clk den 0#32).1 (subtractLoop (clk.toNat + 1) clk den 0#32).2

/-- The shift at tap index `tap`: 3 bits at 2 and 4, 1 bit elsewhere (41_divisor_resolver.md R145). -/
def tapShift (tap : Word) : Nat := if tap = 2#32 ∨ tap = 4#32 then 3 else 1

/-- The tap loop (41_divisor_resolver.md R145): from `(TAP, RAW)` to `(TAP, RAW)`. The first argument bounds the iterations:
every one halves `RAW` at least, so 32 always suffice. -/
def tapLoop : Nat → Word → Word → Word × Word
  | 0, tap, raw => (tap, raw)
  | n + 1, tap, raw => if 0x3FF#32 ≤ raw then tapLoop n (tap + 1#32) (raw >>> tapShift tap) else (tap, raw)

/-- The tap index and divisor selected for a quotient. -/
def selectTap (raw0 : Word) : Word × Word := tapLoop 32 0#32 raw0

/-- What `Resolve` leaves in the registers `DEN`, `CLK`, `TAP`, `RAW` (41_divisor_resolver.md R140), or how it fails to. -/
inductive Resolved where
  | value (den clk tap raw : Word)
  | neverEnds
  | noMeaning
deriving DecidableEq, Repr

/-- `Resolve(clock, baud)` (41_divisor_resolver.md R140). -/
def resolve (c : Config) (clk baud : Word) : Resolved :=
  match quotient c clk (denominator baud) with
  | .value clk' raw0 => .value (denominator baud) clk' (selectTap raw0).1 (selectTap raw0).2
  | .neverEnds => .neverEnds
  | .noMeaning => .noMeaning

/-- `PRSC = TAP mod 4` (41_divisor_resolver.md R148; 30_encoding.md R92). -/
def prescalerField (tap : Word) : BitVec 2 := tap.setWidth 2

/-- `BAUD = u32(RAW − 1) mod 1024` (41_divisor_resolver.md R149; 30_encoding.md R92). -/
def baudField (raw : Word) : BitVec 10 := (raw - 1#32).setWidth 10

/-- The total shift after `t` iterations (41_divisor_resolver.md R146). -/
def totalShift : Nat → Nat
  | 0 => 0
  | 1 => 1
  | 2 => 2
  | 3 => 5
  | 4 => 6
  | t => t + 4

/-- `mult(t) = 2^(1 + s(t))`, the whole clock-division factor at tap `t` (41_divisor_resolver.md R147). -/
def multiplier (t : Nat) : Nat := 2 ^ (1 + totalShift t)

/-- Clock cycles one bit lasts on the line for a stored pair: `mult(PRSC) * (BAUD + 1)` (44_peripheral_backend.md R227; timing
only, no step reads it). -/
def bitPeriod (f : Stored) : Nat := multiplier f.prsc.toNat * (f.baud.toNat + 1)

/-- The stored fields `setup` writes (43_setup.md R201; 30_encoding.md R93). -/
def setupFields (c : Config) (tap raw irqm : Word) : Stored :=
  { en := c.setupEn, sim := c.setupSim, hwfc := 0#1, prsc := prescalerField tap, baud := baudField raw,
    irq := takeField 5 c.layout.irq (irqm &&& maskIrq c.layout) }

/-- `SetupWord(TAP, RAW, IRQM)` (43_setup.md R201). -/
def setupWord (c : Config) (tap raw irqm : Word) : Word := pack c.layout (setupFields c tap raw irqm)

end Sys2Proof.Machine
end

