-- ==== Sys2Proof/Machine/Ops.lean ====
section
/-! DEFINITION. The named operations the meanings are made of: the four port transactions (40_register_model.md R121 to R124), the
back-end agents' steps (44_peripheral_backend.md R217 to R223), reset (70_reset_and_hazards.md R270), the accept step
(10_state.md R23), the sequencer's shared FSM steps, fetching, and whose turn it is. There is no operation that takes an
exception: the block raises none (60_exceptions.md R245, R250, R251). -/

namespace Sys2Proof.Machine

/-! ## Port transactions -/

/-- The word a read of `CTRL(i)` returns in this state (40_register_model.md R121). -/
def ctrlValue (i : Inst) (s : State) : Word := ctrlWord s.cfg i (s.periph i)

/-- The state a read of `CTRL(i)` leaves: "no state changes", only the bus cycle is noted (40_register_model.md R121). -/
def afterCtrlRead (i : Inst) (s : State) : State := { s with bus := some (.regRead i offCtrl (ctrlValue i s)) }

/-- Replace the stored fields; with `EN = 0` written and `EN0_FLUSH`, empty the queues and the shifter (40_register_model.md
R122; 44_peripheral_backend.md R222). -/
def Periph.writeStored (c : Config) (f : Stored) (p : Periph) : Periph :=
  if f.en = 0#1 ∧ c.en0Flush = true then { p with ctrl := f, txq := [], rxq := [], txsh := none }
  else { p with ctrl := f }

/-- Write of `CTRL(i)` (40_register_model.md R122): status and reserved positions are ignored. -/
def writeCtrl (i : Inst) (v : Word) (s : State) : State :=
  { s with bus := some (.regWrite i offCtrl v) }.setPeriph i ((s.periph i).writeStored s.cfg (unpack s.cfg.layout v).stored)

/-- The peripheral's part of a DATA write with `SIM = 0`: discarded while `EN = 0`, queued while there is room, else discarded
(40_register_model.md R123, M8; 44_peripheral_backend.md R220). -/
def Periph.pushTx (c : Config) (i : Inst) (b : Byte) (p : Periph) : Periph :=
  if p.ctrl.en = 0#1 then p
  else if p.txq.length < txCap c i then { p with txq := p.txq ++ [b] }
  else p

/-- Write of `DATA(i)` (40_register_model.md R123); `SIM = 1` is refuse(M10) (44_peripheral_backend.md R224). -/
def writeData (i : Inst) (v : Word) (s : State) : Result :=
  if (s.periph i).ctrl.sim = 1#1 then .refused .simRedirect
  else .next ({ s with bus := some (.regWrite i offData v) }.setPeriph i ((s.periph i).pushTx s.cfg i (wordByte v)))

/-- A DATA word as read: the byte and the two depth nibbles (40_register_model.md R124; 30_encoding.md R86). -/
def dataWord (c : Config) (i : Inst) (b : Byte) : Word :=
  packData c.layout { rtx := b, rxFifo := (c.inst i).rxdLog2, txFifo := (c.inst i).txdLog2 }

/-- The byte a read of `DATA(i)` returns (40_register_model.md R124): the oldest received byte; with `EN = 0` or nothing received
(M6), a free byte (log 8). -/
def readByte (i : Inst) (s : State) : Byte :=
  if (s.periph i).ctrl.en = 1#1 then
    match (s.periph i).rxq with
    | h :: _ => h
    | [] => Config.freeByte s.draws
  else Config.freeByte s.draws

/-- The word a read of `DATA(i)` returns (40_register_model.md R124). -/
def readDataWord (i : Inst) (s : State) : Word := dataWord s.cfg i (readByte i s)

/-- The state a read of `DATA(i)` leaves (40_register_model.md R124): the byte returned is removed; where it was a free one, the
queue stays and a draw is counted. -/
def afterDataRead (i : Inst) (s : State) : State :=
  if (s.periph i).ctrl.en = 1#1 ∧ (s.periph i).rxq ≠ [] then
    { s with bus := some (.regRead i offData (readDataWord i s)) }.setPeriph i
      { s.periph i with rxq := (s.periph i).rxq.tail }
  else { s with bus := some (.regRead i offData (readDataWord i s)), draws := s.draws + 1 }

/-- The state a `CapRead()` leaves; it returns `CAP` (00_scope.md R5; 10_state.md R27). -/
def afterCapRead (s : State) : State := { s with bus := some (.capRead s.cfg.cap) }

/-! ## The back-end's agents -/

/-- `TxLoad(i)` is enabled (44_peripheral_backend.md R217; with `HWFC = 1` only with the remote's permission, R223). -/
def Periph.txLoadEnabled (p : Periph) : Bool :=
  p.ctrl.en == 1#1 && p.txsh.isNone && !p.txq.isEmpty && (p.ctrl.hwfc == 0#1 || p.cts)

/-- `TxLoad(i)`: the oldest queued byte moves into the shifter; nothing where it is not enabled (44_peripheral_backend.md R217). -/
def Periph.txLoad (p : Periph) : Periph :=
  if p.txLoadEnabled then
    match p.txq with
    | h :: t => { p with txq := t, txsh := some h }
    | [] => p
  else p

/-- `TxDone(i)` is enabled (44_peripheral_backend.md R218). -/
def Periph.txDoneEnabled (p : Periph) : Bool := p.ctrl.en == 1#1 && p.txsh.isSome

/-- `TxDone(i)`: the shifted byte is on the wire (44_peripheral_backend.md R218). -/
def Periph.txDone (p : Periph) : Periph :=
  if p.txDoneEnabled then
    match p.txsh with
    | some b => { p with wireTx := p.wireTx ++ [b], txsh := none }
    | none => p
  else p

/-- `RxArrive(i, b)`: queued while there is room, else lost; only while `EN = 1` (44_peripheral_backend.md R219). -/
def Periph.rxArrive (c : Config) (i : Inst) (b : Byte) (p : Periph) : Periph :=
  if p.ctrl.en = 1#1 ∧ p.rxq.length < rxCap c i then { p with rxq := p.rxq ++ [b] } else p

/-- The environment drives the clear-to-send input (44_peripheral_backend.md R223). -/
def Periph.setCts (level : Bool) (p : Periph) : Periph := { p with cts := level }

/-- Apply a back-end step to instance `i`, which touches no other state (44_peripheral_backend.md R226). -/
def onPeriph (i : Inst) (f : Periph → Periph) (s : State) : State := s.setPeriph i (f (s.periph i))

/-- Everything the block itself holds goes to its reset value; the parameters, the environment's inputs (clear-to-send, the
host's words, the agenda) and the count of free values are not the block's (70_reset_and_hazards.md R270, R271; log 18). -/
def assertReset (s : State) : State :=
  { State.resetOf s.cfg with
    p0 := { Periph.reset with cts := s.p0.cts }
    p1 := { Periph.reset with cts := s.p1.cts }
    offers := s.offers, agenda := s.agenda, draws := s.draws }

/-! ## The sequencer's steps -/

/-- Where a command stands: in IDLE it is accepted (`first`); while it is the one in execution its walk goes on (`onward`);
while another one runs it must not be offered (10_state.md R23). -/
def asCommand (op : BitVec 4) (s : State) (first onward : Result) : Result :=
  if s.fsm = .idle then first
  else if s.op = op then onward
  else .refused .commandWhileBusy

/-- The accept step's part that every command but AVAILABLE shares: `OP`, `HND`, `SEL`, the entry state (10_state.md R23). -/
def accept (op : BitVec 4) (handle : Word) (entry : Fsm) (s : State) : Result :=
  match resolveHandle s.cfg handle with
  | some i => .next { s with op := op, hnd := handle, sel := i, fsm := entry }
  | none => .refused .unknownHandle

/-- The sequencer's read of `CTRL(SEL)` into the latch `W` (10_state.md R21). -/
def loadW (s : State) : State := { afterCtrlRead s.sel s with w := ctrlValue s.sel s }

/-- A transmit poll: stay while `U.tx_full = 1` (42_blocking_io.md R171, R180). -/
def pollTx (stay go : Fsm) (s : State) : Result :=
  .next { loadW s with fsm := if (loadW s).u.txFull = 1#1 then stay else go }

/-- A receive poll: go on when `U.rx_nempty = 1` (42_blocking_io.md R172). -/
def pollRx (stay go : Fsm) (s : State) : Result :=
  .next { loadW s with fsm := if (loadW s).u.rxNempty = 1#1 then go else stay }

/-- Read `DATA(SEL)` into `B` and `R0` and end the command (42_blocking_io.md R172, R174). -/
def takeReceived (s : State) : Result :=
  .next (afterDataRead s.sel { s with
    b := wordByte (readDataWord s.sel s), r0 := byteWord (wordByte (readDataWord s.sel s)), fsm := .idle })

/-- Write a word to `DATA(SEL)` and go to `go` (42_blocking_io.md R171, R180). -/
def sendWord (v : Word) (go : Fsm) (s : State) : Result := writeData s.sel v { s with fsm := go }

/-- Read `CTRL(SEL)` into `W`, put one of its status bits in `R0` and end the command (42_blocking_io.md R173, R175). -/
def reportBit (pick : Unpacked → Bit) (s : State) : Result :=
  .next { loadW s with r0 := bitWord (pick (loadW s).u), fsm := .idle }

/-- `RMW_RD` (42_blocking_io.md R182). -/
def rmwRead (s : State) : Result := .next { loadW s with fsm := .rmwWr }

/-- `RMW_WR` with the command's `f` (42_blocking_io.md R182). -/
def rmwWrite (f : Word → Word) (s : State) : Result := .next (writeCtrl s.sel (f s.w) { s with fsm := .idle })

/-- The walk of a read-modify-write command outside IDLE (42_blocking_io.md R182). -/
def rmwWalk (f : Word → Word) (s : State) : Result :=
  match s.fsm with
  | .rmwRd => rmwRead s
  | .rmwWr => rmwWrite f s
  | _ => .fault .noTransition

/-- `f(W) = W OR mask`, setting one bit (42_blocking_io.md R176, R178). -/
def setBit (pos : Nat) (w : Word) : Word := w ||| fieldMask 1 pos

/-- `f(W) = W AND NOT mask`, clearing one bit (42_blocking_io.md R177, R179). -/
def clearBit (pos : Nat) (w : Word) : Word := w &&& ~~~fieldMask 1 pos

/-! ## Fetching, and whose turn it is -/

/-- What the sequencer's turn comes to. -/
inductive Fetched where
  /-- Run this instruction in this state. -/
  | run (i : Instr) (s : State)
  /-- IDLE, and no whole command is on the command port. -/
  | wait
  /-- IDLE, and what is on the command port is no command (M9). -/
  | malformed (e : DecodeError)
  /-- Outside IDLE with no command in `OP`. -/
  | stuck
deriving DecidableEq, Repr

/-- In IDLE the sequencer takes the next command's words off the command port (10_state.md R23; 30_encoding.md R91); outside
IDLE it goes on with the command in `OP`. -/
def fetch (s : State) : Fetched :=
  if s.fsm = .idle then
    match decodeCommand s.offers with
    | .ok i rest => .run i { s with offers := rest }
    | .incomplete => .wait
    | .malformed e => .malformed e
  else
    match runningCommand s with
    | some i => .run i s
    | none => .stuck

/-- The sequencer's own step would change nothing that matters: it waits in IDLE, polls a bit that has the waiting value, or
is in the subtraction that never ends. -/
def seqWaits (s : State) : Bool :=
  match s.fsm with
  | .idle => decodeCommand s.offers == .incomplete
  | .pbPoll | .psCrPoll | .psChPoll => (loadW s).u.txFull == 1#1
  | .gbPoll => (loadW s).u.rxNempty == 0#1
  | .suRes => resolve s.cfg s.clk s.bd == .neverEnds
  | _ => false

/-- The step instance `i`'s transmit engine can take. -/
def engineStep (i : Inst) (p : Periph) : Option Event :=
  if p.txDoneEnabled then some (.txDone i)
  else if p.txLoadEnabled then some (.txLoad i)
  else none

/-- A transmit engine that can move, the one of the instance in `SEL` first. -/
def readyEngine (s : State) : Option Event :=
  match engineStep s.sel (s.periph s.sel) with
  | some e => some e
  | none => engineStep s.sel.other (s.periph s.sel.other)

/-- Whose turn it is when the agenda is used up: the sequencer's, but a waiting sequencer lets an enabled transmit engine move, so
that the weak fairness of 44_peripheral_backend.md R225 holds (log 3). -/
def fairTurn (s : State) : Event :=
  if seqWaits s then
    match readyEngine s with
    | some e => e
    | none => .seq
  else .seq

/-- Whose turn it is: the agenda's first event, or the fair turn (log 2). -/
def nextEvent (s : State) : Event :=
  match s.agenda with
  | e :: _ => e
  | [] => fairTurn s

/-- The turn is taken off the agenda, and the bus is quiet until the step makes a cycle. -/
def takeTurn (s : State) : State := { s with agenda := s.agenda.tail, bus := none }

end Sys2Proof.Machine
end

