-- ==== Sys2Proof/Machine/Configure.lean ====
section
/-! DEFINITION. AVAILABLE (40_register_model.md R120) and SETUP (43_setup.md R200 to R203). -/

namespace Sys2Proof.Machine

/-- The presence bit of an instance in a capability word: `zext_32(c[CAP_BITi])` (40_register_model.md R120). -/
def presenceBit (c : Config) (i : Inst) (cap : Word) : Word := bitWord (takeField 1 (c.inst i).capBit.toNat cap)

/-- `AV_RD`: a handle that is neither base gives 0 and reads nothing (40_register_model.md R120). -/
def availableRead (s : State) : Result :=
  match resolveHandle s.cfg s.hnd with
  | some i => .next { afterCapRead s with r0 := presenceBit s.cfg i s.cfg.cap, fsm := .idle }
  | none => .next { s with r0 := 0#32, fsm := .idle }

/-- AVAILABLE. Its accept step takes any handle and leaves `SEL` (10_state.md R23). -/
def execAvailable (handle : Word) (s : State) : Result :=
  asCommand opAvailable s (.next { s with op := opAvailable, hnd := handle, fsm := .avRd })
    (match s.fsm with
      | .avRd => availableRead s
      | _ => .fault .noTransition)

/-- `SU_RES`: the whole of `Resolve` is one step (41_divisor_resolver.md R140); with `DEN = 0` it never ends under `SUBTRACT`
(`RAW` is then a free value, log 9) and has no meaning under `DIVIDE` (41_divisor_resolver.md R154). -/
def setupResolve (s : State) : Result :=
  match resolve s.cfg s.clk s.bd with
  | .value den clk tap raw => .next { s with den := den, clk := clk, tap := tap, raw := raw, fsm := .suWr }
  | .neverEnds => .next { s with den := denominator s.bd, raw := Config.freeWord s.draws, draws := s.draws + 1 }
  | .noMeaning => .refused .divideByZero

/-- `SU_WR`: the one write of `setup` (43_setup.md R200, R202). -/
def setupWrite (s : State) : Result :=
  .next (writeCtrl s.sel (setupWord s.cfg s.tap s.raw s.irqm) { s with fsm := .idle })

/-- SETUP (43_setup.md R200). -/
def execSetup (handle clockHz baud irqMask : Word) (s : State) : Result :=
  asCommand opSetup s (accept opSetup handle .suRes { s with clk := clockHz, bd := baud, irqm := irqMask })
    (match s.fsm with
      | .suRes => setupResolve s
      | .suWr => setupWrite s
      | _ => .fault .noTransition)

end Sys2Proof.Machine
end

