-- ==== Sys2Proof/Machine/Port.lean ====
section
/-! DEFINITION. The four port transactions as instructions (40_register_model.md R121 to R124). The word a read returns stands in the
bus cycle. -/

namespace Sys2Proof.Machine

/-- PORT_RD_CTRL (40_register_model.md R121). -/
def execPortRdCtrl (i : Inst) (s : State) : Result := .next (afterCtrlRead i s)

/-- PORT_RD_DATA (40_register_model.md R124). -/
def execPortRdData (i : Inst) (s : State) : Result := .next (afterDataRead i s)

/-- PORT_WR_CTRL (40_register_model.md R122). -/
def execPortWrCtrl (i : Inst) (wdata : Word) (s : State) : Result := .next (writeCtrl i wdata s)

/-- PORT_WR_DATA (40_register_model.md R123). -/
def execPortWrData (i : Inst) (wdata : Word) (s : State) : Result := writeData i wdata s

end Sys2Proof.Machine
end

