-- ==== Sys2Proof/Machine/Receive.lean ====
section
/-! DEFINITION. GET_BYTE (42_blocking_io.md R172), CHAR_RECEIVED (R173) and CHAR_RECEIVED_GET (R174). -/

namespace Sys2Proof.Machine

/-- GET_BYTE (42_blocking_io.md R172). -/
def execGetByte (handle : Word) (s : State) : Result :=
  asCommand opGetByte s (accept opGetByte handle .gbPoll s)
    (match s.fsm with
      | .gbPoll => pollRx .gbPoll .gbRd s
      | .gbRd => takeReceived s
      | _ => .fault .noTransition)

/-- CHAR_RECEIVED (42_blocking_io.md R173). -/
def execCharReceived (handle : Word) (s : State) : Result :=
  asCommand opCharReceived s (accept opCharReceived handle .crRd s)
    (match s.fsm with
      | .crRd => reportBit Unpacked.rxNempty s
      | _ => .fault .noTransition)

/-- CHAR_RECEIVED_GET (42_blocking_io.md R174). -/
def execCharReceivedGet (handle : Word) (s : State) : Result :=
  asCommand opCharReceivedGet s (accept opCharReceivedGet handle .cgRd s)
    (match s.fsm with
      | .cgRd => takeReceived s
      | _ => .fault .noTransition)

end Sys2Proof.Machine
end

