-- ==== Sys2Proof/Machine/Toggle.lean ====
section
/-! DEFINITION. The four read-modify-write commands (42_blocking_io.md R176 to R179, common form R182). -/

namespace Sys2Proof.Machine

/-- ENABLE: sets `EN` (42_blocking_io.md R176). -/
def execEnable (handle : Word) (s : State) : Result :=
  asCommand opEnable s (accept opEnable handle .rmwRd s) (rmwWalk (setBit s.cfg.layout.en) s)

/-- DISABLE: clears `EN` (42_blocking_io.md R177). -/
def execDisable (handle : Word) (s : State) : Result :=
  asCommand opDisable s (accept opDisable handle .rmwRd s) (rmwWalk (clearBit s.cfg.layout.en) s)

/-- RTSCTS_ENABLE: sets `HWFC` (42_blocking_io.md R178). -/
def execRtsctsEnable (handle : Word) (s : State) : Result :=
  asCommand opRtsctsEnable s (accept opRtsctsEnable handle .rmwRd s) (rmwWalk (setBit s.cfg.layout.hwfc) s)

/-- RTSCTS_DISABLE: clears `HWFC` (42_blocking_io.md R179). -/
def execRtsctsDisable (handle : Word) (s : State) : Result :=
  asCommand opRtsctsDisable s (accept opRtsctsDisable handle .rmwRd s) (rmwWalk (clearBit s.cfg.layout.hwfc) s)

end Sys2Proof.Machine
end

