-- ==== Sys2Proof/Machine/Transmit.lean ====
section
/-! DEFINITION. PUT_BYTE (42_blocking_io.md R171), TX_BUSY (R175) and PUTS (R180). -/

namespace Sys2Proof.Machine

/-- PUT_BYTE (42_blocking_io.md R171). -/
def execPutByte (handle : Word) (b : Byte) (s : State) : Result :=
  asCommand opPutByte s (accept opPutByte handle .pbPoll { s with b := b })
    (match s.fsm with
      | .pbPoll => pollTx .pbPoll .pbWr s
      | .pbWr => sendWord (byteWord s.b) .idle s
      | _ => .fault .noTransition)

/-- TX_BUSY (42_blocking_io.md R175). -/
def execTxBusy (handle : Word) (s : State) : Result :=
  asCommand opTxBusy s (accept opTxBusy handle .tbRd s)
    (match s.fsm with
      | .tbRd => reportBit Unpacked.txBusy s
      | _ => .fault .noTransition)

/-- `PS_NEXT`: take the next character, or end (42_blocking_io.md R180). -/
def putsNext (s : State) : Result :=
  match s.str with
  | [] => .next { s with fsm := .idle }
  | c :: rest => .next { s with b := c, str := rest, fsm := if c = 0x0A#8 then .psCrPoll else .psChPoll }

/-- PUTS (42_blocking_io.md R180). A string that holds the terminator is not well formed (30_encoding.md R95, M9 before M1). -/
def execPuts (handle : Word) (str : List Byte) (s : State) : Result :=
  asCommand opPuts s
    (if (Instr.puts handle str).wellFormed then accept opPuts handle .psNext { s with str := str }
      else .refused (.notWellFormed .terminatorInString))
    (match s.fsm with
      | .psNext => putsNext s
      | .psCrPoll => pollTx .psCrPoll .psCrWr s
      | .psCrWr => sendWord 0x0000000D#32 .psChPoll s
      | .psChPoll => pollTx .psChPoll .psChWr s
      | .psChWr => sendWord (byteWord s.b) .psNext s
      | _ => .fault .noTransition)

end Sys2Proof.Machine
end

