-- ==== Sys2Proof/Machine/Dispatch.lean ====
section
/-! DEFINITION. One arm per instruction. For a command, `exec i s` is the step the sequencer takes while `i` is its command. -/

namespace Sys2Proof.Machine

def exec (i : Instr) (s : State) : Host.Outcome State Fault Refusal :=
  match i with
  | .available handle => Sys2Proof.Machine.execAvailable handle s
  | .setup handle clockHz baud irqMask => Sys2Proof.Machine.execSetup handle clockHz baud irqMask s
  | .putByte handle b => Sys2Proof.Machine.execPutByte handle b s
  | .getByte handle => Sys2Proof.Machine.execGetByte handle s
  | .charReceived handle => Sys2Proof.Machine.execCharReceived handle s
  | .charReceivedGet handle => Sys2Proof.Machine.execCharReceivedGet handle s
  | .txBusy handle => Sys2Proof.Machine.execTxBusy handle s
  | .enable handle => Sys2Proof.Machine.execEnable handle s
  | .disable handle => Sys2Proof.Machine.execDisable handle s
  | .rtsctsEnable handle => Sys2Proof.Machine.execRtsctsEnable handle s
  | .rtsctsDisable handle => Sys2Proof.Machine.execRtsctsDisable handle s
  | .puts handle str => Sys2Proof.Machine.execPuts handle str s
  | .portRdCtrl inst => Sys2Proof.Machine.execPortRdCtrl inst s
  | .portRdData inst => Sys2Proof.Machine.execPortRdData inst s
  | .portWrCtrl inst wdata => Sys2Proof.Machine.execPortWrCtrl inst wdata s
  | .portWrData inst wdata => Sys2Proof.Machine.execPortWrData inst wdata s

end Sys2Proof.Machine
end

