-- ==== Sys2Proof/Machine/RegisterFile.lean ====
section
/-! DEFINITION. The register file as the register port sees it: what it does with an access, and which access each step of the
sequencer presents to it. The sequencer is the only master (20_memory.md R50, R63): no step presents any other access (log 6). -/

namespace Sys2Proof.Machine

/-- What the register file does with an access: the port transaction it is, or refuse(M12) (20_memory.md R53; 40_register_model.md
R121 to R125). -/
def registerFile (a : PortAccess) (s : State) : Result :=
  match decodeAccess s.cfg a with
  | some i => exec i s
  | none => .refused .badAccess

/-- `f(W)` of the single-bit command in `OP` (42_blocking_io.md R176 to R179). -/
def toggleWord (s : State) : Option Word :=
  match s.op.toNat with
  | 0x7 => some (setBit s.cfg.layout.en s.w)
  | 0x8 => some (clearBit s.cfg.layout.en s.w)
  | 0x9 => some (setBit s.cfg.layout.hwfc s.w)
  | 0xA => some (clearBit s.cfg.layout.hwfc s.w)
  | _ => none

/-- The port instruction the sequencer's step issues in its present state, if it issues one (40_register_model.md R128). -/
def State.transaction (s : State) : Option Instr :=
  match s.fsm with
  | .pbPoll | .gbPoll | .crRd | .tbRd | .rmwRd | .psCrPoll | .psChPoll => some (.portRdCtrl s.sel)
  | .gbRd | .cgRd => some (.portRdData s.sel)
  | .suWr => some (.portWrCtrl s.sel (setupWord s.cfg s.tap s.raw s.irqm))
  | .rmwWr => (toggleWord s).map (.portWrCtrl s.sel)
  | .pbWr | .psChWr => some (.portWrData s.sel (byteWord s.b))
  | .psCrWr => some (.portWrData s.sel 0x0000000D#32)
  | .idle | .avRd | .suRes | .psNext => none

/-- The access an instruction's code stands for at the port: a word at `BASEi + off` (30_encoding.md R88). -/
def requestOf (c : Config) (i : Instr) : Option PortAccess :=
  match encode i with
  | .port header inst wdata => some (accessOf c header inst wdata)
  | .command _ => none

end Sys2Proof.Machine
end

