-- ==== Sys2Proof/Machine/Step.lean ====
section
/-! DEFINITION. One step: one transition of one agent (00_scope.md R6, 10_state.md R20). -/

namespace Sys2Proof.Machine

/-- The sequencer's turn. -/
def seqStep (s : State) : Host.Outcome State Fault Refusal :=
  match fetch s with
  | .run i t => exec i t
  | .wait => .next s
  | .malformed e => .refused (.notWellFormed e)
  | .stuck => .fault .noTransition

/-- The turn of the agent or input `e` names. -/
def turn (e : Event) (s : State) : Host.Outcome State Fault Refusal :=
  match e with
  | .seq => seqStep s
  | .txLoad i => .next (onPeriph i Periph.txLoad s)
  | .txDone i => .next (onPeriph i Periph.txDone s)
  | .rxArrive i b => .next (onPeriph i (Periph.rxArrive s.cfg i b) s)
  | .cts i level => .next (onPeriph i (Periph.setCts level) s)
  | .reset => .next (assertReset s)

/-- One step of the machine: whoever's turn it is takes it. -/
def step (s : State) : Host.Outcome State Fault Refusal := turn (nextEvent s) (takeTurn s)

/-- `s` with the instruction of a row's word placed where the very next step fetches it. A command: the sequencer is idle, the
word and four words of 0 are on the command port. A port transaction: the sequencer is in a state whose step issues it. The turn is
the sequencer's, the only master of the register port (log 4, log 21). -/
def State.withFetchWord (s : State) (nbits w : Nat) : State :=
  if 32 ≤ nbits then { s with fsm := .idle, offers := wordsOf w, agenda := .seq :: s.agenda }
  else
    match decodeTableWord nbits w with
    | some i => { s.issuing i with agenda := .seq :: s.agenda }
    | none => { s with agenda := .seq :: s.agenda }

end Sys2Proof.Machine
end

