-- ==== Sys2Proof/Safety.lean ====
section
/-! DEFINITION. The terms claims are stated in: the premises the spec puts on the host (70_reset_and_hazards.md
R272, R278), the invariants of a run (10_state.md R30), and the FSM's walks (10_state.md R22, 40_register_model.md R127). -/

namespace Sys2Proof.Machine

/-! ## Premises on the environment -/

/-- The inputs of `setup` for which the stored fields stand for the rate computed (70_reset_and_hazards.md R272, R278): none of
M2 to M5 applies. -/
abbrev UsableSetup (clock baud : Word) : Prop :=
  1 ≤ baud.toNat ∧ 2 * baud.toNat ≤ clock.toNat ∧ clock.toNat / (2 * baud.toNat) < 32736

/-- The boot order's second step for the build's own clock (70_reset_and_hazards.md R272 (2)). -/
abbrev UsableBaud (c : Config) (baud : Word) : Prop := UsableSetup c.clockHz baud

/-- Data is present for a DATA read of instance `i` (70_reset_and_hazards.md R273). -/
abbrev DataPresent (i : Inst) (s : State) : Prop := (s.periph i).ctrl.en = 1#1 ∧ (s.periph i).rxq ≠ []

/-! ## The invariants of a run -/

/-- Both queues are within their capacities (10_state.md R30). -/
abbrev Periph.fits (c : Config) (i : Inst) (p : Periph) : Prop :=
  p.txq.length ≤ txCap c i ∧ p.rxq.length ≤ rxCap c i

/-- With `EN0_FLUSH`, a disabled peripheral holds nothing (44_peripheral_backend.md R216, "while `EN = 0` ... all three are 0"). -/
abbrev Periph.emptyWhenOff (c : Config) (p : Periph) : Prop :=
  p.ctrl.en = 0#1 → c.en0Flush = true → p.txq = [] ∧ p.rxq = [] ∧ p.txsh = none

/-- The FSM states of the walk of the command with opcode `op` (10_state.md R23, `Entry`; the command rules). -/
def walkStates (op : BitVec 4) : List Fsm :=
  match op.toNat with
  | 0x0 => [.avRd]
  | 0x1 => [.suRes, .suWr]
  | 0x2 => [.pbPoll, .pbWr]
  | 0x3 => [.gbPoll, .gbRd]
  | 0x4 => [.crRd]
  | 0x5 => [.cgRd]
  | 0x6 => [.tbRd]
  | 0x7 | 0x8 | 0x9 | 0xA => [.rmwRd, .rmwWr]
  | 0xB => [.psNext, .psCrPoll, .psCrWr, .psChPoll, .psChWr]
  | _ => []

/-- `fsm` is IDLE or a state of the command in `OP`. -/
abbrev State.onWalk (s : State) : Prop := s.fsm = .idle ∨ s.fsm ∈ walkStates s.op

/-- The FSM states that write a byte to DATA. -/
abbrev Fsm.writesData (f : Fsm) : Prop := f = .pbWr ∨ f = .psCrWr ∨ f = .psChWr

/-- A transmit write never meets a full queue (42_blocking_io.md R171 (c)). -/
abbrev State.roomToWrite (s : State) : Prop :=
  s.fsm.writesData → (s.periph s.sel).txq.length < txCap s.cfg s.sel

/-- `get_byte`'s read never meets an empty queue (42_blocking_io.md R172 (d)). -/
abbrev State.dataToRead (s : State) : Prop := s.fsm = .gbRd → (s.periph s.sel).rxq ≠ []

/-- At `RMW_WR` the latch `W` still holds the stored fields of the register it was read from (42_blocking_io.md R182). -/
abbrev State.freshLatch (s : State) : Prop :=
  s.fsm = .rmwWr → (unpack s.cfg.layout s.w).stored = (s.periph s.sel).ctrl

/-- `STR` holds no terminator (10_state.md R21). -/
abbrev State.cleanString (s : State) : Prop := ∀ c ∈ s.str, c ≠ 0#8

/-- The invariant of a run with proper parameters. -/
structure State.Inv (s : State) : Prop where
  params    : s.cfg.wf
  fits0     : s.p0.fits s.cfg .i0
  fits1     : s.p1.fits s.cfg .i1
  off0      : s.p0.emptyWhenOff s.cfg
  off1      : s.p1.emptyWhenOff s.cfg
  walk      : s.onWalk
  clean     : s.cleanString
  room      : s.roomToWrite
  data      : s.dataToRead
  fresh     : s.freshLatch

/-! ## Observations -/

/-- The bytes a DATA write has handed to instance `p` and no flush has removed, oldest first (44_peripheral_backend.md R220). -/
def Periph.accepted (p : Periph) : List Byte := p.wireTx ++ p.txsh.toList ++ p.txq

/-- The instance an instruction acts on in state `s`: a port transaction names it, a command's is `SEL`. -/
def targetOf (s : State) : Instr → Inst
  | .portRdCtrl i | .portRdData i | .portWrCtrl i _ | .portWrData i _ => i
  | .available _ | .setup _ _ _ _ | .putByte _ _ | .getByte _ | .charReceived _ | .charReceivedGet _ | .txBusy _ | .enable _
  | .disable _ | .rtsctsEnable _ | .rtsctsDisable _ | .puts _ _ => s.sel

/-- The handle of a command that resolves it at the accept step, every command but AVAILABLE (10_state.md R23). -/
def resolvedHandle : Instr → Option Word
  | .setup h _ _ _ | .putByte h _ | .getByte h | .charReceived h | .charReceivedGet h | .txBusy h | .enable h | .disable h
  | .rtsctsEnable h | .rtsctsDisable h | .puts h _ => some h
  | .available _ | .portRdCtrl _ | .portRdData _ | .portWrCtrl _ _ | .portWrData _ _ => none

/-- The instruction is a command (an `F-CMD` row), not a port transaction. -/
def isCommand : Instr → Bool
  | .portRdCtrl _ | .portRdData _ | .portWrCtrl _ _ | .portWrData _ _ => false
  | .available _ | .setup _ _ _ _ | .putByte _ _ | .getByte _ | .charReceived _ | .charReceivedGet _ | .txBusy _ | .enable _
  | .disable _ | .rtsctsEnable _ | .rtsctsDisable _ | .puts _ _ => true

/-- Where the sequencer can go from a state (10_state.md R22, 40_register_model.md R127). -/
def Fsm.successors : Fsm → List Fsm
  | .idle => [.avRd, .suRes, .pbPoll, .gbPoll, .crRd, .cgRd, .tbRd, .rmwRd, .psNext]
  | .avRd => [.idle]
  | .suRes => [.suWr, .suRes]
  | .suWr => [.idle]
  | .pbPoll => [.pbPoll, .pbWr]
  | .pbWr => [.idle]
  | .gbPoll => [.gbPoll, .gbRd]
  | .gbRd => [.idle]
  | .crRd => [.idle]
  | .cgRd => [.idle]
  | .tbRd => [.idle]
  | .rmwRd => [.rmwWr]
  | .rmwWr => [.idle]
  | .psNext => [.idle, .psCrPoll, .psChPoll]
  | .psCrPoll => [.psCrPoll, .psCrWr]
  | .psCrWr => [.psChPoll]
  | .psChPoll => [.psChPoll, .psChWr]
  | .psChWr => [.psNext]

/-- `k` steps of the sequencer on the command `i` with no other agent's step between them. -/
def runCommand (i : Instr) : Nat → State → Result
  | 0, s => .next s
  | k + 1, s =>
    match exec i s with
    | .next t => runCommand i k t
    | .fault f => .fault f
    | .refused r => .refused r

end Sys2Proof.Machine
end

