-- ==== Sys2Proof/Certificates/Slice0/Obligations.lean ====
section
/-! DEFINITION. The statements for the provers. Each docstring names the rule of spec/ it formalises; OBLIGATIONS.json lists them. -/

open Sys2Proof Sys2Proof.Machine

/-! ## Encodings -/

/-- 30_encoding.md R88 to R91: decoding what the encoder writes gives the instruction back and leaves the words after it. -/
def Obligations.DecodeInvertsEncode : Prop :=
  ∀ (i : Instr) (rest : List Word), i.wellFormed = true →
    match encode i with
    | .command words => decodeCommand (words ++ rest) = .ok i rest
    | .port header inst wdata => decodeHeader header inst wdata = some i

/-- 30_encoding.md R88 to R91, R95: the words (or header) an instruction was decoded from are its encoding and nothing else, and
what is decoded is well formed: no two encodings of one instruction, no bit ignored (but a read's write word). For PUTS this rests on
the terminator word being narrow too, which is R89 as the model reads it (log 10, DEDUCED). -/
def Obligations.DecodedWordsAreTheEncoding : Prop :=
  (∀ (ws : List Word) (i : Instr) (rest : List Word), decodeCommand ws = .ok i rest →
    i.wellFormed = true ∧ ∃ words, encode i = .command words ∧ ws = words ++ rest) ∧
  (∀ (header : BitVec 4) (inst : Inst) (wdata : Word) (i : Instr), decodeHeader header inst wdata = some i →
    i.wellFormed = true ∧
    ∃ wdata', encode i = .port header inst wdata' ∧ (header.getLsbD 3 = true → wdata' = wdata))

/-- 30_encoding.md R95: what makes words malformed: an opcode of `0xC..0xF`, a reserved bit of word 0, a stray `b`, or a wide word in
a `puts` string (that the terminator word must be narrow too is R89's, read so by log 10; that a wide word is malformed before the
terminator has come is the model's choice, log 24). -/
def Obligations.MalformedExactlyAsListed : Prop :=
  ∀ (w0 : Word) (rest : List Word),
    (∃ e, decodeCommand (w0 :: rest) = .malformed e) ↔
      (0xC#4 ≤ fieldOp w0 ∨ w0.extractLsb' 4 4 ≠ 0#4 ∨ w0.extractLsb' 16 16 ≠ 0#16 ∨
        (w0.extractLsb' 8 8 ≠ 0#8 ∧ fieldOp w0 ≠ opPutByte)) ∨
      (fieldOp w0 = opPuts ∧ ∃ h pre c post, rest = h :: (pre ++ c :: post) ∧
        (∀ x ∈ pre, x.extractLsb' 8 24 = 0#24 ∧ x.extractLsb' 0 8 ≠ 0#8) ∧ c.extractLsb' 8 24 ≠ 0#24)

/-- Words written out from 30_encoding.md R89, R90 and the header patterns of R88 (95_test_vectors.md 2.5). -/
def Obligations.SpecWordsDecode : Prop :=
  decodeCommand [0x00000000#32, 0xFFF50000#32] = .ok (.available 0xFFF50000#32) [] ∧
  decodeCommand [0x00000001#32, 0xFFF60000#32, 0x05F5E100#32, 0x0001C200#32, 0x00000000#32] =
    .ok (.setup 0xFFF60000#32 100000000#32 115200#32 0#32) [] ∧
  decodeCommand [0x00004102#32, 0xFFF50000#32] = .ok (.putByte 0xFFF50000#32 0x41#8) [] ∧
  decodeCommand [0x00000007#32, 0xFFF50000#32] = .ok (.enable 0xFFF50000#32) [] ∧
  decodeCommand [0x0000000B#32, 0xFFF50000#32, 0x48#32, 0x69#32, 0x0A#32, 0x00#32] =
    .ok (.puts 0xFFF50000#32 [0x48#8, 0x69#8, 0x0A#8]) [] ∧
  decodeHeader 0b1100#4 .i1 0x41#32 = some (.portWrData .i1 0x41#32)

/-- 40_register_model.md R125, 20_memory.md R53: the register file takes an access for a port transaction iff it is a word access at the
address of one of the four register words, and it is then the one its header names (30_encoding.md R88); any other is refuse(M12). -/
def Obligations.OnlyTheFourWordsAreAccessible : Prop :=
  ∀ (s : State) (a : PortAccess), s.cfg.wf →
    ((a.size = .word ∧ ∃ i, a.addr = portAddress s.cfg i offCtrl ∨ a.addr = portAddress s.cfg i offData) ∨
      registerFile a s = .refused .badAccess) ∧
    (∀ i, a.size = .word → a.addr = portAddress s.cfg i offCtrl →
      registerFile a s = exec (if a.we then .portWrCtrl i a.wdata else .portRdCtrl i) s) ∧
    (∀ i, a.size = .word → a.addr = portAddress s.cfg i offData →
      registerFile a s = exec (if a.we then .portWrData i a.wdata else .portRdData i) s)

/-! ## The register model -/

/-- 30_encoding.md R83 (derived by the spec from R82): the masks of the default layout; the three of the control word are disjoint and
cover it; bit `k` of the interrupt field is word bit `22 + k`. -/
def Obligations.MasksOfTheDefaultLayout : Prop :=
  maskStored Layout.l0 = 0x07C0FFDF#32 ∧ maskStatus Layout.l0 = 0x80210000#32 ∧ maskIrq Layout.l0 = 0x07C00000#32 ∧
  ~~~(maskStored Layout.l0 ||| maskStatus Layout.l0) = 0x781E0020#32 ∧
  maskStored Layout.l0 &&& maskStatus Layout.l0 = 0#32 ∧
  ∀ (w : Word) (k : Nat), k < 5 → (unpack Layout.l0 w).irq.getLsbD k = w.getLsbD (22 + k)

/-- 40_register_model.md R112 (derived by the spec from R110 and R111), the laws of the pair, for every layout whose fields do not
overlap. -/
def Obligations.UnpackAndPackAreInverse : Prop :=
  ∀ (l : Layout), l.wf →
    (∀ f : Stored, (unpack l (pack l f)).stored = f ∧ (unpack l (pack l f)).rxNempty = 0#1 ∧
      (unpack l (pack l f)).txFull = 0#1 ∧ (unpack l (pack l f)).txBusy = 0#1) ∧
    (∀ w : Word, pack l (unpack l w).stored = w &&& maskStored l)

/-- 40_register_model.md R121: a CTRL read returns the six stored fields and the three status bits of that instant, reserved bits 0, and
changes nothing (the bus cycle is the model's own observation, log 7). -/
def Obligations.CtrlReadReturnsFieldsAndStatus : Prop :=
  ∀ (s : State) (i : Inst), s.cfg.layout.wf →
    ∃ v, exec (.portRdCtrl i) s = .next { s with bus := some (.regRead i offCtrl v) } ∧
      (unpack s.cfg.layout v).stored = (s.periph i).ctrl ∧
      ((unpack s.cfg.layout v).rxNempty = 1#1 ↔ (s.periph i).rxq ≠ []) ∧
      ((unpack s.cfg.layout v).txFull = 1#1 ↔ (s.periph i).txq.length = txCap s.cfg i) ∧
      ((unpack s.cfg.layout v).txBusy = 1#1 ↔ (s.periph i).txq ≠ [] ∨ (s.periph i).txsh ≠ none) ∧
      v &&& ~~~(maskStored s.cfg.layout ||| maskStatus s.cfg.layout) = 0#32

/-- 40_register_model.md R122, 44_peripheral_backend.md R222: a CTRL write replaces the six stored fields by the word's, ignores its
status and reserved bits, and with `EN = 0` written and `EN0_FLUSH` empties the queues and the shifter; writing back the word just
read changes nothing (in a state that meets the invariant, where a disabled instance holds nothing to flush). -/
def Obligations.CtrlWriteReplacesStoredFields : Prop :=
  ∀ (s : State) (i : Inst) (v : Word),
    exec (.portWrCtrl i v) s = .next
      ({ s with bus := some (.regWrite i offCtrl v) }.setPeriph i
        (if takeField 1 s.cfg.layout.en v = 0#1 ∧ s.cfg.en0Flush = true
          then { s.periph i with ctrl := (unpack s.cfg.layout v).stored, txq := [], rxq := [], txsh := none }
          else { s.periph i with ctrl := (unpack s.cfg.layout v).stored })) ∧
    (s.cfg.layout.wf → ∀ junk : Word,
      (unpack s.cfg.layout ((v &&& maskStored s.cfg.layout) ||| (junk &&& ~~~maskStored s.cfg.layout))).stored =
        (unpack s.cfg.layout v).stored) ∧
    (s.cfg.layout.wf → (s.periph i).emptyWhenOff s.cfg → ∀ w, w = ctrlWord s.cfg i (s.periph i) →
      exec (.portWrCtrl i w) s = .next { s with bus := some (.regWrite i offCtrl w) })

/-- 40_register_model.md R123: a DATA write queues the low byte if the peripheral is enabled and has room, else drops it; with `SIM = 1`
it is refuse(M10). A byte queued makes `TX_BUSY` 1, and `TX_FULL` 1 exactly when the queue is then at capacity. -/
def Obligations.DataWriteQueuesLowByte : Prop :=
  ∀ (s : State) (i : Inst) (v : Word),
    ((s.periph i).ctrl.sim = 1#1 → exec (.portWrData i v) s = .refused .simRedirect) ∧
    ((s.periph i).ctrl.sim = 0#1 →
      exec (.portWrData i v) s = .next
        ({ s with bus := some (.regWrite i offData v) }.setPeriph i
          (if (s.periph i).ctrl.en = 1#1 ∧ (s.periph i).txq.length < txCap s.cfg i
            then { s.periph i with txq := (s.periph i).txq ++ [v.extractLsb' 0 8] } else s.periph i)) ∧
      ∀ q, q = { s.periph i with txq := (s.periph i).txq ++ [v.extractLsb' 0 8] } →
        txBusy q = 1#1 ∧ (txFull s.cfg i q = 1#1 ↔ (s.periph i).txq.length + 1 = txCap s.cfg i))

/-- 40_register_model.md R124: a DATA read returns the oldest received byte and removes it, or a free byte and removes nothing (M6, and
while `EN = 0`); beside the byte the word holds the two depth nibbles in both cases, and nothing else. -/
def Obligations.DataReadPopsOldestByte : Prop :=
  ∀ (s : State) (i : Inst) (word : Byte → Word),
    (∀ x, word x = x.setWidth 32 ||| (s.cfg.inst i).rxdLog2.setWidth 32 <<< s.cfg.layout.rxFifo |||
      (s.cfg.inst i).txdLog2.setWidth 32 <<< s.cfg.layout.txFifo) →
    (∀ h t, (s.periph i).ctrl.en = 1#1 → (s.periph i).rxq = h :: t →
      exec (.portRdData i) s = .next
        ({ s with bus := some (.regRead i offData (word h)) }.setPeriph i { s.periph i with rxq := t })) ∧
    ((s.periph i).ctrl.en = 0#1 ∨ (s.periph i).rxq = [] →
      ∃ x, exec (.portRdData i) s = .next { s with draws := s.draws + 1, bus := some (.regRead i offData (word x)) })

/-- 44_peripheral_backend.md R216 (derived by the spec from R228): the three status bits as functions of the queues and the shifter; full
implies busy; with capacity 1 a single queued byte makes both 1; with `EN0_FLUSH` a disabled instance that meets the invariant shows
three zeros. -/
def Obligations.StatusBitsAreFunctionsOfTheQueues : Prop :=
  ∀ (c : Config) (i : Inst) (p : Periph),
    (txFull c i p = 1#1 ↔ p.txq.length = txCap c i) ∧ (txBusy p = 1#1 ↔ p.txq ≠ [] ∨ p.txsh ≠ none) ∧
    (rxNempty p = 1#1 ↔ p.rxq ≠ []) ∧
    (txFull c i p = 1#1 → txBusy p = 1#1) ∧
    (∀ b, (c.inst i).txdLog2 = 0#4 → p.txq = [b] → txFull c i p = 1#1 ∧ txBusy p = 1#1) ∧
    (p.emptyWhenOff c → p.ctrl.en = 0#1 → c.en0Flush = true →
      txFull c i p = 0#1 ∧ txBusy p = 0#1 ∧ rxNempty p = 0#1)

/-! ## The accept step and AVAILABLE -/

/-- 10_state.md R23, for the eleven commands that resolve their handle: the latches written, `SEL` by `BASE0` first, the entry state;
well-formedness is tested before the handle, and an unknown handle is refuse(M1). -/
def Obligations.AcceptLatchesOperands : Prop :=
  ∀ (s : State) (h : Word), s.fsm = .idle →
    (∀ i, (h = s.cfg.c0.base ∧ i = .i0) ∨ (h ≠ s.cfg.c0.base ∧ h = s.cfg.c1.base ∧ i = .i1) →
      (∀ a0 a1 a2, exec (.setup h a0 a1 a2) s = .next
        { s with op := 0x1#4, hnd := h, sel := i, clk := a0, bd := a1, irqm := a2, fsm := .suRes }) ∧
      (∀ b, exec (.putByte h b) s = .next { s with op := 0x2#4, hnd := h, sel := i, b := b, fsm := .pbPoll }) ∧
      exec (.getByte h) s = .next { s with op := 0x3#4, hnd := h, sel := i, fsm := .gbPoll } ∧
      exec (.charReceived h) s = .next { s with op := 0x4#4, hnd := h, sel := i, fsm := .crRd } ∧
      exec (.charReceivedGet h) s = .next { s with op := 0x5#4, hnd := h, sel := i, fsm := .cgRd } ∧
      exec (.txBusy h) s = .next { s with op := 0x6#4, hnd := h, sel := i, fsm := .tbRd } ∧
      exec (.enable h) s = .next { s with op := 0x7#4, hnd := h, sel := i, fsm := .rmwRd } ∧
      exec (.disable h) s = .next { s with op := 0x8#4, hnd := h, sel := i, fsm := .rmwRd } ∧
      exec (.rtsctsEnable h) s = .next { s with op := 0x9#4, hnd := h, sel := i, fsm := .rmwRd } ∧
      exec (.rtsctsDisable h) s = .next { s with op := 0xA#4, hnd := h, sel := i, fsm := .rmwRd } ∧
      (∀ str, (∀ c ∈ str, c ≠ 0#8) →
        exec (.puts h str) s = .next { s with op := 0xB#4, hnd := h, sel := i, str := str, fsm := .psNext })) ∧
    (h ≠ s.cfg.c0.base → h ≠ s.cfg.c1.base → ∀ i, i.wellFormed = true →
      (∃ a0 a1 a2, i = .setup h a0 a1 a2) ∨ (∃ b, i = .putByte h b) ∨ (∃ str, i = .puts h str) ∨
        i = .getByte h ∨ i = .charReceived h ∨ i = .charReceivedGet h ∨ i = .txBusy h ∨ i = .enable h ∨ i = .disable h ∨
        i = .rtsctsEnable h ∨ i = .rtsctsDisable h →
      exec i s = .refused .unknownHandle) ∧
    (∀ str, (∃ c ∈ str, c = 0#8) → ∃ e, exec (.puts h str) s = .refused (.notWellFormed e))

/-- 40_register_model.md R120: `available` takes any handle, leaves `SEL`, and then reports the capability bit of the instance whose base
the handle is; any other handle gives 0 with no `CapRead()`. No register-port transaction, no peripheral changes. Two words, `op = 0x0`. -/
def Obligations.AvailableReportsPresence : Prop :=
  (∀ h : Word, encode (.available h) = .command [0x00000000#32, h]) ∧
  (∀ (s : State) (h : Word), s.fsm = .idle →
    exec (.available h) s = .next { s with op := 0x0#4, hnd := h, fsm := .avRd }) ∧
  (∀ (s : State) (h : Word), s.fsm = .avRd → s.op = 0x0#4 →
    (s.hnd = s.cfg.c0.base → exec (.available h) s = .next
      { s with bus := some (.capRead s.cfg.cap), fsm := .idle,
               r0 := if s.cfg.cap.getLsbD s.cfg.c0.capBit.toNat then 1#32 else 0#32 }) ∧
    (s.hnd ≠ s.cfg.c0.base → s.hnd = s.cfg.c1.base → exec (.available h) s = .next
      { s with bus := some (.capRead s.cfg.cap), fsm := .idle,
               r0 := if s.cfg.cap.getLsbD s.cfg.c1.capBit.toNat then 1#32 else 0#32 }) ∧
    (s.hnd ≠ s.cfg.c0.base → s.hnd ≠ s.cfg.c1.base → exec (.available h) s = .next
      { s with r0 := 0#32, fsm := .idle }))

/-! ## The resolver and SETUP -/

/-- 41_divisor_resolver.md R145 by its closed form R146 (derived by the spec from it): iteration `t` shifts by 3 at `t = 2` and `t = 4` and by
1 elsewhere; the loop ends at the least tap whose total shift brings `raw0` below `0x3FF`, with `raw0` shifted by it; the tap is at
least `t` exactly from `0x3FF` shifted up by the total of the `t − 1` shifts before. -/
def Obligations.TapLoopClosedForm : Prop :=
  (totalShift 0 = 0 ∧ ∀ t, totalShift (t + 1) = totalShift t + (if t = 2 ∨ t = 4 then 3 else 1)) ∧
  ∀ raw0 : Word,
    (selectTap raw0).2.toNat = raw0.toNat >>> totalShift (selectTap raw0).1.toNat ∧
    (selectTap raw0).2.toNat < 0x3FF ∧
    (∀ t, t < (selectTap raw0).1.toNat → 0x3FF ≤ raw0.toNat >>> totalShift t) ∧
    (∀ t, 1 ≤ t → (t ≤ (selectTap raw0).1.toNat ↔ 0x3FF * 2 ^ totalShift (t - 1) ≤ raw0.toNat))

/-- 41_divisor_resolver.md R142, R143 (and R144, derived by the spec from them): with `DEN ≠ 0` both strategies give as `raw0` the floor of
`clock / DEN`; the subtraction leaves `clock mod DEN` in `CLK`; with `DEN = 0` the subtraction never ends, which division does not do. -/
def Obligations.StrategiesAgree : Prop :=
  (∀ (c : Config) (clk den : Word), den ≠ 0#32 →
    ∃ raw0, raw0.toNat = clk.toNat / den.toNat ∧
      quotient { c with divStrategy := .divide } clk den = .value clk raw0 ∧
      quotient { c with divStrategy := .subtract } clk den = .value (BitVec.ofNat 32 (clk.toNat % den.toNat)) raw0) ∧
  ∀ (c : Config) (clk : Word), quotient { c with divStrategy := .subtract } clk 0#32 = .neverEnds ∧
    quotient { c with divStrategy := .divide } clk 0#32 ≠ .neverEnds

/-- 41_divisor_resolver.md R151, R152 (derived by the spec): for `DEN ≠ 0` the quotient is at most `0x7FFF_FFFF` and the resolver ends with
`RAW < 0x3FF` and `TAP ≤ 18`; with `raw0 ≥ 1` also `RAW ≥ 1` (127 once a shift was made), and the stored divisor is
`RAW − 1 ≤ 0x3FD` with no wrap. -/
def Obligations.ResolverRange : Prop :=
  ∀ (c : Config) (clk baud : Word), denominator baud ≠ 0#32 →
    clk.toNat / (denominator baud).toNat ≤ 0x7FFFFFFF ∧
    ∃ clk' tap raw, resolve c clk baud = .value (denominator baud) clk' tap raw ∧
      raw.toNat < 0x3FF ∧ tap.toNat ≤ 18 ∧ (prescalerField tap).toNat = tap.toNat % 4 ∧ (prescalerField tap).toNat ≤ 3 ∧
      (1 ≤ tap.toNat → 127 ≤ raw.toNat) ∧
      (1 ≤ clk.toNat / (denominator baud).toNat →
        1 ≤ raw.toNat ∧ (baudField raw).toNat = raw.toNat - 1 ∧ (baudField raw).toNat ≤ 0x3FD)

/-- 41_divisor_resolver.md R150 (derived by the spec), for `1 <= baud < 2^31`: the quotient's and the shift's bounds, and together
`mult(TAP) * RAW <= clock / baud < mult(TAP) * (RAW + 1)`, multiplied out. -/
def Obligations.ResolverApproximatesTheRate : Prop :=
  ∀ (c : Config) (clk baud : Word), 1 ≤ baud.toNat → baud.toNat < 2 ^ 31 →
    ∃ clk' tap raw raw0, resolve c clk baud = .value (2#32 * baud) clk' tap raw ∧
      raw0 * (2 * baud.toNat) ≤ clk.toNat ∧ clk.toNat < (raw0 + 1) * (2 * baud.toNat) ∧
      raw.toNat * 2 ^ totalShift tap.toNat ≤ raw0 ∧ raw0 ≤ (raw.toNat + 1) * 2 ^ totalShift tap.toNat - 1 ∧
      multiplier tap.toNat * raw.toNat * baud.toNat ≤ clk.toNat ∧
      clk.toNat < multiplier tap.toNat * (raw.toNat + 1) * baud.toNat

/-- 41_divisor_resolver.md R148, R149, 30_encoding.md R92: the two fields stored from a result: the tap modulo 4, and the divisor minus one
modulo 1024, which fits for every divisor the loop gives but 0. The tap is cut exactly from `raw0 = 32736` up, and exactly then the
stored selector names a smaller multiplier; the bit period of the stored pair is off by `mult(TAP mod 4) / mult(TAP)`. Last, R148's
example: 100000000 Hz and 300 Bd give (5, 325), a factor 1024, of which the stored selector 1 divides by 4. -/
def Obligations.StoredFieldsOfTheResolver : Prop :=
  (∀ (c : Config) (raw0 irqm : Word),
    let f := setupFields c (selectTap raw0).1 (selectTap raw0).2 irqm
    f.prsc.toNat = (selectTap raw0).1.toNat % 4 ∧
    f.baud.toNat = ((selectTap raw0).2.toNat + (2 ^ 32 - 1)) % 2 ^ 32 % 1024 ∧
    (raw0 ≠ 0#32 → f.baud.toNat + 1 = (selectTap raw0).2.toNat ∧ f.baud.toNat ≤ 0x3FD) ∧
    (f.prsc.toNat ≠ (selectTap raw0).1.toNat ↔ 32736 ≤ raw0.toNat) ∧
    (multiplier f.prsc.toNat < multiplier (selectTap raw0).1.toNat ↔ 32736 ≤ raw0.toNat) ∧
    (raw0 ≠ 0#32 → bitPeriod f * multiplier (selectTap raw0).1.toNat =
      multiplier (selectTap raw0).1.toNat * (selectTap raw0).2.toNat * multiplier ((selectTap raw0).1.toNat % 4))) ∧
  ∀ c : Config, ∃ clk', resolve c 100000000#32 300#32 = .value 600#32 clk' 5#32 325#32 ∧
    prescalerField 5#32 = 1#2 ∧ multiplier 5 = 1024 ∧ multiplier 1 = 4

/-- 70_reset_and_hazards.md R278, 41_divisor_resolver.md R148: for usable inputs the tap is not truncated, so the stored pair stands for
the rate: one bit lasts `mult(PRSC) * (BAUD + 1)` clocks, at most `clock / baud` and short of it by less than `mult(PRSC)`. -/
def Obligations.UsableSetupKeepsTheRate : Prop :=
  ∀ (c : Config) (clk baud : Word), UsableSetup clk baud →
    ∃ clk' tap raw, resolve c clk baud = .value (2#32 * baud) clk' tap raw ∧ tap.toNat ≤ 3 ∧
      ∀ irqm, bitPeriod (setupFields c tap raw irqm) = multiplier tap.toNat * raw.toNat ∧
        bitPeriod (setupFields c tap raw irqm) * baud.toNat ≤ clk.toNat ∧
        clk.toNat < (bitPeriod (setupFields c tap raw irqm) + multiplier tap.toNat) * baud.toNat

/-- 41_divisor_resolver.md R156 (derived by the spec): the golden value, by either strategy; 1000 cycles a bit, exactly the rate. -/
def Obligations.GoldenValue : Prop :=
  ∀ c : Config, ∃ clk', resolve c 19200000#32 19200#32 = .value 38400#32 clk' 0#32 500#32 ∧
    19200000 / 38400 = 500 ∧ prescalerField 0#32 = 0#2 ∧ baudField 500#32 = 499#10 ∧
    bitPeriod (setupFields c 0#32 500#32 0#32) = 1000 ∧ 19200000 = 19200 * 1000

/-- 41_divisor_resolver.md R153 (M3; the wrapping reading, log 15): `clock < DEN` gives `TAP = 0`, `RAW = 0`, and the wrapped `BAUD = 0x3FF`,
which touches no other field of the word. -/
def Obligations.TooSlowClockWraps : Prop :=
  ∀ (c : Config) (clk baud irqm : Word), clk < denominator baud →
    resolve c clk baud = .value (denominator baud) clk 0#32 0#32 ∧ prescalerField 0#32 = 0#2 ∧ baudField 0#32 = 0x3FF#10 ∧
    ∀ raw, setupFields c 0#32 0#32 irqm = { setupFields c 0#32 raw irqm with baud := 0x3FF#10 }

/-- 41_divisor_resolver.md R155 (derived by the spec from R141; M4): `DEN` forgets the top bit of `baud`, so a baud rate above `2^31` gives the result of the rate
`2^31` smaller. -/
def Obligations.TooLargeBaudWraps : Prop :=
  ∀ (c : Config) (clk baud : Word), 2 ^ 31 ≤ baud.toNat →
    (denominator baud).toNat = 2 * (baud.toNat - 2 ^ 31) ∧
    resolve c clk baud = resolve c clk (BitVec.ofNat 32 (baud.toNat - 2 ^ 31))

/-- 41_divisor_resolver.md R154 (M2): `DEN = 0` only for `baud = 0` and `baud = 2^31`; under `SUBTRACT` the sequencer stays in `SU_RES`
for ever with the peripherals untouched; under `DIVIDE` it is refuse(M2), or goes on with `DIV0_RESULT` as the quotient (log 17), which
as `0xFFFF_FFFF` gives `(19, 0x1FF)`. -/
def Obligations.ZeroDenominatorHangsOrIsRefused : Prop :=
  (∀ baud : Word, denominator baud = 0#32 ↔ baud = 0#32 ∨ baud = 0x80000000#32) ∧
  selectTap 0xFFFFFFFF#32 = (19#32, 0x1FF#32) ∧
  ∀ (s : State) (h a0 a1 a2 : Word), s.fsm = .suRes → s.op = 0x1#4 → denominator s.bd = 0#32 →
    (s.cfg.divStrategy = .subtract → ∀ k, ∃ t, runCommand (.setup h a0 a1 a2) k s = .next t ∧ t.fsm = .suRes ∧ t.op = s.op ∧
      t.bd = s.bd ∧ t.cfg = s.cfg ∧ t.p0 = s.p0 ∧ t.p1 = s.p1 ∧ t.bus = s.bus) ∧
    (s.cfg.divStrategy = .divide → s.cfg.div0Result = none → exec (.setup h a0 a1 a2) s = .refused .divideByZero) ∧
    (∀ q, s.cfg.divStrategy = .divide → s.cfg.div0Result = some q → exec (.setup h a0 a1 a2) s = .next
      { s with den := 0#32, tap := (selectTap q).1, raw := (selectTap q).2, fsm := .suWr })

/-- 43_setup.md R200, R201, R203: with `DEN ≠ 0`, `SU_RES` leaves the resolver's result in the latches, and `SU_WR` makes the one
transaction, which sets all six stored fields, flushes only when `SETUP_EN = 0` and `EN0_FLUSH`, and ends the command. -/
def Obligations.SetupResolvesThenWritesOnce : Prop :=
  (∀ (s : State) (h a0 a1 a2 : Word), s.fsm = .suRes → s.op = 0x1#4 → denominator s.bd ≠ 0#32 →
    ∃ clk' tap raw, resolve s.cfg s.clk s.bd = .value (denominator s.bd) clk' tap raw ∧
      exec (.setup h a0 a1 a2) s = .next
        { s with den := denominator s.bd, clk := clk', tap := tap, raw := raw, fsm := .suWr }) ∧
  (∀ (s : State) (h a0 a1 a2 : Word), s.fsm = .suWr → s.op = 0x1#4 → s.cfg.layout.wf →
    ∃ p, exec (.setup h a0 a1 a2) s = .next
        ({ s with bus := some (.regWrite s.sel offCtrl (setupWord s.cfg s.tap s.raw s.irqm)), fsm := .idle }.setPeriph s.sel p) ∧
      (unpack s.cfg.layout (setupWord s.cfg s.tap s.raw s.irqm)).stored = p.ctrl ∧
      setupWord s.cfg s.tap s.raw s.irqm &&& ~~~maskStored s.cfg.layout = 0#32 ∧
      p.ctrl = { en := s.cfg.setupEn, sim := s.cfg.setupSim, hwfc := 0#1, prsc := s.tap.setWidth 2,
                 baud := (s.raw - 1#32).setWidth 10, irq := s.irqm.extractLsb' s.cfg.layout.irq 5 } ∧
      p.wireTx = (s.periph s.sel).wireTx ∧ p.cts = (s.periph s.sel).cts ∧
      (if s.cfg.setupEn = 0#1 ∧ s.cfg.en0Flush = true then p.txq = [] ∧ p.rxq = [] ∧ p.txsh = none
        else p.txq = (s.periph s.sel).txq ∧ p.rxq = (s.periph s.sel).rxq ∧ p.txsh = (s.periph s.sel).txsh))

/-! ## Transmit -/

/-- 42_blocking_io.md R171: the poll reads CTRL and stays exactly while the queue is full; the write hands `B` to DATA and ends the
command; `R0` is not written. -/
def Obligations.PutBytePollsThenWrites : Prop :=
  ∀ (s : State) (h : Word) (b : Byte), s.op = 0x2#4 → s.cfg.layout.wf →
    (s.fsm = .pbPoll → ∀ v, v = ctrlWord s.cfg s.sel (s.periph s.sel) →
      exec (.putByte h b) s = .next
        { s with w := v, bus := some (.regRead s.sel offCtrl v),
                 fsm := if (s.periph s.sel).txq.length = txCap s.cfg s.sel then .pbPoll else .pbWr }) ∧
    (s.fsm = .pbWr → (s.periph s.sel).ctrl.sim = 0#1 →
      exec (.putByte h b) s = .next
        ({ s with bus := some (.regWrite s.sel offData (s.b.setWidth 32)), fsm := .idle }.setPeriph s.sel
          (if (s.periph s.sel).ctrl.en = 1#1 ∧ (s.periph s.sel).txq.length < txCap s.cfg s.sel
            then { s.periph s.sel with txq := (s.periph s.sel).txq ++ [s.b] } else s.periph s.sel))) ∧
    (s.fsm = .pbWr → (s.periph s.sel).ctrl.sim = 1#1 → exec (.putByte h b) s = .refused .simRedirect)

/-- 42_blocking_io.md R175: `tx_busy` reads CTRL once and answers 1 iff the queue or the shifter holds a byte; nothing else changes. -/
def Obligations.TxBusyReportsUnsentData : Prop :=
  ∀ (s : State) (h v : Word), s.fsm = .tbRd → s.op = 0x6#4 → s.cfg.layout.wf →
    v = ctrlWord s.cfg s.sel (s.periph s.sel) →
    exec (.txBusy h) s = .next
      { s with w := v, bus := some (.regRead s.sel offCtrl v), fsm := .idle,
               r0 := if (s.periph s.sel).txq ≠ [] ∨ (s.periph s.sel).txsh ≠ none then 1#32 else 0#32 }

/-- 42_blocking_io.md R180: the five states of `puts`. -/
def Obligations.PutsWalk : Prop :=
  ∀ (s : State) (h : Word) (str : List Byte), s.op = 0xB#4 → s.cfg.layout.wf →
    (s.fsm = .psNext → s.str = [] → exec (.puts h str) s = .next { s with fsm := .idle }) ∧
    (∀ c r, s.fsm = .psNext → s.str = c :: r →
      exec (.puts h str) s = .next
        { s with b := c, str := r, fsm := if c = 0x0A#8 then .psCrPoll else .psChPoll }) ∧
    (s.fsm = .psCrPoll → ∀ v, v = ctrlWord s.cfg s.sel (s.periph s.sel) →
      exec (.puts h str) s = .next
        { s with w := v, bus := some (.regRead s.sel offCtrl v),
                 fsm := if (s.periph s.sel).txq.length = txCap s.cfg s.sel then .psCrPoll else .psCrWr }) ∧
    (s.fsm = .psChPoll → ∀ v, v = ctrlWord s.cfg s.sel (s.periph s.sel) →
      exec (.puts h str) s = .next
        { s with w := v, bus := some (.regRead s.sel offCtrl v),
                 fsm := if (s.periph s.sel).txq.length = txCap s.cfg s.sel then .psChPoll else .psChWr }) ∧
    (s.fsm = .psCrWr → (s.periph s.sel).ctrl.sim = 0#1 →
      exec (.puts h str) s = .next
        ({ s with bus := some (.regWrite s.sel offData 0x0000000D#32), fsm := .psChPoll }.setPeriph s.sel
          (if (s.periph s.sel).ctrl.en = 1#1 ∧ (s.periph s.sel).txq.length < txCap s.cfg s.sel
            then { s.periph s.sel with txq := (s.periph s.sel).txq ++ [0x0D#8] } else s.periph s.sel))) ∧
    (s.fsm = .psChWr → (s.periph s.sel).ctrl.sim = 0#1 →
      exec (.puts h str) s = .next
        ({ s with bus := some (.regWrite s.sel offData (s.b.setWidth 32)), fsm := .psNext }.setPeriph s.sel
          (if (s.periph s.sel).ctrl.en = 1#1 ∧ (s.periph s.sel).txq.length < txCap s.cfg s.sel
            then { s.periph s.sel with txq := (s.periph s.sel).txq ++ [s.b] } else s.periph s.sel))) ∧
    (s.fsm = .psCrWr ∨ s.fsm = .psChWr → (s.periph s.sel).ctrl.sim = 1#1 →
      exec (.puts h str) s = .refused .simRedirect)

/-- 42_blocking_io.md R180: with room for all of it, the whole of `puts` queues exactly `T(s)` behind what was queued, in
`2 + 3·|s| + 2·(number of LF)` sequencer steps from IDLE to IDLE; the other instance, the rest of this one and `R0` are as before. -/
def Obligations.PutsQueuesTheTranslatedString : Prop :=
  ∀ (s : State) (h : Word) (str : List Byte) (i : Inst), s.fsm = .idle → s.cfg.layout.wf →
    resolveHandle s.cfg h = some i → (∀ c ∈ str, c ≠ 0#8) →
    (s.periph i).ctrl.en = 1#1 → (s.periph i).ctrl.sim = 0#1 →
    (s.periph i).txq.length + (translateNewlines str).length ≤ txCap s.cfg i →
    ∃ t, runCommand (.puts h str) (2 + 3 * str.length + 2 * str.count 0x0A#8) s = .next t ∧
      t.fsm = .idle ∧ t.str = [] ∧ t.r0 = s.r0 ∧
      t.periph i = { s.periph i with txq := (s.periph i).txq ++ translateNewlines str } ∧
      t.periph i.other = s.periph i.other

/-- 42_blocking_io.md R180 (b), (c), (d): `T` is compositional, sends CR LF for every LF and nothing else changed, and adds one byte for
each LF. -/
def Obligations.TranslationLaws : Prop :=
  (∀ a b : List Byte, translateNewlines (a ++ b) = translateNewlines a ++ translateNewlines b) ∧
  (∀ s : List Byte, (translateNewlines s).length = s.length + s.count 0x0A#8) ∧
  (∀ s : List Byte, 0x0A#8 ∉ s → translateNewlines s = s) ∧
  (∀ a b : List Byte, translateNewlines (a ++ 0x0A#8 :: b) = translateNewlines a ++ 0x0D#8 :: 0x0A#8 :: translateNewlines b)

/-! ## Receive -/

/-- 42_blocking_io.md R172: the poll reads CTRL and stays exactly while the queue is empty; the read takes the oldest byte into `B` and
`R0` and ends the command; should it meet no data (only with `EN = 0`, or in a state no run reaches), the byte is some byte and the
command still ends (40_register_model.md R124). -/
def Obligations.GetBytePollsThenReads : Prop :=
  ∀ (s : State) (h : Word), s.op = 0x3#4 → s.cfg.layout.wf →
    (s.fsm = .gbPoll → ∀ v, v = ctrlWord s.cfg s.sel (s.periph s.sel) →
      exec (.getByte h) s = .next
        { s with w := v, bus := some (.regRead s.sel offCtrl v),
                 fsm := if (s.periph s.sel).rxq = [] then .gbPoll else .gbRd }) ∧
    (∀ x t, s.fsm = .gbRd → (s.periph s.sel).ctrl.en = 1#1 → (s.periph s.sel).rxq = x :: t →
      exec (.getByte h) s = .next
        ({ s with bus := some (.regRead s.sel offData (dataWord s.cfg s.sel x)),
                  b := x, r0 := x.setWidth 32, fsm := .idle }.setPeriph s.sel { s.periph s.sel with rxq := t })) ∧
    (s.fsm = .gbRd → (s.periph s.sel).ctrl.en = 0#1 ∨ (s.periph s.sel).rxq = [] →
      ∃ x, exec (.getByte h) s = .next
        { s with draws := s.draws + 1, bus := some (.regRead s.sel offData (dataWord s.cfg s.sel x)),
                 b := x, r0 := x.setWidth 32, fsm := .idle })

/-- 42_blocking_io.md R173: `char_received` reads CTRL once and answers 1 iff a byte is waiting; nothing is removed. -/
def Obligations.CharReceivedReportsData : Prop :=
  ∀ (s : State) (h v : Word), s.fsm = .crRd → s.op = 0x4#4 → s.cfg.layout.wf →
    v = ctrlWord s.cfg s.sel (s.periph s.sel) →
    exec (.charReceived h) s = .next
      { s with w := v, bus := some (.regRead s.sel offCtrl v), fsm := .idle,
               r0 := if (s.periph s.sel).rxq = [] then 0#32 else 1#32 }

/-- 42_blocking_io.md R174: `char_received_get` (two words, `op = 0x5`) reads DATA once: the oldest byte, removed; with no data (M6, or
`EN = 0`) some byte, zero-extended, nothing removed, and the command still completes. -/
def Obligations.CharReceivedGetTakesByte : Prop :=
  (∀ h : Word, encode (.charReceivedGet h) = .command [0x00000005#32, h]) ∧
  ∀ (s : State) (h : Word), s.fsm = .cgRd → s.op = 0x5#4 → s.cfg.layout.wf →
    (∀ x t, (s.periph s.sel).ctrl.en = 1#1 → (s.periph s.sel).rxq = x :: t →
      exec (.charReceivedGet h) s = .next
        ({ s with bus := some (.regRead s.sel offData (dataWord s.cfg s.sel x)),
                  b := x, r0 := x.setWidth 32, fsm := .idle }.setPeriph s.sel { s.periph s.sel with rxq := t })) ∧
    ((s.periph s.sel).ctrl.en = 0#1 ∨ (s.periph s.sel).rxq = [] →
      ∃ x, exec (.charReceivedGet h) s = .next
        { s with draws := s.draws + 1, bus := some (.regRead s.sel offData (dataWord s.cfg s.sel x)),
                 b := x, r0 := x.setWidth 32, fsm := .idle })

/-- 30_encoding.md R97 (a): with a byte waiting, `get_byte` behaves as `char_received`, which answers 1, then `char_received_get`: the
same byte in `B` and `R0`, the same peripherals, the sequencer idle. -/
def Obligations.GetByteIsItsNonblockingSplit : Prop :=
  ∀ (s : State) (h : Word) (i : Inst), s.fsm = .idle → s.cfg.layout.wf → resolveHandle s.cfg h = some i →
    (s.periph i).ctrl.en = 1#1 → (s.periph i).rxq ≠ [] →
    ∃ t u v, runCommand (.getByte h) 3 s = .next t ∧ runCommand (.charReceived h) 2 s = .next u ∧ u.r0 = 1#32 ∧
      runCommand (.charReceivedGet h) 2 u = .next v ∧ t.fsm = .idle ∧ v.fsm = .idle ∧
      v.b = t.b ∧ v.r0 = t.r0 ∧ v.p0 = t.p0 ∧ v.p1 = t.p1 ∧ (t.periph i).rxq = (s.periph i).rxq.tail ∧
      some t.b = (s.periph i).rxq.head?

/-! ## Single-bit set and clear -/

/-- 42_blocking_io.md R182, `RMW_RD`, for the four commands: one CTRL read into `W`, whose stored fields are the register's. -/
def Obligations.ToggleReadsControl : Prop :=
  ∀ (s : State) (h v : Word), s.fsm = .rmwRd → s.cfg.layout.wf → v = ctrlWord s.cfg s.sel (s.periph s.sel) →
    (unpack s.cfg.layout v).stored = (s.periph s.sel).ctrl ∧
    (s.op = 0x7#4 → exec (.enable h) s = .next { s with w := v, bus := some (.regRead s.sel offCtrl v), fsm := .rmwWr }) ∧
    (s.op = 0x8#4 → exec (.disable h) s = .next { s with w := v, bus := some (.regRead s.sel offCtrl v), fsm := .rmwWr }) ∧
    (s.op = 0x9#4 → exec (.rtsctsEnable h) s = .next { s with w := v, bus := some (.regRead s.sel offCtrl v), fsm := .rmwWr }) ∧
    (s.op = 0xA#4 → exec (.rtsctsDisable h) s = .next { s with w := v, bus := some (.regRead s.sel offCtrl v), fsm := .rmwWr })

/-- 42_blocking_io.md R176 to R179, R182, `RMW_WR`: with the register's fields in `W` (as `RMW_RD` left them and a single master keeps
them) the write, of `W` with the one bit set or cleared, changes the one named field; `disable` flushes with `EN0_FLUSH`, and so does a
flow-control toggle of a disabled instance (44_peripheral_backend.md R222: the written `EN` is 0). The four encodings, and the masks in
the default layout. -/
def Obligations.ToggleChangesOneField : Prop :=
  (∀ h : Word, encode (.enable h) = .command [0x00000007#32, h] ∧ encode (.disable h) = .command [0x00000008#32, h] ∧
    encode (.rtsctsEnable h) = .command [0x00000009#32, h] ∧ encode (.rtsctsDisable h) = .command [0x0000000A#32, h]) ∧
  (1#32 <<< Layout.l0.en = 0x00000001#32 ∧ ~~~(1#32 <<< Layout.l0.en) = 0xFFFFFFFE#32 ∧
    1#32 <<< Layout.l0.hwfc = 0x00000004#32 ∧ ~~~(1#32 <<< Layout.l0.hwfc) = 0xFFFFFFFB#32) ∧
  ∀ (s : State) (h : Word), s.fsm = .rmwWr → s.cfg.layout.wf → s.freshLatch →
    (s.op = 0x7#4 → exec (.enable h) s = .next
      ({ s with bus := some (.regWrite s.sel offCtrl (s.w ||| 1#32 <<< s.cfg.layout.en)), fsm := .idle }.setPeriph s.sel
        { s.periph s.sel with ctrl := { (s.periph s.sel).ctrl with en := 1#1 } })) ∧
    (s.op = 0x8#4 → exec (.disable h) s = .next
      ({ s with bus := some (.regWrite s.sel offCtrl (s.w &&& ~~~(1#32 <<< s.cfg.layout.en))), fsm := .idle }.setPeriph s.sel
        (if s.cfg.en0Flush = true
          then { s.periph s.sel with ctrl := { (s.periph s.sel).ctrl with en := 0#1 }, txq := [], rxq := [], txsh := none }
          else { s.periph s.sel with ctrl := { (s.periph s.sel).ctrl with en := 0#1 } }))) ∧
    (∀ bit i v, (s.op = 0x9#4 ∧ bit = 1#1 ∧ i = .rtsctsEnable h ∧ v = s.w ||| 1#32 <<< s.cfg.layout.hwfc) ∨
        (s.op = 0xA#4 ∧ bit = 0#1 ∧ i = .rtsctsDisable h ∧ v = s.w &&& ~~~(1#32 <<< s.cfg.layout.hwfc)) →
      exec i s = .next
        ({ s with bus := some (.regWrite s.sel offCtrl v), fsm := .idle }.setPeriph s.sel
          (if (s.periph s.sel).ctrl.en = 0#1 ∧ s.cfg.en0Flush = true
            then { s.periph s.sel with ctrl := { (s.periph s.sel).ctrl with hwfc := bit }, txq := [], rxq := [], txsh := none }
            else { s.periph s.sel with ctrl := { (s.periph s.sel).ctrl with hwfc := bit } })))

/-- 42_blocking_io.md R182, R176 to R179: each of the four commands, run from IDLE with no other agent between its three steps, ends in
IDLE with its one field changed and the other five as they were, the other instance untouched; run again it changes no field. -/
def Obligations.ToggleTwiceIsOnce : Prop :=
  ∀ (s : State) (h : Word) (i : Inst) (cmd : Instr) (f : Stored → Stored), s.fsm = .idle → s.cfg.layout.wf →
    resolveHandle s.cfg h = some i →
    (cmd, f) ∈ [(.enable h, fun r => { r with en := 1#1 }), (.disable h, fun r => { r with en := 0#1 }),
      (.rtsctsEnable h, fun r => { r with hwfc := 1#1 }), (.rtsctsDisable h, fun r => { r with hwfc := 0#1 })] →
    ∃ t u, runCommand cmd 3 s = .next t ∧ runCommand cmd 3 t = .next u ∧ t.fsm = .idle ∧ u.fsm = .idle ∧
      (t.periph i).ctrl = f (s.periph i).ctrl ∧ (u.periph i).ctrl = (t.periph i).ctrl ∧
      t.periph i.other = s.periph i.other ∧ t.r0 = s.r0

/-! ## Frames -/

/-- 10_state.md R21, the columns "Written in": a step of a command changes a register only in the FSM states listed for it; a port
transaction changes none. -/
def Obligations.RegistersWrittenOnlyWhereListed : Prop :=
  ∀ (i : Instr) (s t : State), exec i s = .next t →
    (t.op ≠ s.op → s.fsm = .idle) ∧ (t.hnd ≠ s.hnd → s.fsm = .idle) ∧ (t.sel ≠ s.sel → s.fsm = .idle) ∧
    (t.b ≠ s.b → s.fsm ∈ [.idle, .psNext, .gbRd, .cgRd]) ∧
    (t.w ≠ s.w → s.fsm ∈ [.pbPoll, .gbPoll, .crRd, .tbRd, .rmwRd, .psCrPoll, .psChPoll]) ∧
    (t.clk ≠ s.clk → (s.fsm = .idle ∧ t.op = 0x1#4) ∨ s.fsm = .suRes) ∧
    (t.bd ≠ s.bd → s.fsm = .idle ∧ t.op = 0x1#4) ∧
    (t.den ≠ s.den ∨ t.raw ≠ s.raw ∨ t.tap ≠ s.tap → s.fsm = .suRes) ∧
    (t.irqm ≠ s.irqm → s.fsm = .idle ∧ t.op = 0x1#4) ∧
    (t.str ≠ s.str → (s.fsm = .idle ∧ t.op = 0xB#4) ∨ s.fsm = .psNext) ∧
    (t.r0 ≠ s.r0 → s.fsm ∈ [.avRd, .gbRd, .crRd, .cgRd, .tbRd]) ∧
    (isCommand i = false → { t with p0 := s.p0, p1 := s.p1, bus := s.bus, draws := s.draws } = s)

/-- What a step of each instruction leaves of the two instances (20_memory.md R58 (c), 44_peripheral_backend.md R226, 42_blocking_io.md
R171 to R182): the instance it does not act on entirely; of the one it acts on, all but what that instruction's own transaction
changes. The parameters and the environment's inputs stay. -/
def Obligations.PeripheralFrame : Prop :=
  ∀ (i : Instr) (s t : State), exec i s = .next t →
    t.cfg = s.cfg ∧ t.offers = s.offers ∧ t.agenda = s.agenda ∧
    (∀ j, j ≠ targetOf s i → t.periph j = s.periph j) ∧
    (t.periph (targetOf s i)).wireTx = (s.periph (targetOf s i)).wireTx ∧
    (t.periph (targetOf s i)).cts = (s.periph (targetOf s i)).cts ∧
    (match i with
      | .available _ | .charReceived _ | .txBusy _ | .portRdCtrl _ => t.periph (targetOf s i) = s.periph (targetOf s i)
      | .getByte _ | .charReceivedGet _ | .portRdData _ =>
        t.periph (targetOf s i) = { s.periph (targetOf s i) with rxq := (t.periph (targetOf s i)).rxq }
      | .putByte _ _ | .puts _ _ | .portWrData _ _ =>
        t.periph (targetOf s i) = { s.periph (targetOf s i) with txq := (t.periph (targetOf s i)).txq }
      | .setup _ _ _ _ | .enable _ | .disable _ | .rtsctsEnable _ | .rtsctsDisable _ | .portWrCtrl _ _ =>
        ((t.periph (targetOf s i)).txq = (s.periph (targetOf s i)).txq ∧
          (t.periph (targetOf s i)).rxq = (s.periph (targetOf s i)).rxq ∧
          (t.periph (targetOf s i)).txsh = (s.periph (targetOf s i)).txsh) ∨
        ((t.periph (targetOf s i)).ctrl.en = 0#1 ∧ s.cfg.en0Flush = true ∧ (t.periph (targetOf s i)).txq = [] ∧
          (t.periph (targetOf s i)).rxq = [] ∧ (t.periph (targetOf s i)).txsh = none))

/-- 44_peripheral_backend.md R226, 20_memory.md R58 (c): no step of an instruction, of a transmit engine or of a receive line reads or
writes the instance it does not act on: with anything else in that instance's place the step does the same, and leaves it there. (That
an event whose agent is not enabled is a step at all is the model's choice, log 2.) -/
def Obligations.InstancesDoNotInterfere : Prop :=
  (∀ (i : Instr) (s : State) (q : Periph),
    exec i (s.setPeriph (targetOf s i).other q) =
      match exec i s with
      | .next t => .next (t.setPeriph (targetOf s i).other q)
      | .fault f => .fault f
      | .refused r => .refused r) ∧
  ∀ (j : Inst) (e : Event) (s : State) (q : Periph), e = .txLoad j ∨ e = .txDone j ∨ (∃ b, e = .rxArrive j b) →
    ∃ t, turn e s = .next t ∧ turn e (s.setPeriph j.other q) = .next (t.setPeriph j.other q) ∧
      t.periph j.other = s.periph j.other

/-- 20_memory.md R50, R63, 40_register_model.md R128: only the sequencer's steps reach the register port. A step of any other agent makes
no bus cycle and, but for reset, writes no control register; the sequencer's step presents to the register file exactly the access of
its FSM state's port instruction and leaves of the instances, the bus and the free values what that instruction leaves; in the other
states it leaves both instances as they are. -/
def Obligations.OnlyTheSequencerReachesThePort : Prop :=
  ∀ s t : State, s.cfg.wf → step s = .next t →
    (nextEvent s ≠ .seq → t.bus = none ∧ (nextEvent s ≠ .reset → ∀ i, (t.periph i).ctrl = (s.periph i).ctrl)) ∧
    (nextEvent s = .seq →
      match s.transaction with
      | some i => ∃ a u, requestOf s.cfg i = some a ∧ registerFile a (takeTurn s) = .next u ∧ u.bus ≠ none ∧
          t.p0 = u.p0 ∧ t.p1 = u.p1 ∧ t.bus = u.bus ∧ t.draws = u.draws
      | none => t.p0 = s.p0 ∧ t.p1 = s.p1 ∧ (t.bus = none ∨ t.bus = some (.capRead s.cfg.cap)))

/-- 40_register_model.md R128, 20_memory.md R51: the bus cycle of every FSM state, the same for every command that has the state: none, one
read of `CTRL(SEL)`, one write of `CTRL(SEL)` or `DATA(SEL)` with the word the rules give, one read of `DATA(SEL)`; AV_RD reads the
capability word exactly when the handle is a base. -/
def Obligations.EveryStateMakesItsOwnCycle : Prop :=
  ∀ (i : Instr) (s t : State), isCommand i = true → s.bus = none → exec i s = .next t →
    match s.fsm with
    | .idle | .suRes | .psNext => t.bus = none
    | .avRd => t.bus = if s.hnd = s.cfg.c0.base ∨ s.hnd = s.cfg.c1.base then some (.capRead s.cfg.cap) else none
    | .pbPoll | .gbPoll | .crRd | .tbRd | .rmwRd | .psCrPoll | .psChPoll =>
      t.bus = some (.regRead s.sel offCtrl t.w)
    | .gbRd | .cgRd => ∃ d, t.bus = some (.regRead s.sel offData d) ∧ t.r0 = (d.extractLsb' 0 8).setWidth 32
    | .pbWr | .psChWr => t.bus = some (.regWrite s.sel offData (s.b.setWidth 32))
    | .psCrWr => t.bus = some (.regWrite s.sel offData 0x0000000D#32)
    | .suWr => t.bus = some (.regWrite s.sel offCtrl (setupWord s.cfg s.tap s.raw s.irqm))
    | .rmwWr => ∃ v, t.bus = some (.regWrite s.sel offCtrl v) ∧
      ((s.op = 0x7#4 ∧ v = s.w ||| 1#32 <<< s.cfg.layout.en) ∨ (s.op = 0x8#4 ∧ v = s.w &&& ~~~(1#32 <<< s.cfg.layout.en)) ∨
        (s.op = 0x9#4 ∧ v = s.w ||| 1#32 <<< s.cfg.layout.hwfc) ∨ (s.op = 0xA#4 ∧ v = s.w &&& ~~~(1#32 <<< s.cfg.layout.hwfc)))

/-- 40_register_model.md R127, 10_state.md R22, 42_blocking_io.md R181: on its own turn the sequencer goes along a listed transition (the
four poll states and a hanging `SU_RES` are the only ones listed to themselves), or waits in IDLE for a command's words; `SU_RES` stays
only with a zero denominator under `SUBTRACT`; of the other agents only reset moves it, to IDLE. -/
def Obligations.OnlyListedTransitions : Prop :=
  ∀ (s t : State), step s = .next t →
    (nextEvent s = .seq →
      (t.fsm ∈ s.fsm.successors ∨ (s.fsm = .idle ∧ t.fsm = .idle ∧ decodeCommand s.offers = .incomplete)) ∧
      (s.fsm = .suRes → t.fsm = .suRes → denominator s.bd = 0#32 ∧ s.cfg.divStrategy = .subtract)) ∧
    (nextEvent s = .reset → t.fsm = .idle) ∧
    (nextEvent s ≠ .seq → nextEvent s ≠ .reset → t.fsm = s.fsm)

/-- 42_blocking_io.md R181: a poll state is left only by reading the awaited status value, or by reset: no timeout, no cancel. -/
def Obligations.PollsLeaveOnlyOnStatus : Prop :=
  ∀ (s t : State), s.cfg.layout.wf → step s = .next t → nextEvent s ≠ .reset → t.fsm ≠ s.fsm →
    (s.fsm = .pbPoll → t.fsm = .pbWr ∧ (s.periph s.sel).txq.length ≠ txCap s.cfg s.sel) ∧
    (s.fsm = .psCrPoll → t.fsm = .psCrWr ∧ (s.periph s.sel).txq.length ≠ txCap s.cfg s.sel) ∧
    (s.fsm = .psChPoll → t.fsm = .psChWr ∧ (s.periph s.sel).txq.length ≠ txCap s.cfg s.sel) ∧
    (s.fsm = .gbPoll → t.fsm = .gbRd ∧ (s.periph s.sel).rxq ≠ [])

/-- 43_setup.md R204, 10_state.md R30: only `setup`'s write and reset ever change the prescaler and divisor fields:
the read-modify-write commands keep them, as does everything else, once `W` holds the register's own fields. -/
def Obligations.OnlySetupChangesBaudFields : Prop :=
  ∀ (s t : State) (j : Inst), s.cfg.layout.wf → step s = .next t →
    s.freshLatch →
    ((t.periph j).ctrl.prsc ≠ (s.periph j).ctrl.prsc ∨ (t.periph j).ctrl.baud ≠ (s.periph j).ctrl.baud) →
    (nextEvent s = .seq ∧ s.fsm = .suWr ∧ j = s.sel ∧ (t.periph j).ctrl.prsc = s.tap.setWidth 2 ∧
      (t.periph j).ctrl.baud = (s.raw - 1#32).setWidth 10) ∨ nextEvent s = .reset

/-! ## The step, reset, and the other agents -/

/-- The step runs the decoded instruction: an idle sequencer on its turn runs the command at the front of the host's words and takes
exactly its words; a busy one goes on with the command in its latches; the register file runs the transaction an access is
(OnlyTheSequencerReachesThePort says which access a step presents). Around `exec` the turn is taken off the agenda and the bus cycle of the
step before is cleared. Malformed words are refused (M9) and an unfinished command is waited for; which of the two a `puts` is whose wide character came before its terminator is log 24's choice. -/
def Obligations.StepRunsTheDecodedInstruction : Prop :=
  (∀ (s : State) (i : Instr) (rest : List Word), nextEvent s = .seq → s.fsm = .idle → decodeCommand s.offers = .ok i rest →
    step s = exec i { s with agenda := s.agenda.tail, bus := none, offers := rest }) ∧
  (∀ (s : State) (i : Instr), nextEvent s = .seq → s.fsm ≠ .idle → runningCommand s = some i →
    step s = exec i { s with agenda := s.agenda.tail, bus := none }) ∧
  (∀ (s : State) (a : PortAccess) (i : Instr), decodeAccess s.cfg a = some i → registerFile a s = exec i s) ∧
  (∀ (s : State) (e : DecodeError), nextEvent s = .seq → s.fsm = .idle → decodeCommand s.offers = .malformed e →
    step s = .refused (.notWellFormed e)) ∧
  (∀ (s : State), nextEvent s = .seq → s.fsm = .idle → decodeCommand s.offers = .incomplete →
    step s = .next { s with agenda := s.agenda.tail, bus := none })

/-- 10_state.md R31 (the spec's own decision D12; log 14): after reset every register of R21 is 0 and `STR` empty, `fsm = IDLE`, and of both instances every stored field is 0,
the queues, the shifter and the wire empty, the three status bits 0, for every value of the parameters, which stay. -/
def Obligations.ResetValues : Prop :=
  ∀ c : Config,
    let s := State.resetOf c
    s.cfg = c ∧ s.fsm = .idle ∧ s.op = 0#4 ∧ s.hnd = 0#32 ∧ s.sel = .i0 ∧ s.b = 0#8 ∧ s.w = 0#32 ∧ s.clk = 0#32 ∧ s.bd = 0#32 ∧
    s.den = 0#32 ∧ s.raw = 0#32 ∧ s.tap = 0#32 ∧ s.irqm = 0#32 ∧ s.str = [] ∧ s.r0 = 0#32 ∧ s.ready = 1#1 ∧
    ∀ i, (s.periph i).ctrl = { en := 0#1, sim := 0#1, hwfc := 0#1, prsc := 0#2, baud := 0#10, irq := 0#5 } ∧
      (s.periph i).txq = [] ∧ (s.periph i).rxq = [] ∧ (s.periph i).txsh = none ∧ (s.periph i).wireTx = [] ∧
      txFull s.cfg i (s.periph i) = 0#1 ∧ txBusy (s.periph i) = 0#1 ∧ rxNempty (s.periph i) = 0#1

/-- 70_reset_and_hazards.md R270, R271: reset in any state, a hanging poll too, puts everything of the block at its reset value in one
step and keeps the parameters (what it keeps of the environment's inputs is log 18). -/
def Obligations.ResetFromAnyState : Prop :=
  ∀ s : State, nextEvent s = .reset → ∃ t, step s = .next t ∧
    t = { State.resetOf s.cfg with
            p0 := { Periph.reset with cts := s.p0.cts }, p1 := { Periph.reset with cts := s.p1.cts },
            offers := s.offers, agenda := s.agenda.tail, draws := s.draws }

/-- 44_peripheral_backend.md R217 (with R223 for `HWFC = 1`): `TxLoad` moves the oldest queued byte into the empty shifter exactly when
it is enabled; `TX_FULL` is then 0 (of a queue within its capacity) and `TX_BUSY` 1. Where it is not enabled, the spec's engine takes
no step; that the event is then a step that changes nothing is the model's choice, log 2. -/
def Obligations.TxLoadMovesOldestByte : Prop :=
  ∀ (s : State) (i : Inst), nextEvent s = .txLoad i →
    (∀ h t, (s.periph i).ctrl.en = 1#1 → (s.periph i).txsh = none → (s.periph i).txq = h :: t →
      ((s.periph i).ctrl.hwfc = 1#1 → (s.periph i).cts = true) →
      ∃ p, p = { s.periph i with txq := t, txsh := some h } ∧
        step s = .next ({ s with agenda := s.agenda.tail, bus := none }.setPeriph i p) ∧
        ((s.periph i).fits s.cfg i → txFull s.cfg i p = 0#1) ∧ txBusy p = 1#1) ∧
    ((s.periph i).ctrl.en = 0#1 ∨ (s.periph i).txsh ≠ none ∨ (s.periph i).txq = [] ∨
        ((s.periph i).ctrl.hwfc = 1#1 ∧ (s.periph i).cts = false) →
      step s = .next { s with agenda := s.agenda.tail, bus := none })

/-- 44_peripheral_backend.md R218: `TxDone` puts the shifted byte at the end of the wire exactly when it is enabled; `TX_BUSY` is then 0
exactly when the queue is empty. Where it is not enabled, the spec's engine takes no step; that the event is then a step that changes
nothing is the model's choice, log 2. -/
def Obligations.TxDonePutsByteOnWire : Prop :=
  ∀ (s : State) (i : Inst), nextEvent s = .txDone i →
    (∀ b, (s.periph i).ctrl.en = 1#1 → (s.periph i).txsh = some b →
      ∃ p, p = { s.periph i with wireTx := (s.periph i).wireTx ++ [b], txsh := none } ∧
        step s = .next ({ s with agenda := s.agenda.tail, bus := none }.setPeriph i p) ∧
        (txBusy p = 0#1 ↔ (s.periph i).txq = [])) ∧
    ((s.periph i).ctrl.en = 0#1 ∨ (s.periph i).txsh = none →
      step s = .next { s with agenda := s.agenda.tail, bus := none })

/-- 44_peripheral_backend.md R219: a byte that arrives at an enabled instance is queued while there is room and lost otherwise; `RX_NEMPTY`
is 1 after it either way. With `EN = 0` the spec's step is not enabled; that the event is then a step that changes nothing is the
model's choice, log 2. -/
def Obligations.RxArriveQueuesOrLoses : Prop :=
  ∀ (s : State) (i : Inst) (b : Byte), nextEvent s = .rxArrive i b →
    ((s.periph i).ctrl.en = 1#1 → (s.periph i).rxq.length < rxCap s.cfg i →
      step s = .next ({ s with agenda := s.agenda.tail, bus := none }.setPeriph i
        { s.periph i with rxq := (s.periph i).rxq ++ [b] })) ∧
    ((s.periph i).ctrl.en = 0#1 ∨ rxCap s.cfg i ≤ (s.periph i).rxq.length →
      step s = .next { s with agenda := s.agenda.tail, bus := none }) ∧
    ((s.periph i).ctrl.en = 1#1 → ∃ t, step s = .next t ∧ rxNempty (t.periph i) = 1#1)

/-- 44_peripheral_backend.md R220: wire, shifter and queue together are the bytes accepted by DATA writes, in order: a step keeps them,
or appends the one byte it wrote to DATA, unless it flushes (a CTRL write with `EN = 0`, after which only the wire is left) or
resets. -/
def Obligations.AcceptedBytesAreKeptInOrder : Prop :=
  ∀ (s t : State) (j : Inst), step s = .next t → nextEvent s ≠ .reset →
    (t.periph j).accepted = (s.periph j).accepted ∨
    (∃ v, t.bus = some (.regWrite j offData v) ∧ (s.periph j).ctrl.en = 1#1 ∧
      (t.periph j).accepted = (s.periph j).accepted ++ [v.extractLsb' 0 8]) ∨
    (∃ v, t.bus = some (.regWrite j offCtrl v) ∧ (t.periph j).ctrl.en = 0#1 ∧ s.cfg.en0Flush = true ∧
      (t.periph j).accepted = (s.periph j).wireTx ∧ (t.periph j).wireTx = (s.periph j).wireTx)

/-- 20_memory.md R58 (b): between a poll and the sequencer's next transaction the other agents only make room and only bring data:
a queue that was not full stays not full, a receive queue that was not empty stays not empty, and its oldest byte stays the
oldest. -/
def Obligations.OtherAgentsKeepPolledStatus : Prop :=
  ∀ (s t : State) (i : Inst), (s.periph i).fits s.cfg i → step s = .next t →
    nextEvent s ≠ .seq → nextEvent s ≠ .reset →
    (txFull s.cfg i (s.periph i) = 0#1 → txFull t.cfg i (t.periph i) = 0#1) ∧
    (rxNempty (s.periph i) = 1#1 → rxNempty (t.periph i) = 1#1) ∧
    (t.periph i).rxq.take (s.periph i).rxq.length = (s.periph i).rxq ∧
    { t with p0 := s.p0, p1 := s.p1, agenda := s.agenda, bus := s.bus } = s

/-! ## Invariants -/

/-- The invariant holds after reset, for all proper parameters (10_state.md R30, R31). -/
def Obligations.ResetMeetsInvariant : Prop :=
  ∀ c : Config, c.wf → (State.resetOf c).Inv

/-- 10_state.md R30 and the corner cases of 42_blocking_io.md R171 (c), R172 (d): every step of every agent keeps the invariant: queues
within capacity, a disabled instance empty under `EN0_FLUSH`, `fsm` on the walk of `OP`, no terminator in `STR`, a transmit write that
never meets a full queue, a receive read that never meets an empty one, and a read-modify-write that writes back fresh fields. -/
def Obligations.StepKeepsInvariant : Prop :=
  ∀ (s t : State), s.Inv → step s = .next t → t.Inv

/-- 60_exceptions.md R245, R246: under the invariant no step faults, and a step has no meaning only for M1, M2, M9 or M10, each under its
own condition (for a `puts` with a wide character M9 comes as soon as that word is on the port: log 24, the model's choice). -/
def Obligations.StepNeverFaults : Prop :=
  ∀ s : State, s.Inv →
    (∀ f, step s ≠ .fault f) ∧
    (∀ r, step s = .refused r → nextEvent s = .seq ∧
      ((r = .unknownHandle ∧ s.fsm = .idle ∧ ∃ i rest h, decodeCommand s.offers = .ok i rest ∧ resolvedHandle i = some h ∧
          h ≠ s.cfg.c0.base ∧ h ≠ s.cfg.c1.base) ∨
        (r = .divideByZero ∧ s.fsm = .suRes ∧ denominator s.bd = 0#32 ∧ s.cfg.divStrategy = .divide ∧ s.cfg.div0Result = none) ∨
        (∃ e, r = .notWellFormed e ∧ s.fsm = .idle ∧ decodeCommand s.offers = .malformed e) ∨
        (r = .simRedirect ∧ s.fsm.writesData ∧ (s.periph s.sel).ctrl.sim = 1#1)))

/-! ## Blocking -/

/-- 42_blocking_io.md R181, 44_peripheral_backend.md R225: a transmit poll ends in every fair run with `EN = 1`, `HWFC = 0`, `SIM = 0`. Stated of
the model's own fair schedule, the one of an empty agenda (log 3, the model's choice): `put_byte` is complete at most four steps after
any poll, with its byte the last one accepted. -/
def Obligations.PutByteCompletesWhenFair : Prop :=
  ∀ s : State, s.Inv → s.agenda = [] → s.fsm = .pbPoll → s.op = 0x2#4 →
    (s.periph s.sel).ctrl.en = 1#1 → (s.periph s.sel).ctrl.sim = 0#1 → (s.periph s.sel).ctrl.hwfc = 0#1 →
    ∃ k t, k ≤ 4 ∧ Host.Core.run Sys2Proof.core k s = .next t ∧ t.fsm = .idle ∧
      (t.periph s.sel).accepted = (s.periph s.sel).accepted ++ [s.b]

/-- 42_blocking_io.md R172, 70_reset_and_hazards.md R277: with no sender attached `get_byte` hangs: as long as no byte arrives for its
instance and no reset comes, and whatever else the agenda brings, it is still polling and `R0` keeps its old value. -/
def Obligations.GetByteHangsWithoutSender : Prop :=
  ∀ (k : Nat) (s : State), s.cfg.wf → s.fsm = .gbPoll → s.op = 0x3#4 → (s.periph s.sel).rxq = [] →
    (∀ e ∈ s.agenda, e ≠ .reset ∧ ∀ b, e ≠ .rxArrive s.sel b) →
    ∃ t, Host.Core.run Sys2Proof.core k s = .next t ∧ t.fsm = .gbPoll ∧ t.r0 = s.r0 ∧ (t.periph t.sel).rxq = []

/-- 44_peripheral_backend.md R223, 42_blocking_io.md R181: under `HWFC = 1` with the remote never ready a transmit poll on a full queue
hangs: whatever the other agents do, as long as the clear-to-send input of its instance is not raised and no reset
comes, it is still polling the same full queue. -/
def Obligations.PutByteHangsWithoutClearToSend : Prop :=
  ∀ (k : Nat) (s : State), s.cfg.wf → s.fsm = .pbPoll → s.op = 0x2#4 →
    (s.periph s.sel).ctrl.hwfc = 1#1 → (s.periph s.sel).cts = false →
    (s.periph s.sel).txq.length = txCap s.cfg s.sel →
    (∀ e ∈ s.agenda, e ≠ .reset ∧ e ≠ .cts s.sel true) →
    ∃ t, Host.Core.run Sys2Proof.core k s = .next t ∧ t.fsm = .pbPoll ∧ (t.periph s.sel).txq = (s.periph s.sel).txq
end

