-- ==== Sys2Proof/Laws/State.lean ====
section
/-! SUPPORT. One lemma per field and update of the state: what `setPeriph` and the turn leave of each field. -/

namespace Sys2Proof.Machine

@[simp] theorem periph_i0 (s : State) : s.periph .i0 = s.p0 := rfl
@[simp] theorem periph_i1 (s : State) : s.periph .i1 = s.p1 := rfl
@[simp] theorem setPeriph_i0 (s : State) (p : Periph) : s.setPeriph .i0 p = { s with p0 := p } := rfl
@[simp] theorem setPeriph_i1 (s : State) (p : Periph) : s.setPeriph .i1 p = { s with p1 := p } := rfl

@[simp] theorem setPeriph_fsm (s : State) (i : Inst) (p : Periph) : (s.setPeriph i p).fsm = s.fsm := by cases i <;> rfl
@[simp] theorem setPeriph_op (s : State) (i : Inst) (p : Periph) : (s.setPeriph i p).op = s.op := by cases i <;> rfl
@[simp] theorem setPeriph_hnd (s : State) (i : Inst) (p : Periph) : (s.setPeriph i p).hnd = s.hnd := by cases i <;> rfl
@[simp] theorem setPeriph_sel (s : State) (i : Inst) (p : Periph) : (s.setPeriph i p).sel = s.sel := by cases i <;> rfl
@[simp] theorem setPeriph_b (s : State) (i : Inst) (p : Periph) : (s.setPeriph i p).b = s.b := by cases i <;> rfl
@[simp] theorem setPeriph_w (s : State) (i : Inst) (p : Periph) : (s.setPeriph i p).w = s.w := by cases i <;> rfl
@[simp] theorem setPeriph_clk (s : State) (i : Inst) (p : Periph) : (s.setPeriph i p).clk = s.clk := by cases i <;> rfl
@[simp] theorem setPeriph_bd (s : State) (i : Inst) (p : Periph) : (s.setPeriph i p).bd = s.bd := by cases i <;> rfl
@[simp] theorem setPeriph_den (s : State) (i : Inst) (p : Periph) : (s.setPeriph i p).den = s.den := by cases i <;> rfl
@[simp] theorem setPeriph_raw (s : State) (i : Inst) (p : Periph) : (s.setPeriph i p).raw = s.raw := by cases i <;> rfl
@[simp] theorem setPeriph_tap (s : State) (i : Inst) (p : Periph) : (s.setPeriph i p).tap = s.tap := by cases i <;> rfl
@[simp] theorem setPeriph_irqm (s : State) (i : Inst) (p : Periph) : (s.setPeriph i p).irqm = s.irqm := by cases i <;> rfl
@[simp] theorem setPeriph_str (s : State) (i : Inst) (p : Periph) : (s.setPeriph i p).str = s.str := by cases i <;> rfl
@[simp] theorem setPeriph_r0 (s : State) (i : Inst) (p : Periph) : (s.setPeriph i p).r0 = s.r0 := by cases i <;> rfl
@[simp] theorem setPeriph_cfg (s : State) (i : Inst) (p : Periph) : (s.setPeriph i p).cfg = s.cfg := by cases i <;> rfl
@[simp] theorem setPeriph_bus (s : State) (i : Inst) (p : Periph) : (s.setPeriph i p).bus = s.bus := by cases i <;> rfl
@[simp] theorem setPeriph_offers (s : State) (i : Inst) (p : Periph) : (s.setPeriph i p).offers = s.offers := by cases i <;> rfl
@[simp] theorem setPeriph_agenda (s : State) (i : Inst) (p : Periph) : (s.setPeriph i p).agenda = s.agenda := by cases i <;> rfl
@[simp] theorem setPeriph_draws (s : State) (i : Inst) (p : Periph) : (s.setPeriph i p).draws = s.draws := by cases i <;> rfl

/-- Reading back the instance just put. -/
@[simp] theorem periph_setPeriph_self (s : State) (i : Inst) (p : Periph) : (s.setPeriph i p).periph i = p := by
  cases i <;> rfl

/-- The other instance is left alone. -/
theorem periph_setPeriph_ne (s : State) {i j : Inst} (p : Periph) (h : j ≠ i) : (s.setPeriph i p).periph j = s.periph j := by
  cases i <;> cases j <;> first | rfl | exact absurd rfl h

@[simp] theorem periph_setPeriph_other (s : State) (i : Inst) (p : Periph) :
    (s.setPeriph i p).periph i.other = s.periph i.other := by
  cases i <;> rfl

/-- Putting back the instance that is there changes nothing. -/
@[simp] theorem setPeriph_periph (s : State) (i : Inst) : s.setPeriph i (s.periph i) = s := by
  cases i <;> rfl

@[simp] theorem takeTurn_periph (s : State) (i : Inst) : (takeTurn s).periph i = s.periph i := by cases i <;> rfl
@[simp] theorem takeTurn_fsm (s : State) : (takeTurn s).fsm = s.fsm := rfl
@[simp] theorem takeTurn_op (s : State) : (takeTurn s).op = s.op := rfl
@[simp] theorem takeTurn_sel (s : State) : (takeTurn s).sel = s.sel := rfl
@[simp] theorem takeTurn_cfg (s : State) : (takeTurn s).cfg = s.cfg := rfl
@[simp] theorem takeTurn_bus (s : State) : (takeTurn s).bus = none := rfl
@[simp] theorem takeTurn_agenda (s : State) : (takeTurn s).agenda = s.agenda.tail := rfl
@[simp] theorem takeTurn_offers (s : State) : (takeTurn s).offers = s.offers := rfl

/-- Every instance is `i` or the other one. -/
theorem eq_or_eq_other (i j : Inst) : j = i ∨ j = i.other := by
  cases i <;> cases j <;> simp [Inst.other]

@[simp] theorem other_ne (i : Inst) : i.other ≠ i := by cases i <;> simp [Inst.other]

end Sys2Proof.Machine
end

