-- ==== Sys2Proof/Laws/Fields.lean ====
section
/-! SUPPORT. Bit fields of a word: what `takeField` gives of words made of `placeField`s (30_encoding.md R82; 40_register_model.md
R112). -/

namespace Sys2Proof.Machine

theorem getLsbD_takeField {n pos k : Nat} (w : Word) :
    (takeField n pos w).getLsbD k = (decide (k < n) && w.getLsbD (pos + k)) := by
  simp [takeField, BitVec.getLsbD_extractLsb']

theorem getLsbD_placeField {n pos k : Nat} (v : BitVec n) :
    (placeField pos v).getLsbD k = (decide (k < 32) && decide (pos ≤ k) && v.getLsbD (k - pos)) := by
  simp only [placeField, BitVec.getLsbD_shiftLeft, BitVec.getLsbD_setWidth]
  by_cases h1 : k < 32
  · by_cases h2 : k < pos
    · simp [h1, h2, show ¬pos ≤ k by omega]
    · simp [h1, h2, show pos ≤ k by omega, show k - pos < 32 by omega]
  · simp [h1]

theorem takeField_or {n pos : Nat} (a b : Word) : takeField n pos (a ||| b) = takeField n pos a ||| takeField n pos b := by
  apply BitVec.eq_of_getLsbD_eq
  intro k hk
  simp only [getLsbD_takeField, BitVec.getLsbD_or, hk, decide_true, Bool.true_and]

theorem takeField_and {n pos : Nat} (a b : Word) : takeField n pos (a &&& b) = takeField n pos a &&& takeField n pos b := by
  apply BitVec.eq_of_getLsbD_eq
  intro k hk
  simp only [getLsbD_takeField, BitVec.getLsbD_and, hk, decide_true, Bool.true_and]

theorem takeField_zero {n pos : Nat} : takeField n pos 0#32 = 0#n := by
  apply BitVec.eq_of_getLsbD_eq
  intro k hk
  simp only [getLsbD_takeField, BitVec.getLsbD_zero, Bool.and_false]

theorem takeField_not {n pos : Nat} (a : Word) (h : pos + n ≤ 32) : takeField n pos (~~~a) = ~~~takeField n pos a := by
  apply BitVec.eq_of_getLsbD_eq
  intro k hk
  simp only [getLsbD_takeField, BitVec.getLsbD_not, hk, show pos + k < 32 by omega, decide_true, Bool.true_and]

/-- A field read back from where it was put. -/
theorem takeField_placeField_self {n pos : Nat} (v : BitVec n) (h : pos + n ≤ 32) : takeField n pos (placeField pos v) = v := by
  apply BitVec.eq_of_getLsbD_eq
  intro k hk
  simp only [getLsbD_takeField, getLsbD_placeField, hk, show pos + k < 32 by omega, decide_true, Bool.true_and,
    Nat.le_add_right, Nat.add_sub_cancel_left]

/-- A field put elsewhere does not show. -/
theorem takeField_placeField_disjoint {n m p q : Nat} (v : BitVec m) (h : p + n ≤ q ∨ q + m ≤ p) :
    takeField n p (placeField q v) = 0#n := by
  apply BitVec.eq_of_getLsbD_eq
  intro k hk
  simp only [getLsbD_takeField, getLsbD_placeField, hk, decide_true, Bool.true_and, BitVec.getLsbD_zero, Bool.and_eq_false_iff,
    decide_eq_false_iff_not]
  rcases h with h | h
  · left; right; omega
  · right; exact BitVec.getLsbD_of_ge _ _ (by omega)

/-- Unpacking a word made of the six stored fields and three status bits gives them back, for every proper layout. -/
theorem unpack_statusWord {l : Layout} (h : l.wf) (f : Stored) (a b c : Bit) :
    unpack l (pack l f ||| placeField l.rxNempty a ||| placeField l.txFull b ||| placeField l.txBusy c) =
      { en := f.en, sim := f.sim, hwfc := f.hwfc, prsc := f.prsc, baud := f.baud, rxNempty := a, txFull := b, irq := f.irq,
        txBusy := c } := by
  obtain ⟨hb, hd⟩ := h.1
  simp only [Layout.ctrlFields, List.pairwise_cons, List.mem_cons, List.not_mem_nil, or_false, forall_eq_or_imp, forall_eq,
    List.Pairwise.nil, and_true] at hb hd
  obtain ⟨_, _, _, _, _, _, _, _, _⟩ := hb
  obtain ⟨⟨_, _, _, _, _, _, _, _⟩, ⟨_, _, _, _, _, _, _⟩, ⟨_, _, _, _, _, _⟩, ⟨_, _, _, _, _⟩, ⟨_, _, _, _⟩, ⟨_, _, _⟩,
    ⟨_, _⟩, ⟨_, _⟩⟩ := hd
  unfold unpack pack
  simp (disch := first | assumption | (apply Or.symm; assumption)) only [takeField_or, takeField_placeField_self,
    takeField_placeField_disjoint, BitVec.zero_or, BitVec.or_zero]

/-- Unpacking a data word gives back the byte and the two nibbles it was made of, for every proper layout. -/
theorem unpackData_packData {l : Layout} (h : l.wf) (d : UnpackedData) : unpackData l (packData l d) = d := by
  obtain ⟨hb, hd⟩ := h.2
  simp only [Layout.dataFields, List.pairwise_cons, List.mem_cons, List.not_mem_nil, or_false, forall_eq_or_imp, forall_eq,
    List.Pairwise.nil, and_true] at hb hd
  obtain ⟨_, _, _⟩ := hb
  obtain ⟨⟨_, _⟩, ⟨_, _⟩⟩ := hd
  unfold unpackData packData
  simp (disch := first | assumption | (apply Or.symm; assumption)) only [takeField_or, takeField_placeField_self,
    takeField_placeField_disjoint, BitVec.zero_or, BitVec.or_zero]

/-- A truth value as a bit. -/
theorem bitOf_eq_one {p : Bool} : bitOf p = 1#1 ↔ p = true := by cases p <;> decide

theorem bitOf_eq_zero {p : Bool} : bitOf p = 0#1 ↔ p = false := by cases p <;> decide

theorem bit_ne_one {v : Bit} : v ≠ 1#1 ↔ v = 0#1 := by revert v; decide

theorem bit_ne_zero {v : Bit} : v ≠ 0#1 ↔ v = 1#1 := by revert v; decide

end Sys2Proof.Machine
end

