-- ==== Sys2Proof/Laws/Ops.lean ====
section
/-! SUPPORT. What each shared operation can do, said once. -/

namespace Sys2Proof.Machine

/-! ## Port transactions -/

@[simp] theorem afterCtrlRead_periph (i j : Inst) (s : State) : (afterCtrlRead i s).periph j = s.periph j := by cases j <;> rfl

/-- What the sequencer's CTRL read changes: the latch `W` and the bus cycle. -/
theorem loadW_eq (s : State) :
    loadW s = { s with w := ctrlWord s.cfg s.sel (s.periph s.sel),
                       bus := some (.regRead s.sel offCtrl (ctrlWord s.cfg s.sel (s.periph s.sel))) } := rfl

/-- What unpacking a CTRL read gives: the stored fields and the status bits of that instant. -/
theorem unpack_ctrlWord {c : Config} (h : c.layout.wf) (i : Inst) (p : Periph) :
    unpack c.layout (ctrlWord c i p) =
      { en := p.ctrl.en, sim := p.ctrl.sim, hwfc := p.ctrl.hwfc, prsc := p.ctrl.prsc, baud := p.ctrl.baud,
        rxNempty := rxNempty p, txFull := txFull c i p, irq := p.ctrl.irq, txBusy := txBusy p } :=
  unpack_statusWord h p.ctrl _ _ _

/-- What the sequencer sees of a CTRL read it just made. -/
theorem loadW_u {s : State} (h : s.cfg.layout.wf) :
    (loadW s).u =
      { en := (s.periph s.sel).ctrl.en, sim := (s.periph s.sel).ctrl.sim, hwfc := (s.periph s.sel).ctrl.hwfc,
        prsc := (s.periph s.sel).ctrl.prsc, baud := (s.periph s.sel).ctrl.baud, rxNempty := rxNempty (s.periph s.sel),
        txFull := txFull s.cfg s.sel (s.periph s.sel), irq := (s.periph s.sel).ctrl.irq, txBusy := txBusy (s.periph s.sel) } :=
  unpack_ctrlWord h s.sel (s.periph s.sel)

/-- The byte of a DATA word as read is the byte put there. -/
theorem wordByte_dataWord {c : Config} (h : c.layout.wf) (i : Inst) (b : Byte) : wordByte (dataWord c i b) = b :=
  congrArg UnpackedData.rtx (unpackData_packData h _)

/-- The status bits, as propositions. -/
theorem txFull_eq_one {c : Config} {i : Inst} {p : Periph} : txFull c i p = 1#1 ↔ p.txq.length = txCap c i := by
  simp [txFull, bitOf_eq_one]

theorem txFull_eq_zero {c : Config} {i : Inst} {p : Periph} : txFull c i p = 0#1 ↔ p.txq.length ≠ txCap c i := by
  simp [txFull, bitOf_eq_zero]

theorem rxNempty_eq_one {p : Periph} : rxNempty p = 1#1 ↔ p.rxq ≠ [] := by simp [rxNempty, bitOf_eq_one]

theorem rxNempty_eq_zero {p : Periph} : rxNempty p = 0#1 ↔ p.rxq = [] := by simp [rxNempty, bitOf_eq_zero]

theorem txBusy_eq_one {p : Periph} : txBusy p = 1#1 ↔ p.txq ≠ [] ∨ p.txsh ≠ none := by
  cases h : p.txsh <;> simp [txBusy, bitOf_eq_one, h]

/-- `writeData` refuses only under `SIM = 1`, and else pushes. -/
theorem writeData_cases (i : Inst) (v : Word) (s : State) :
    ((s.periph i).ctrl.sim = 1#1 ∧ writeData i v s = .refused .simRedirect) ∨
    ((s.periph i).ctrl.sim ≠ 1#1 ∧ writeData i v s =
      .next ({ s with bus := some (.regWrite i offData v) }.setPeriph i ((s.periph i).pushTx s.cfg i (wordByte v)))) := by
  unfold writeData
  split
  · exact .inl ⟨‹_›, rfl⟩
  · exact .inr ⟨‹_›, rfl⟩

/-- A DATA read pops the head of an enabled instance's receive queue, or draws a byte and pops nothing. -/
theorem afterDataRead_cases (i : Inst) (s : State) :
    (∃ h t, (s.periph i).ctrl.en = 1#1 ∧ (s.periph i).rxq = h :: t ∧ readDataWord i s = dataWord s.cfg i h ∧
      afterDataRead i s =
        { s with bus := some (.regRead i offData (dataWord s.cfg i h)) }.setPeriph i { s.periph i with rxq := t }) ∨
    (((s.periph i).ctrl.en ≠ 1#1 ∨ (s.periph i).rxq = []) ∧ readDataWord i s = dataWord s.cfg i (Config.freeByte s.draws) ∧
      afterDataRead i s =
        { s with bus := some (.regRead i offData (dataWord s.cfg i (Config.freeByte s.draws))), draws := s.draws + 1 }) := by
  by_cases he : (s.periph i).ctrl.en = 1#1
  · cases hq : (s.periph i).rxq with
    | nil =>
      have hr : readDataWord i s = dataWord s.cfg i (Config.freeByte s.draws) := by simp [readDataWord, readByte, he, hq]
      exact .inr ⟨.inr rfl, hr, by simp [afterDataRead, hq, hr]⟩
    | cons h t =>
      have hr : readDataWord i s = dataWord s.cfg i h := by simp [readDataWord, readByte, he, hq]
      exact .inl ⟨h, t, he, rfl, hr, by simp [afterDataRead, he, hq, hr]⟩
  · have hr : readDataWord i s = dataWord s.cfg i (Config.freeByte s.draws) := by simp [readDataWord, readByte, he]
    exact .inr ⟨.inl he, hr, by simp [afterDataRead, he, hr]⟩

theorem pushTx_cases (c : Config) (i : Inst) (b : Byte) (p : Periph) :
    (p.ctrl.en ≠ 0#1 ∧ p.txq.length < txCap c i ∧ p.pushTx c i b = { p with txq := p.txq ++ [b] }) ∨
    ((p.ctrl.en = 0#1 ∨ txCap c i ≤ p.txq.length) ∧ p.pushTx c i b = p) := by
  unfold Periph.pushTx
  split
  · exact .inr ⟨.inl ‹_›, rfl⟩
  · split
    · exact .inl ⟨‹_›, ‹_›, rfl⟩
    · exact .inr ⟨.inr (by omega), rfl⟩

theorem writeStored_cases (c : Config) (f : Stored) (p : Periph) :
    (f.en = 0#1 ∧ c.en0Flush = true ∧ p.writeStored c f = { p with ctrl := f, txq := [], rxq := [], txsh := none }) ∨
    (¬(f.en = 0#1 ∧ c.en0Flush = true) ∧ p.writeStored c f = { p with ctrl := f }) := by
  unfold Periph.writeStored
  split
  · rename_i h; exact .inl ⟨h.1, h.2, rfl⟩
  · exact .inr ⟨‹_›, rfl⟩

/-! ## The back-end's steps -/

theorem txLoad_cases (p : Periph) :
    (∃ h t, p.ctrl.en = 1#1 ∧ p.txsh = none ∧ p.txq = h :: t ∧ (p.ctrl.hwfc = 0#1 ∨ p.cts = true) ∧
      p.txLoad = { p with txq := t, txsh := some h }) ∨
    ((p.ctrl.en ≠ 1#1 ∨ p.txsh ≠ none ∨ p.txq = [] ∨ (p.ctrl.hwfc ≠ 0#1 ∧ p.cts = false)) ∧ p.txLoad = p) := by
  unfold Periph.txLoad
  cases hq : p.txq with
  | nil => exact .inr ⟨.inr (.inr (.inl rfl)), by simp⟩
  | cons h t =>
    by_cases he : p.txLoadEnabled = true
    · refine .inl ⟨h, t, ?_⟩
      simp only [Periph.txLoadEnabled, hq, Bool.and_eq_true, beq_iff_eq, Option.isNone_iff_eq_none, Bool.or_eq_true] at he
      refine ⟨he.1.1.1, he.1.1.2, rfl, he.2, ?_⟩
      simp [Periph.txLoadEnabled, hq, he.1.1.1, he.1.1.2, he.2]
    · refine .inr ⟨?_, by simp [he]⟩
      simp only [Periph.txLoadEnabled, hq, Bool.and_eq_true, beq_iff_eq, Option.isNone_iff_eq_none, Bool.or_eq_true, not_and] at he
      by_cases h1 : p.ctrl.en = 1#1
      · by_cases h2 : p.txsh = none
        · have h3 := he ⟨⟨h1, h2⟩, by simp⟩
          simp only [not_or, Bool.not_eq_true] at h3
          exact .inr (.inr (.inr h3))
        · exact .inr (.inl h2)
      · exact .inl h1

theorem txDone_cases (p : Periph) :
    (∃ b, p.ctrl.en = 1#1 ∧ p.txsh = some b ∧ p.txDone = { p with wireTx := p.wireTx ++ [b], txsh := none }) ∨
    ((p.ctrl.en ≠ 1#1 ∨ p.txsh = none) ∧ p.txDone = p) := by
  unfold Periph.txDone Periph.txDoneEnabled
  cases hs : p.txsh with
  | none => exact .inr ⟨.inr rfl, by simp⟩
  | some b =>
    by_cases he : p.ctrl.en = 1#1
    · exact .inl ⟨b, he, rfl, by simp [he]⟩
    · exact .inr ⟨.inl he, by simp [he]⟩

theorem rxArrive_cases (c : Config) (i : Inst) (b : Byte) (p : Periph) :
    (p.ctrl.en = 1#1 ∧ p.rxq.length < rxCap c i ∧ p.rxArrive c i b = { p with rxq := p.rxq ++ [b] }) ∨
    ((p.ctrl.en ≠ 1#1 ∨ rxCap c i ≤ p.rxq.length) ∧ p.rxArrive c i b = p) := by
  unfold Periph.rxArrive
  split
  · rename_i h; exact .inl ⟨h.1, h.2, rfl⟩
  · rename_i h
    refine .inr ⟨?_, rfl⟩
    by_cases he : p.ctrl.en = 1#1
    · right; have := not_and.mp h he; omega
    · exact .inl he

/-- A back-end step touches its own instance only. -/
theorem onPeriph_other (i : Inst) (f : Periph → Periph) (s : State) : (onPeriph i f s).periph i.other = s.periph i.other := by
  simp [onPeriph]

/-- Capacities are at least one byte. -/
theorem txCap_pos (c : Config) (i : Inst) : 0 < txCap c i := Nat.two_pow_pos _
theorem rxCap_pos (c : Config) (i : Inst) : 0 < rxCap c i := Nat.two_pow_pos _

/-! ## The sequencer's shared steps -/

/-- The accept step answers a next state exactly when the handle is a base. -/
theorem accept_cases (op : BitVec 4) (h : Word) (entry : Fsm) (s : State) :
    (∃ i, resolveHandle s.cfg h = some i ∧ accept op h entry s = .next { s with op := op, hnd := h, sel := i, fsm := entry }) ∨
    (resolveHandle s.cfg h = none ∧ accept op h entry s = .refused .unknownHandle) := by
  unfold accept
  cases hr : resolveHandle s.cfg h with
  | none => exact .inr ⟨rfl, rfl⟩
  | some i => exact .inl ⟨i, rfl, rfl⟩

theorem resolveHandle_cases (c : Config) (h : Word) :
    (h = c.c0.base ∧ resolveHandle c h = some .i0) ∨
    (h ≠ c.c0.base ∧ h = c.c1.base ∧ resolveHandle c h = some .i1) ∨
    (h ≠ c.c0.base ∧ h ≠ c.c1.base ∧ resolveHandle c h = none) := by
  unfold resolveHandle
  split
  · exact .inl ⟨‹_›, rfl⟩
  · split
    · exact .inr (.inl ⟨‹_›, ‹_›, rfl⟩)
    · exact .inr (.inr ⟨‹_›, ‹_›, rfl⟩)

/-- Where a command stands: accepted in IDLE, going on while it is the one in `OP`, else refused. -/
theorem asCommand_cases (op : BitVec 4) (s : State) (first onward : Result) :
    (s.fsm = .idle ∧ asCommand op s first onward = first) ∨
    (s.fsm ≠ .idle ∧ s.op = op ∧ asCommand op s first onward = onward) ∨
    (s.fsm ≠ .idle ∧ s.op ≠ op ∧ asCommand op s first onward = .refused .commandWhileBusy) := by
  unfold asCommand
  split
  · exact .inl ⟨‹_›, rfl⟩
  · split
    · exact .inr (.inl ⟨‹_›, ‹_›, rfl⟩)
    · exact .inr (.inr ⟨‹_›, ‹_›, rfl⟩)

/-- A DATA write of a command, once the write itself is known. -/
theorem sendWord_cases (v : Word) (go : Fsm) (s : State) :
    ((s.periph s.sel).ctrl.sim = 1#1 ∧ sendWord v go s = .refused .simRedirect) ∨
    ((s.periph s.sel).ctrl.sim ≠ 1#1 ∧ sendWord v go s =
      .next ({ s with bus := some (.regWrite s.sel offData v), fsm := go }.setPeriph s.sel
        ((s.periph s.sel).pushTx s.cfg s.sel (wordByte v)))) :=
  writeData_cases s.sel v { s with fsm := go }

/-- The byte of a zero-extended byte is the byte. -/
@[simp] theorem wordByte_byteWord (b : Byte) : wordByte (byteWord b) = b := by
  apply BitVec.eq_of_getLsbD_eq
  intro k hk
  simp only [wordByte, byteWord, getLsbD_takeField, BitVec.getLsbD_setWidth, hk, Nat.zero_add, show k < 32 by omega,
    decide_true, Bool.true_and]

/-- What a transmit poll does: it reads CTRL and stays exactly while the queue is full. -/
theorem pollTx_eq (stay go : Fsm) {s : State} (h : s.cfg.layout.wf) :
    pollTx stay go s = .next
      { s with w := ctrlWord s.cfg s.sel (s.periph s.sel),
               bus := some (.regRead s.sel offCtrl (ctrlWord s.cfg s.sel (s.periph s.sel))),
               fsm := if (s.periph s.sel).txq.length = txCap s.cfg s.sel then stay else go } := by
  unfold pollTx
  rw [loadW_u h, loadW_eq]
  simp only [txFull_eq_one]

/-- What a receive poll does: it reads CTRL and stays exactly while the queue is empty. -/
theorem pollRx_eq (stay go : Fsm) {s : State} (h : s.cfg.layout.wf) :
    pollRx stay go s = .next
      { s with w := ctrlWord s.cfg s.sel (s.periph s.sel),
               bus := some (.regRead s.sel offCtrl (ctrlWord s.cfg s.sel (s.periph s.sel))),
               fsm := if (s.periph s.sel).rxq = [] then stay else go } := by
  unfold pollRx
  rw [loadW_u h, loadW_eq]
  simp only [rxNempty_eq_one, ite_not]

/-- A DATA read at the end of a command that meets data. -/
theorem takeReceived_some {s : State} (h : s.cfg.layout.wf) {x : Byte} {t : List Byte} (he : (s.periph s.sel).ctrl.en = 1#1)
    (hq : (s.periph s.sel).rxq = x :: t) :
    takeReceived s = .next
      ({ s with bus := some (.regRead s.sel offData (dataWord s.cfg s.sel x)), b := x, r0 := byteWord x, fsm := .idle }.setPeriph
        s.sel { s.periph s.sel with rxq := t }) := by
  unfold takeReceived
  have hr : readDataWord s.sel s = dataWord s.cfg s.sel x := by simp [readDataWord, readByte, he, hq]
  rw [hr, wordByte_dataWord h]
  rcases afterDataRead_cases s.sel { s with b := x, r0 := byteWord x, fsm := .idle } with ⟨a, b, _, e, _, e'⟩ | ⟨hc, _⟩
  · rw [e']
    have : (s.periph s.sel).rxq = a :: b := e
    rw [hq] at this; cases this; rfl
  · rcases hc with hc | hc
    · exact absurd he hc
    · rw [show (s.periph s.sel).rxq = [] from hc] at hq; simp at hq

/-- A DATA read at the end of a command that meets none: a free byte. -/
theorem takeReceived_none {s : State} (h : s.cfg.layout.wf)
    (hc : (s.periph s.sel).ctrl.en ≠ 1#1 ∨ (s.periph s.sel).rxq = []) :
    takeReceived s = .next
      { s with draws := s.draws + 1,
               bus := some (.regRead s.sel offData (dataWord s.cfg s.sel (Config.freeByte s.draws))),
               b := Config.freeByte s.draws, r0 := byteWord (Config.freeByte s.draws), fsm := .idle } := by
  unfold takeReceived
  rcases afterDataRead_cases s.sel s with ⟨a, b, e, e', _⟩ | ⟨_, hr, _⟩
  · rcases hc with hc | hc
    · exact absurd e hc
    · rw [hc] at e'; simp at e'
  · rw [hr, wordByte_dataWord h]
    rcases afterDataRead_cases s.sel
        { s with b := Config.freeByte s.draws, r0 := byteWord (Config.freeByte s.draws), fsm := .idle } with
      ⟨a, b, e, e', _⟩ | ⟨_, _, e⟩
    · rcases hc with hc | hc
      · exact absurd e hc
      · rw [show (s.periph s.sel).rxq = _ from e'] at hc; simp at hc
    · rw [e]

/-! ## The turn -/

theorem engineStep_cases (i : Inst) (p : Periph) :
    (p.txDoneEnabled = true ∧ engineStep i p = some (.txDone i)) ∨
    (p.txDoneEnabled = false ∧ p.txLoadEnabled = true ∧ engineStep i p = some (.txLoad i)) ∨
    (p.txDoneEnabled = false ∧ p.txLoadEnabled = false ∧ engineStep i p = none) := by
  unfold engineStep
  cases p.txDoneEnabled <;> cases p.txLoadEnabled <;> simp

/-- Whose turn it is: the head of the agenda, or the fair turn; the fair turn is the sequencer's or an engine's. -/
theorem nextEvent_cases (s : State) :
    (∃ e rest, s.agenda = e :: rest ∧ nextEvent s = e) ∨
    (s.agenda = [] ∧ (nextEvent s = .seq ∨ ∃ i, nextEvent s = .txDone i ∨ nextEvent s = .txLoad i)) := by
  unfold nextEvent
  cases ha : s.agenda with
  | cons e rest => exact .inl ⟨e, rest, rfl, rfl⟩
  | nil =>
    refine .inr ⟨rfl, ?_⟩
    show fairTurn s = .seq ∨ ∃ i, fairTurn s = .txDone i ∨ fairTurn s = .txLoad i
    unfold fairTurn readyEngine
    cases seqWaits s with
    | false => exact .inl rfl
    | true =>
      rcases engineStep_cases s.sel (s.periph s.sel) with ⟨_, e⟩ | ⟨_, _, e⟩ | ⟨_, _, e⟩
      · exact .inr ⟨s.sel, .inl (by simp [e])⟩
      · exact .inr ⟨s.sel, .inr (by simp [e])⟩
      · rcases engineStep_cases s.sel.other (s.periph s.sel.other) with ⟨_, e'⟩ | ⟨_, _, e'⟩ | ⟨_, _, e'⟩
        · exact .inr ⟨s.sel.other, .inl (by simp [e, e'])⟩
        · exact .inr ⟨s.sel.other, .inr (by simp [e, e'])⟩
        · exact .inl (by simp [e, e'])

end Sys2Proof.Machine
end

