-- ==== Sys2Proof/Laws/PerInstr.lean ====
section
/-! SUPPORT. Per-instruction families (LAWS.json). CommandLength: the encoding of a command has the number of words 30_encoding.md R91
gives it, and a port transaction has none. -/

namespace Sys2Proof.Laws.CommandLength

def Statement (i : Instr) : Prop :=
  match encode i with
  | .command words => words.length = commandLength i
  | .port _ _ _ => commandLength i = 0

theorem available (h : Word) : Statement (.available h) := rfl
theorem setup (h a0 a1 a2 : Word) : Statement (.setup h a0 a1 a2) := rfl
theorem putByte (h : Word) (b : Byte) : Statement (.putByte h b) := rfl
theorem getByte (h : Word) : Statement (.getByte h) := rfl
theorem charReceived (h : Word) : Statement (.charReceived h) := rfl
theorem charReceivedGet (h : Word) : Statement (.charReceivedGet h) := rfl
theorem txBusy (h : Word) : Statement (.txBusy h) := rfl
theorem enable (h : Word) : Statement (.enable h) := rfl
theorem disable (h : Word) : Statement (.disable h) := rfl
theorem rtsctsEnable (h : Word) : Statement (.rtsctsEnable h) := rfl
theorem rtsctsDisable (h : Word) : Statement (.rtsctsDisable h) := rfl
theorem puts (h : Word) (s : List Byte) : Statement (.puts h s) := by
  simp [Statement, encode, encodeString, commandLength]; omega
theorem portRdCtrl (i : Inst) : Statement (.portRdCtrl i) := rfl
theorem portRdData (i : Inst) : Statement (.portRdData i) := rfl
theorem portWrCtrl (i : Inst) (v : Word) : Statement (.portWrCtrl i v) := rfl
theorem portWrData (i : Inst) (v : Word) : Statement (.portWrData i v) := rfl

end Sys2Proof.Laws.CommandLength
end

