-- ==== Sys2Proof/Laws/Step.lean ====
section
/-! SUPPORT. What an instruction's step can be, said once: the accept step, one of the sequencer's moves (one per FSM state), or a
stop. Statements about every instruction go by cases on these. -/

namespace Sys2Proof.Machine

/-- The opcode of a command (30_encoding.md R90); a port transaction has none. -/
def opcodeOf : Instr → Option (BitVec 4)
  | .available _ => some opAvailable
  | .setup _ _ _ _ => some opSetup
  | .putByte _ _ => some opPutByte
  | .getByte _ => some opGetByte
  | .charReceived _ => some opCharReceived
  | .charReceivedGet _ => some opCharReceivedGet
  | .txBusy _ => some opTxBusy
  | .enable _ => some opEnable
  | .disable _ => some opDisable
  | .rtsctsEnable _ => some opRtsctsEnable
  | .rtsctsDisable _ => some opRtsctsDisable
  | .puts _ _ => some opPuts
  | .portRdCtrl _ | .portRdData _ | .portWrCtrl _ _ | .portWrData _ _ => none

/-- The function `f` of a read-modify-write command (42_blocking_io.md R176 to R179). -/
inductive ToggleOf (s : State) : (Word → Word) → Prop
  | enable (h : s.op = opEnable) : ToggleOf s (setBit s.cfg.layout.en)
  | disable (h : s.op = opDisable) : ToggleOf s (clearBit s.cfg.layout.en)
  | flowOn (h : s.op = opRtsctsEnable) : ToggleOf s (setBit s.cfg.layout.hwfc)
  | flowOff (h : s.op = opRtsctsDisable) : ToggleOf s (clearBit s.cfg.layout.hwfc)

/-- The sequencer's move outside IDLE: one constructor per FSM state, with what it comes to. -/
inductive SeqMove (s : State) : Result → Prop
  | avRd (h : s.fsm = .avRd) (o : s.op = opAvailable) : SeqMove s (availableRead s)
  | suRes (h : s.fsm = .suRes) (o : s.op = opSetup) : SeqMove s (setupResolve s)
  | suWr (h : s.fsm = .suWr) (o : s.op = opSetup) : SeqMove s (setupWrite s)
  | pbPoll (h : s.fsm = .pbPoll) (o : s.op = opPutByte) : SeqMove s (pollTx .pbPoll .pbWr s)
  | pbWr (h : s.fsm = .pbWr) (o : s.op = opPutByte) : SeqMove s (sendWord (byteWord s.b) .idle s)
  | gbPoll (h : s.fsm = .gbPoll) (o : s.op = opGetByte) : SeqMove s (pollRx .gbPoll .gbRd s)
  | gbRd (h : s.fsm = .gbRd) (o : s.op = opGetByte) : SeqMove s (takeReceived s)
  | crRd (h : s.fsm = .crRd) (o : s.op = opCharReceived) : SeqMove s (reportBit Unpacked.rxNempty s)
  | cgRd (h : s.fsm = .cgRd) (o : s.op = opCharReceivedGet) : SeqMove s (takeReceived s)
  | tbRd (h : s.fsm = .tbRd) (o : s.op = opTxBusy) : SeqMove s (reportBit Unpacked.txBusy s)
  | rmwRd (h : s.fsm = .rmwRd) {f : Word → Word} (o : ToggleOf s f) : SeqMove s (rmwRead s)
  | rmwWr (h : s.fsm = .rmwWr) {f : Word → Word} (o : ToggleOf s f) : SeqMove s (rmwWrite f s)
  | psNext (h : s.fsm = .psNext) (o : s.op = opPuts) : SeqMove s (putsNext s)
  | psCrPoll (h : s.fsm = .psCrPoll) (o : s.op = opPuts) : SeqMove s (pollTx .psCrPoll .psCrWr s)
  | psCrWr (h : s.fsm = .psCrWr) (o : s.op = opPuts) : SeqMove s (sendWord 0x0000000D#32 .psChPoll s)
  | psChPoll (h : s.fsm = .psChPoll) (o : s.op = opPuts) : SeqMove s (pollTx .psChPoll .psChWr s)
  | psChWr (h : s.fsm = .psChWr) (o : s.op = opPuts) : SeqMove s (sendWord (byteWord s.b) .psNext s)
  | lost : SeqMove s (.fault .noTransition)

theorem rmwWalk_move {s : State} {f : Word → Word} (o : ToggleOf s f) : SeqMove s (rmwWalk f s) := by
  unfold rmwWalk
  split
  · exact .rmwRd ‹_› o
  · exact .rmwWr ‹_› o
  · exact .lost

/-- A command outside IDLE, its own opcode in `OP`: one of the moves. -/
theorem exec_move {i : Instr} {s : State} (hn : s.fsm ≠ .idle) (ho : opcodeOf i = some s.op) : SeqMove s (exec i s) := by
  cases i <;> simp only [opcodeOf, Option.some.injEq, reduceCtorEq] at ho <;> replace ho := ho.symm <;>
    simp only [exec, execAvailable, execSetup, execPutByte, execGetByte, execCharReceived, execCharReceivedGet, execTxBusy,
      execEnable, execDisable, execRtsctsEnable, execRtsctsDisable, execPuts, asCommand, if_neg hn, if_pos ho]
  case enable => exact rmwWalk_move (.enable ho)
  case disable => exact rmwWalk_move (.disable ho)
  case rtsctsEnable => exact rmwWalk_move (.flowOn ho)
  case rtsctsDisable => exact rmwWalk_move (.flowOff ho)
  all_goals split
  all_goals first
    | exact .lost
    | exact .avRd ‹_› ho | exact .suRes ‹_› ho | exact .suWr ‹_› ho | exact .pbPoll ‹_› ho | exact .pbWr ‹_› ho
    | exact .gbPoll ‹_› ho | exact .gbRd ‹_› ho | exact .crRd ‹_› ho | exact .cgRd ‹_› ho | exact .tbRd ‹_› ho
    | exact .psNext ‹_› ho | exact .psCrPoll ‹_› ho | exact .psCrWr ‹_› ho | exact .psChPoll ‹_› ho | exact .psChWr ‹_› ho

/-- A command outside IDLE that is not the one in `OP` is refused. -/
theorem exec_busy {i : Instr} {s : State} (hn : s.fsm ≠ .idle) {op : BitVec 4} (hi : opcodeOf i = some op) (ho : s.op ≠ op) :
    exec i s = .refused .commandWhileBusy := by
  cases i <;> simp only [opcodeOf, Option.some.injEq, reduceCtorEq] at hi <;> subst hi <;>
    simp only [exec, execAvailable, execSetup, execPutByte, execGetByte, execCharReceived, execCharReceivedGet, execTxBusy,
      execEnable, execDisable, execRtsctsEnable, execRtsctsDisable, execPuts, asCommand, if_neg hn, if_neg ho]

/-- The accept step: the latches of 10_state.md R23, or a refusal. -/
inductive AcceptMove (i : Instr) (s : State) : Result → Prop
  | available (h : Word) (e : i = .available h) :
      AcceptMove i s (.next { s with op := opAvailable, hnd := h, fsm := .avRd })
  | setup (h a0 a1 a2 : Word) (j : Inst) (e : i = .setup h a0 a1 a2) :
      AcceptMove i s (.next { s with op := opSetup, hnd := h, sel := j, clk := a0, bd := a1, irqm := a2, fsm := .suRes })
  | putByte (h : Word) (b : Byte) (j : Inst) (e : i = .putByte h b) :
      AcceptMove i s (.next { s with op := opPutByte, hnd := h, sel := j, b := b, fsm := .pbPoll })
  | puts (h : Word) (str : List Byte) (j : Inst) (e : i = .puts h str) (w : i.wellFormed = true) :
      AcceptMove i s (.next { s with op := opPuts, hnd := h, sel := j, str := str, fsm := .psNext })
  | plain (h : Word) (j : Inst) (op : BitVec 4) (entry : Fsm)
      (e : (i, op, entry) ∈ [(.getByte h, opGetByte, .gbPoll), (.charReceived h, opCharReceived, .crRd),
        (.charReceivedGet h, opCharReceivedGet, .cgRd), (.txBusy h, opTxBusy, .tbRd), (.enable h, opEnable, .rmwRd),
        (.disable h, opDisable, .rmwRd), (.rtsctsEnable h, opRtsctsEnable, .rmwRd), (.rtsctsDisable h, opRtsctsDisable, .rmwRd)]) :
      AcceptMove i s (.next { s with op := op, hnd := h, sel := j, fsm := entry })
  | unknownHandle : AcceptMove i s (.refused .unknownHandle)
  | notWellFormed (w : i.wellFormed = false) : AcceptMove i s (.refused (.notWellFormed .terminatorInString))

/-- A command in IDLE: the accept step. -/
theorem exec_accept {i : Instr} {s : State} (hf : s.fsm = .idle) (hc : isCommand i = true) : AcceptMove i s (exec i s) := by
  have key : ∀ (op : BitVec 4) (h : Word) (e : Fsm) (t : State),
      accept op h e t = .refused .unknownHandle ∨ ∃ j, accept op h e t = .next { t with op := op, hnd := h, sel := j, fsm := e } := by
    intro op h e t
    rcases accept_cases op h e t with ⟨j, _, r⟩ | ⟨_, r⟩
    · exact .inr ⟨j, r⟩
    · exact .inl r
  cases i <;> simp only [isCommand, reduceCtorEq] at hc <;>
    simp only [exec, execAvailable, execSetup, execPutByte, execGetByte, execCharReceived, execCharReceivedGet, execTxBusy,
      execEnable, execDisable, execRtsctsEnable, execRtsctsDisable, execPuts, asCommand, if_pos hf]
  case available h => exact .available h rfl
  case setup h a0 a1 a2 =>
    rcases key opSetup h .suRes { s with clk := a0, bd := a1, irqm := a2 } with r | ⟨j, r⟩ <;> rw [r]
    · exact .unknownHandle
    · exact .setup h a0 a1 a2 j rfl
  case putByte h b =>
    rcases key opPutByte h .pbPoll { s with b := b } with r | ⟨j, r⟩ <;> rw [r]
    · exact .unknownHandle
    · exact .putByte h b j rfl
  case puts h str =>
    split
    · rcases key opPuts h .psNext { s with str := str } with r | ⟨j, r⟩ <;> rw [r]
      · exact .unknownHandle
      · exact .puts h str j rfl ‹_›
    · exact .notWellFormed (by rename_i hw; exact eq_false_of_ne_true hw)
  all_goals
    rename_i h
    rcases key _ h _ s with r | ⟨j, r⟩ <;> rw [r]
    · exact .unknownHandle
    · exact .plain h j _ _ (by simp)

/-- The command the latches stand for has the opcode in `OP`. -/
theorem opcodeOf_runningCommand {s : State} {i : Instr} (h : runningCommand s = some i) : opcodeOf i = some s.op := by
  unfold runningCommand at h
  split at h <;> simp only [Option.some.injEq, reduceCtorEq] at h <;> subst h <;> rename_i ho <;>
    simp only [opcodeOf, Option.some.injEq] <;> exact BitVec.eq_of_toNat_eq ho.symm

/-- The decoder of commands answers commands only. -/
theorem isCommand_of_decodeCommand {ws rest : List Word} {i : Instr} (h : decodeCommand ws = .ok i rest) : isCommand i = true := by
  unfold decodeCommand at h
  split at h
  · simp at h
  · split at h
    · simp at h
    · split at h
      · simp at h
      · unfold decodeOperands at h
        repeat' split at h
        all_goals first
          | (simp only [Decoded.ok.injEq] at h; obtain ⟨rfl, _⟩ := h; rfl)
          | simp at h

/-- The sequencer's turn: it takes an accept step, makes a move, waits, or stops. -/
theorem seqStep_cases (s : State) :
    (∃ i rest, s.fsm = .idle ∧ decodeCommand s.offers = .ok i rest ∧ seqStep s = exec i { s with offers := rest }) ∨
    (s.fsm = .idle ∧ decodeCommand s.offers = .incomplete ∧ seqStep s = .next s) ∨
    (∃ e, s.fsm = .idle ∧ decodeCommand s.offers = .malformed e ∧ seqStep s = .refused (.notWellFormed e)) ∨
    (s.fsm ≠ .idle ∧ SeqMove s (seqStep s)) := by
  unfold seqStep fetch
  by_cases hf : s.fsm = .idle
  · rw [if_pos hf]
    cases hd : decodeCommand s.offers with
    | ok i rest => exact .inl ⟨i, rest, hf, rfl, rfl⟩
    | incomplete => exact .inr (.inl ⟨hf, rfl, rfl⟩)
    | malformed e => exact .inr (.inr (.inl ⟨e, hf, rfl, rfl⟩))
  · rw [if_neg hf]
    refine .inr (.inr (.inr ⟨hf, ?_⟩))
    cases hr : runningCommand s with
    | some i => exact exec_move hf (opcodeOf_runningCommand hr)
    | none => exact .lost

/-- What a step that answers a next state did: the sequencer's turn, a back-end step or an input, or reset. -/
theorem step_cases {s t : State} (h : step s = .next t) :
    (nextEvent s = .seq ∧ seqStep (takeTurn s) = .next t) ∨
    (∃ i f, t = onPeriph i f (takeTurn s) ∧
      ((nextEvent s = .txLoad i ∧ f = Periph.txLoad) ∨ (nextEvent s = .txDone i ∧ f = Periph.txDone) ∨
        (∃ b, nextEvent s = .rxArrive i b ∧ f = Periph.rxArrive s.cfg i b) ∨
        (∃ b, nextEvent s = .cts i b ∧ f = Periph.setCts b))) ∨
    (nextEvent s = .reset ∧ t = assertReset (takeTurn s)) := by
  unfold step at h
  cases he : nextEvent s <;> rw [he] at h <;> simp only [turn, Host.Outcome.next.injEq] at h
  case seq => exact .inl ⟨rfl, h⟩
  case txLoad i => exact .inr (.inl ⟨i, _, h.symm, by simp⟩)
  case txDone i => exact .inr (.inl ⟨i, _, h.symm, by simp⟩)
  case rxArrive i b => exact .inr (.inl ⟨i, _, h.symm, by simp⟩)
  case cts i b => exact .inr (.inl ⟨i, _, h.symm, by simp⟩)
  case reset => exact .inr (.inr ⟨rfl, h.symm⟩)

end Sys2Proof.Machine
end

