-- ==== Sys2Proof/Laws/RegisterFile.lean ====
section
/-! SUPPORT. What the register file does with an access: the address of a register word is read back as its header, and the access
of a port instruction runs that instruction. -/

namespace Sys2Proof.Machine

/-- What an access decodes to is a port transaction. -/
theorem isCommand_of_decodeAccess {c : Config} {a : PortAccess} {i : Instr} (h : decodeAccess c a = some i) : isCommand i = false := by
  unfold decodeAccess at h
  split at h
  · unfold decodeHeader at h
    split at h <;> simp at h <;> subst h <;> rfl
  · simp at h

theorem offset_lt (off : BitVec 3) : off.setWidth 32 < 8#32 := by revert off; decide

theorem offset_self (off : BitVec 3) : (off.setWidth 32).extractLsb' 0 3 = off := by revert off; decide

theorem portAddress_sub_base (c : Config) (i : Inst) (off : BitVec 3) :
    portAddress c i off - (c.inst i).base = off.setWidth 32 := by
  simp [portAddress, BitVec.add_comm]

/-- An address of instance 1's range is outside instance 0's. -/
theorem portAddress_i1_apart {c : Config} (hc : c.wf) (off : BitVec 3) : ¬(portAddress c .i1 off - c.c0.base < 8#32) := by
  obtain ⟨_, _, h1, h2, _⟩ := hc
  have e : portAddress c .i1 off - c.c0.base = (c.c1.base - c.c0.base) + off.setWidth 32 := by
    simp [portAddress, Config.inst, BitVec.sub_add_comm]
  have hn : c.c0.base - c.c1.base = -(c.c1.base - c.c0.base) := by simp
  rw [hn, BitVec.toNat_neg] at h2
  rw [e]
  generalize c.c1.base - c.c0.base = d at h1 h2 ⊢
  show ¬((d + off.setWidth 32).toNat < 8)
  rw [BitVec.toNat_add, BitVec.toNat_setWidth]
  have := off.isLt
  have := d.isLt
  omega

/-- The address of a register word is read back as its instance and offset. -/
theorem accessHeader_portAddress {c : Config} (hc : c.wf) (we : Bool) (i : Inst) (off : BitVec 3) (v : Word) :
    accessHeader c { we := we, size := .word, addr := portAddress c i off, wdata := v } = some (bitOf we ++ off, i) := by
  cases i with
  | i0 => simp [accessHeader, portAddress_sub_base c .i0, show c.c0.base = (c.inst .i0).base from rfl, offset_lt, offset_self]
  | i1 =>
    have h0 := portAddress_i1_apart hc off
    simp [accessHeader, h0, show c.c1.base = (c.inst .i1).base from rfl, portAddress_sub_base, offset_lt, offset_self]

/-- The access of a port instruction decodes to that instruction, but for a read's write word. -/
theorem decodeAccess_accessOf {c : Config} (hc : c.wf) (header : BitVec 4) (i : Inst) (v : Word) :
    decodeAccess c (accessOf c header i v) = decodeHeader header i v := by
  have e : bitOf (header.getLsbD 3) ++ header.extractLsb' 0 3 = header := by revert header; decide
  unfold decodeAccess accessOf
  rw [accessHeader_portAddress hc, e]

/-- The register file runs a port instruction's access as that instruction, for proper parameters. -/
theorem registerFile_request {s : State} {i : Instr} {a : PortAccess} (hc : s.cfg.wf) (h : requestOf s.cfg i = some a) :
    registerFile a s = exec i s := by
  cases i <;> simp only [requestOf, encode, Option.some.injEq, reduceCtorEq] at h <;> subst h <;>
    simp only [registerFile, decodeAccess_accessOf hc] <;> rfl

/-- An access that is no port transaction is refuse(M12). -/
theorem registerFile_none {s : State} {a : PortAccess} (h : decodeAccess s.cfg a = none) : registerFile a s = .refused .badAccess := by
  simp only [registerFile, h]

end Sys2Proof.Machine
end

