-- ==== Sys2Proof/Tests/Slice0.lean ====
section
/-! SUPPORT. Tests with expected results from the spec (95_test_vectors.md and the encoding tables of 30_encoding.md), and one witness for
the hypotheses of every obligation that has any. -/

namespace Sys2Proof.Tests

open Sys2Proof.Machine

/-! ## Helpers -/

def nextOf : Result → Option State
  | .next t => some t
  | .fault _ => none
  | .refused _ => none

def refusalOf : Result → Option Refusal
  | .next _ => none
  | .fault _ => none
  | .refused r => some r

/-- The stored fields of a control word in layout `L0`. -/
def stored (w : Word) : Stored := (unpack Layout.l0 w).stored

/-- An instance with the stored fields of `w`. -/
def inst (w : Word) (txq : List Byte) (txsh : Option Byte) (rxq : List Byte) : Periph :=
  { ctrl := stored w, txq := txq, txsh := txsh, rxq := rxq, wireTx := [], cts := false }

/-- The example parameters with other queue depths for instance 0. -/
def deep (tx rx : BitVec 4) : Config :=
  { Config.vectors with c0 := { Config.vectors.c0 with txdLog2 := tx, rxdLog2 := rx } }

/-- Reset state with instance 0 replaced. -/
def on0 (p : Periph) (c : Config := Config.vectors) : State := { State.resetOf c with p0 := p }

/-- The command with opcode `op` stands in state `f`, on instance `i`, which is `p`. -/
def at' (f : Fsm) (op : BitVec 4) (p : Periph) (c : Config := Config.vectors) (i : Inst := .i0) : State :=
  { State.resetOf c with fsm := f, op := op, sel := i }.setPeriph i p

abbrev base0 : Word := 0xFFF50000#32
abbrev base1 : Word := 0xFFF60000#32

/-- The golden control word, instance idle. -/
def golden : Periph := inst 0x7CC1#32 [] none []

/-- What a run of a command shows: state, `R0`, last bus cycle, and instance 0's queues. -/
structure Shown where
  fsm  : Fsm
  r0   : Word
  bus  : Option BusCycle
  txq  : List Byte
  txsh : Option Byte
  rxq  : List Byte
deriving DecidableEq, Repr

def show0 (r : Result) : Option Shown :=
  (nextOf r).map (fun t => { fsm := t.fsm, r0 := t.r0, bus := t.bus, txq := t.p0.txq, txsh := t.p0.txsh, rxq := t.p0.rxq })

/-! ## Decoding: every row's words, written out from 30_encoding.md R88 to R90 (95_test_vectors.md 2.5) -/

theorem test_decode_available : decodeCommand [0x00000000#32, 0xFFF50000#32] = .ok (.available base0) [] := by decide
theorem test_decode_setup :
    decodeCommand [0x00000001#32, 0xFFF50000#32, 0x0124F800#32, 0x00004B00#32, 0x00000000#32] =
      .ok (.setup base0 19200000#32 19200#32 0#32) [] := by decide
theorem test_decode_putByte : decodeCommand [0x00004102#32, 0xFFF50000#32] = .ok (.putByte base0 0x41#8) [] := by decide
theorem test_decode_putByte_zero : decodeCommand [0x00000002#32, 0xFFF60000#32] = .ok (.putByte base1 0#8) [] := by decide
theorem test_decode_getByte : decodeCommand [0x00000003#32, 0xFFF50000#32] = .ok (.getByte base0) [] := by decide
theorem test_decode_charReceived : decodeCommand [0x00000004#32, 0xFFF50000#32] = .ok (.charReceived base0) [] := by decide
theorem test_decode_charReceivedGet : decodeCommand [0x00000005#32, 0xFFF50000#32] = .ok (.charReceivedGet base0) [] := by
  decide
theorem test_decode_txBusy : decodeCommand [0x00000006#32, 0xFFF50000#32] = .ok (.txBusy base0) [] := by decide
theorem test_decode_enable : decodeCommand [0x00000007#32, 0xFFF50000#32] = .ok (.enable base0) [] := by decide
theorem test_decode_disable : decodeCommand [0x00000008#32, 0xFFF50000#32] = .ok (.disable base0) [] := by decide
theorem test_decode_rtsctsEnable : decodeCommand [0x00000009#32, 0xFFF50000#32] = .ok (.rtsctsEnable base0) [] := by decide
theorem test_decode_rtsctsDisable : decodeCommand [0x0000000A#32, 0xFFF50000#32] = .ok (.rtsctsDisable base0) [] := by decide
theorem test_decode_puts :
    decodeCommand [0x0000000B#32, 0xFFF50000#32, 0x00000048#32, 0x00000069#32, 0x0000000A#32, 0x00000000#32, 0x6#32] =
      .ok (.puts base0 [0x48#8, 0x69#8, 0x0A#8]) [0x6#32] := by decide
theorem test_decode_puts_empty : decodeCommand [0x0000000B#32, 0xFFF50000#32, 0#32] = .ok (.puts base0 []) [] := by decide
theorem test_decode_headers :
    decodeHeader 0b0000#4 .i1 7#32 = some (.portRdCtrl .i1) ∧ decodeHeader 0b0100#4 .i1 7#32 = some (.portRdData .i1) ∧
    decodeHeader 0b1000#4 .i1 7#32 = some (.portWrCtrl .i1 7#32) ∧ decodeHeader 0b1100#4 .i0 7#32 = some (.portWrData .i0 7#32) := by
  decide
/-- The twelve other headers are no transaction (30_encoding.md R88). -/
theorem test_decode_header_rest :
    ∀ h ∈ [1#4, 2#4, 3#4, 5#4, 6#4, 7#4, 9#4, 10#4, 11#4, 13#4, 14#4, 15#4], decodeHeader h .i0 0#32 = none := by decide

/-- 95_test_vectors.md A1 to A5 and A8. -/
theorem test_A1_A8_opcode : decodeCommand [0x0000000C#32, 0x12345678#32] = .malformed .undefinedOpcode := by decide
theorem test_A2_reserved4 : decodeCommand [0x00000013#32, 0xFFF50000#32] = .malformed .reservedBits := by decide
theorem test_A3_reserved16 : decodeCommand [0x00010003#32, 0xFFF50000#32] = .malformed .reservedBits := by decide
theorem test_A4_stray_byte : decodeCommand [0x00004103#32, 0xFFF50000#32] = .malformed .strayByte := by decide
theorem test_A5_wide_character :
    decodeCommand [0x0000000B#32, 0xFFF50000#32, 0x00000141#32, 0#32] = .malformed .wideCharacter := by decide
theorem test_decode_incomplete : decodeCommand [0x00000001#32, 0xFFF50000#32, 1#32, 2#32] = .incomplete := by decide

/-- The host's words: a row's word decodes, and the very next step runs it. -/
theorem test_tableWord :
    decodeTableWord 64 0x0000000000004102 = some (.putByte 0#32 0x41#8) ∧ decodeTableWord 4 0b1100 = some (.portWrData .i0 0#32) ∧
    decodeTableWord 64 0x0000000C = none ∧ decodeTableWord 4 0b0001 = none := by decide
theorem test_withFetchWord_command :
    (nextOf (step (State.reset.withFetchWord 64 0xFFF5000000004102))).map (fun t => (t.fsm, t.op, t.hnd, t.b)) =
      some (.pbPoll, 0x2#4, base0, 0x41#8) := by decide
/-- The four port rows: the sequencer's next step issues the row's transaction. -/
theorem test_withFetchWord_port :
    [0b0000, 0b0100, 0b1000, 0b1100].map (fun w => (State.reset.withFetchWord 4 w).transaction) =
      [0b0000, 0b0100, 0b1000, 0b1100].map (decodeTableWord 4) ∧
    (nextOf (step (State.reset.withFetchWord 4 0b1000))).map State.bus = some (some (.regWrite .i0 offCtrl 0#32)) ∧
    (nextOf (step (State.reset.withFetchWord 4 0b1100))).map State.bus = some (some (.regWrite .i0 offData 0#32)) := by decide

/-! ## WellFormed smoke -/

theorem test_wellFormed_refuses_terminator : (Instr.puts base0 [0x48#8, 0x00#8]).wellFormed = false := by decide
theorem test_exec_refuses_terminator :
    refusalOf (exec (.puts base0 [0x48#8, 0x00#8]) State.reset) = some (.notWellFormed .terminatorInString) := by decide

/-! ## Unpacker and packer (95_test_vectors.md 2.1) -/

theorem test_unpack_all : unpack Layout.l0 0xFFFFFFFF#32 =
    { en := 1#1, sim := 1#1, hwfc := 1#1, prsc := 3#2, baud := 1023#10, rxNempty := 1#1, txFull := 1#1, irq := 31#5, txBusy := 1#1 } := by
  decide
theorem test_unpack_reserved : unpack Layout.l0 0x781E0020#32 = unpack Layout.l0 0#32 := by decide
theorem test_unpack_flow : unpack Layout.l0 0x0040A295#32 =
    { en := 1#1, sim := 0#1, hwfc := 1#1, prsc := 2#2, baud := 650#10, rxNempty := 0#1, txFull := 0#1, irq := 1#5, txBusy := 0#1 } := by
  decide
theorem test_unpack_busy : unpack Layout.l0 0x8061A291#32 =
    { en := 1#1, sim := 0#1, hwfc := 0#1, prsc := 2#2, baud := 650#10, rxNempty := 1#1, txFull := 1#1, irq := 1#5, txBusy := 1#1 } := by
  decide
theorem test_pack_row4 :
    pack Layout.l0 { en := 0#1, sim := 1#1, hwfc := 1#1, prsc := 3#2, baud := 1023#10, irq := 21#5 } = 0x0540FFDE#32 := by decide
theorem test_pack_row5 :
    pack Layout.l0 { en := 1#1, sim := 1#1, hwfc := 1#1, prsc := 3#2, baud := 1023#10, irq := 31#5 } = 0x07C0FFDF#32 := by decide
theorem test_unpackData :
    unpackData Layout.l0 0x00001241#32 = { rtx := 0x41#8, rxFifo := 2#4, txFifo := 1#4 } ∧
    unpackData Layout.l0 0x00002161#32 = { rtx := 0x61#8, rxFifo := 1#4, txFifo := 2#4 } ∧
    unpackData Layout.l0 0xFFFF00FF#32 = { rtx := 0xFF#8, rxFifo := 0#4, txFifo := 0#4 } := by decide

/-! ## Port transactions (95_test_vectors.md 2.2) -/

theorem test_T2 : (nextOf (exec (.portRdCtrl .i0) (on0 golden))).map State.bus = some (some (.regRead .i0 offCtrl 0x7CC1#32)) := by
  decide
theorem test_T3_T5 :
    ctrlValue .i0 (on0 (inst 0x7CC1#32 [0x41#8] none [])) = 0x80207CC1#32 ∧
    ctrlValue .i0 (on0 (inst 0x7CC1#32 [0x41#8] none []) (deep 1#4 0#4)) = 0x80007CC1#32 ∧
    ctrlValue .i0 (on0 (inst 0x7CC1#32 [] (some 0x41#8) [0x61#8])) = 0x80017CC1#32 := by decide
theorem test_T6 : (nextOf (exec (.portWrCtrl .i0 0xFFFFFFFF#32) (on0 (inst 0#32 [] none [0x61#8])))).map State.p0 =
    some (inst 0x07C0FFDF#32 [] none [0x61#8]) := by decide
theorem test_T7_T8 :
    (nextOf (exec (.portWrCtrl .i0 0x80217CC0#32) (on0 (inst 0x7CC1#32 [0x41#8] (some 0x40#8) [0x61#8])))).map State.p0 =
      some (inst 0x7CC0#32 [] none []) ∧
    (nextOf (exec (.portWrCtrl .i0 0x80217CC0#32) (on0 (inst 0x7CC1#32 [0x41#8] (some 0x40#8) [0x61#8])
      { Config.vectors with en0Flush := false }))).map State.p0 = some (inst 0x7CC0#32 [0x41#8] (some 0x40#8) [0x61#8]) := by
  decide
theorem test_T9_T13 :
    (nextOf (exec (.portWrData .i0 0xABCDEF41#32) (on0 golden))).map (fun t => t.p0.txq) = some [0x41#8] ∧
    (nextOf (exec (.portWrData .i0 0x42#32) (on0 (inst 0x7CC1#32 [0x41#8] none [])))).map (fun t => t.p0.txq) = some [0x41#8] ∧
    (nextOf (exec (.portWrData .i0 0x41#32) (on0 (inst 0x7CC0#32 [] none [])))).map (fun t => t.p0.txq) = some [] ∧
    refusalOf (exec (.portWrData .i0 0x41#32) (on0 (inst 0x7CC3#32 [] none []))) = some .simRedirect := by decide
theorem test_T14 : show0 (exec (.portRdData .i0) (on0 (inst 0x7CC1#32 [] none [0x41#8, 0x42#8]) (deep 1#4 2#4))) =
    some ⟨.idle, 0#32, some (.regRead .i0 offData 0x1241#32), [], none, [0x42#8]⟩ := by decide
/-- T16, T17: nothing is removed; the byte is a free value. -/
theorem test_T17 : (nextOf (exec (.portRdData .i0) (on0 (inst 0x7CC0#32 [] none [0x42#8])
    { Config.vectors with en0Flush := false }))).map (fun t => t.p0.rxq) = some [0x42#8] := by decide
/-- T18: no transaction but the four. -/
theorem test_T18 :
    decodeAccess Config.vectors { we := false, size := .byte, addr := 0xFFF50001#32, wdata := 0#32 } = none ∧
    decodeAccess Config.vectors { we := false, size := .word, addr := 0xFFF50008#32, wdata := 0#32 } = none ∧
    decodeAccess Config.vectors { we := true, size := .word, addr := 0xFFF60004#32, wdata := 9#32 } = some (.portWrData .i1 9#32) := by
  decide

/-! ## The resolver and SETUP (95_test_vectors.md 2.3, 2.4) -/

theorem test_resolve_ordinary :
    resolve Config.vectors 19200000#32 19200#32 = .value 38400#32 19200000#32 0#32 500#32 ∧
    resolve Config.vectors 100000000#32 2400#32 = .value 4800#32 100000000#32 3#32 651#32 ∧
    resolve Config.vectors 1000000#32 500000#32 = .value 1000000#32 1000000#32 0#32 1#32 := by decide
theorem test_resolve_loop_bound :
    resolve Config.vectors 39244800#32 19200#32 = .value 38400#32 39244800#32 0#32 1022#32 ∧
    resolve Config.vectors 39283200#32 19200#32 = .value 38400#32 39283200#32 1#32 511#32 := by decide
theorem test_tap_thresholds :
    [1022, 1023, 2045, 2046, 4091, 4092, 32735, 32736, 65471, 65472].map (fun n => selectTap (BitVec.ofNat 32 n)) =
      [(0#32, 1022#32), (1#32, 511#32), (1#32, 1022#32), (2#32, 511#32), (2#32, 1022#32), (3#32, 127#32), (3#32, 1022#32),
        (4#32, 511#32), (4#32, 1022#32), (5#32, 127#32)] := by decide
theorem test_tap_largest :
    selectTap 2147483647#32 = (18#32, 511#32) ∧ selectTap 0xFFFFFFFF#32 = (19#32, 511#32) := by decide
theorem test_resolve_wrapped : resolve Config.vectors 100000000#32 0x80000005#32 = .value 10#32 100000000#32 10#32 610#32 := by
  decide
theorem test_subtract_trace :
    resolve { Config.vectors with divStrategy := .subtract } 100#32 20#32 = .value 40#32 20#32 0#32 2#32 := by decide

theorem test_setupWord :
    setupWord Config.vectors 0#32 500#32 0#32 = 0x00007CC1#32 ∧ setupWord Config.vectors 0#32 500#32 0x04000000#32 = 0x04007CC1#32 ∧
    setupWord Config.vectors 0#32 500#32 0xFFFFFFFF#32 = 0x07C07CC1#32 ∧ setupWord Config.vectors 0#32 500#32 0x1F#32 = 0x7CC1#32 ∧
    setupWord { Config.vectors with setupEn := 0#1 } 0#32 500#32 0#32 = 0x7CC0#32 ∧
    setupWord { Config.vectors with setupSim := 1#1 } 0#32 500#32 0#32 = 0x7CC3#32 := by decide
theorem test_setupWord_taps :
    setupWord Config.vectors 4#32 511#32 0#32 = 0x7F81#32 ∧ setupWord Config.vectors 3#32 156#32 0#32 = 0x26D9#32 ∧
    setupWord Config.vectors 0#32 0#32 0#32 = 0xFFC1#32 := by decide
/-- Program P1, step 2: the whole command from reset. -/
theorem test_setup_run :
    (nextOf (runCommand (.setup base0 19200000#32 19200#32 0#32) 3 State.reset)).map
      (fun t => (t.fsm, t.den, t.raw, t.bus)) =
      some (.idle, 38400#32, 500#32, some (.regWrite .i0 offCtrl 0x7CC1#32)) := by decide
theorem test_setup_divide_by_zero :
    refusalOf (runCommand (.setup base0 19200000#32 0#32 0#32) 3 State.reset) = some .divideByZero := by decide

/-! ## AVAILABLE and the accept step (95_test_vectors.md 2.5) -/

theorem test_available_present : show0 (runCommand (.available base0) 2 State.reset) =
    some ⟨.idle, 1#32, some (.capRead 0x04040000#32), [], none, []⟩ := by decide
theorem test_available_A9_A10 :
    show0 (runCommand (.available 0x12345678#32) 2 State.reset) = some ⟨.idle, 0#32, none, [], none, []⟩ ∧
    show0 (runCommand (.available 0xFFF50004#32) 2 State.reset) = some ⟨.idle, 0#32, none, [], none, []⟩ := by decide
theorem test_available_cap :
    (nextOf (runCommand (.available base1) 2 (State.resetOf { Config.vectors with cap := 0x00040000#32 }))).map State.r0 = some 0#32 ∧
    (nextOf (runCommand (.available base1) 2 (State.resetOf { Config.vectors with cap := 0x04000000#32 }))).map State.r0 = some 1#32 := by
  decide
theorem test_A6_A7 :
    refusalOf (exec (.putByte 0xFFF50004#32 0x41#8) State.reset) = some .unknownHandle ∧
    refusalOf (exec (.getByte 0#32) State.reset) = some .unknownHandle := by decide

/-! ## The I/O commands (95_test_vectors.md 2.6) -/

theorem test_V1 : show0 (runCommand (.putByte base0 0x41#8) 3 (on0 golden)) =
    some ⟨.idle, 0#32, some (.regWrite .i0 offData 0x41#32), [0x41#8], none, []⟩ := by decide
theorem test_V2_V4 :
    show0 (runCommand (.putByte base0 0x42#8) 2 (on0 (inst 0x7CC1#32 [0x41#8] none []))) =
      some ⟨.pbPoll, 0#32, some (.regRead .i0 offCtrl 0x80207CC1#32), [0x41#8], none, []⟩ ∧
    show0 (runCommand (.putByte base0 0x41#8) 3 (on0 (inst 0x7CC0#32 [] none []))) =
      some ⟨.idle, 0#32, some (.regWrite .i0 offData 0x41#32), [], none, []⟩ := by decide
theorem test_V6 : show0 (runCommand (.getByte base0) 3 (on0 (inst 0x7CC1#32 [] none [0x61#8]))) =
    some ⟨.idle, 0x61#32, some (.regRead .i0 offData 0x61#32), [], none, []⟩ := by decide
theorem test_V8 : show0 (runCommand (.getByte base0) 3 (on0 golden)) =
    some ⟨.gbPoll, 0#32, some (.regRead .i0 offCtrl 0x7CC1#32), [], none, []⟩ := by decide
theorem test_V10_V11 :
    show0 (runCommand (.charReceived base0) 2 (on0 golden)) =
      some ⟨.idle, 0#32, some (.regRead .i0 offCtrl 0x7CC1#32), [], none, []⟩ ∧
    show0 (runCommand (.charReceived base0) 2 (on0 (inst 0x7CC1#32 [] none [0x61#8]))) =
      some ⟨.idle, 1#32, some (.regRead .i0 offCtrl 0x17CC1#32), [], none, [0x61#8]⟩ := by decide
theorem test_V12 : show0 (runCommand (.charReceivedGet base0) 2 (on0 (inst 0x7CC1#32 [] none [0x0D#8, 0x31#8]) (deep 0#4 1#4))) =
    some ⟨.idle, 0x0D#32, some (.regRead .i0 offData 0x10D#32), [], none, [0x31#8]⟩ := by decide
theorem test_V13 : (nextOf (runCommand (.charReceivedGet base0) 2 (on0 golden))).map (fun t => (t.fsm, t.p0)) = some (.idle, golden) := by
  decide
theorem test_V14_V16 :
    (nextOf (runCommand (.txBusy base0) 2 (on0 golden))).map State.r0 = some 0#32 ∧
    (nextOf (runCommand (.txBusy base0) 2 (on0 (inst 0x7CC1#32 [] (some 0x41#8) [])))).map State.r0 = some 1#32 ∧
    (nextOf (runCommand (.txBusy base0) 2 (on0 (inst 0x7CC1#32 [0x41#8] none []) (deep 1#4 0#4)))).map State.r0 = some 1#32 := by
  decide

/-- The word written and the instance a read-modify-write command leaves. -/
def toggled (i : Instr) (p : Periph) : Option (Option BusCycle × Periph) :=
  (nextOf (runCommand i 3 (on0 p))).map (fun t => (t.bus, t.p0))

theorem test_V17_V19 :
    toggled (.enable base0) (inst 0x7CC0#32 [] none []) = some (some (.regWrite .i0 offCtrl 0x7CC1#32), golden) ∧
    toggled (.enable base0) (inst 0#32 [] none []) = some (some (.regWrite .i0 offCtrl 1#32), inst 1#32 [] none []) := by decide
theorem test_V20 : toggled (.disable base0) (inst 0x7CC1#32 [0x41#8] none [0x61#8]) =
    some (some (.regWrite .i0 offCtrl 0x80217CC0#32), inst 0x7CC0#32 [] none []) := by decide
theorem test_V21 : toggled (.rtsctsEnable base0) golden =
    some (some (.regWrite .i0 offCtrl 0x7CC5#32), inst 0x7CC5#32 [] none []) := by decide
theorem test_V22_V23 :
    toggled (.rtsctsDisable base0) (inst 0x7CC5#32 [] none []) = some (some (.regWrite .i0 offCtrl 0x7CC1#32), golden) ∧
    toggled (.rtsctsDisable base0) (inst 0x40A291#32 [] none []) =
      some (some (.regWrite .i0 offCtrl 0x40A291#32), inst 0x40A291#32 [] none []) := by decide

theorem test_V24 : show0 (runCommand (.puts base0 []) 2 (on0 golden)) = some ⟨.idle, 0#32, none, [], none, []⟩ := by decide
theorem test_V28 : (nextOf (runCommand (.puts base0 [0x61#8, 0x0A#8, 0x0A#8, 0x62#8]) 18 (on0 golden (deep 3#4 0#4)))).map
    (fun t => (t.fsm, t.p0.txq)) = some (.idle, [0x61#8, 0x0D#8, 0x0A#8, 0x0D#8, 0x0A#8, 0x62#8]) := by decide

/-! ## Back-end steps (95_test_vectors.md 2.7) -/

theorem test_B1_B2 :
    (inst 0x7CC1#32 [0x41#8, 0x42#8] none []).txLoad = inst 0x7CC1#32 [0x42#8] (some 0x41#8) [] ∧
    (inst 0x7CC1#32 [0x42#8] (some 0x41#8) []).txLoad = inst 0x7CC1#32 [0x42#8] (some 0x41#8) [] := by decide
theorem test_B3 : (inst 0x7CC1#32 [0x42#8] (some 0x41#8) []).txDone =
    { inst 0x7CC1#32 [0x42#8] none [] with wireTx := [0x41#8] } := by decide
theorem test_B5_B6 :
    Periph.rxArrive Config.vectors .i0 0x61#8 golden = inst 0x7CC1#32 [] none [0x61#8] ∧
    Periph.rxArrive Config.vectors .i0 0x62#8 (inst 0x7CC1#32 [] none [0x61#8]) = inst 0x7CC1#32 [] none [0x61#8] := by decide
theorem test_B8 :
    (inst 0x7CC5#32 [0x42#8] none []).txLoadEnabled = false ∧ (Periph.setCts true (inst 0x7CC5#32 [0x42#8] none [])).txLoadEnabled = true := by
  decide

/-! ## Witnesses: states and operands that meet the hypotheses of the obligations, per clause -/

/-- An instance with one byte queued, one in the shifter and one received. -/
def loaded : Periph := inst 0x7CC1#32 [0x41#8] (some 0x40#8) [0x61#8]

theorem witness_layout : Layout.l0.wf := by decide
theorem witness_config : Config.vectors.wf := by decide

theorem witness_DecodeInvertsEncode :
    (Instr.puts base0 [0x41#8]).wellFormed = true ∧ (Instr.puts base0 []).wellFormed = true ∧
    (Instr.setup base1 1#32 2#32 3#32).wellFormed = true ∧ (Instr.portWrData .i1 0xFFFFFFFF#32).wellFormed = true := by decide

theorem witness_DecodedWordsAreTheEncoding :
    decodeCommand [0x0000FF02#32, 0#32, 5#32] = .ok (.putByte 0#32 0xFF#8) [5#32] ∧
    decodeHeader 0b0100#4 .i1 5#32 = some (.portRdData .i1) ∧ decodeHeader 0b1000#4 .i1 5#32 = some (.portWrCtrl .i1 5#32) := by
  decide

/-- An access at the register port. -/
def wordAt (we : Bool) (addr : Word) : PortAccess := { we := we, size := .word, addr := addr, wdata := 5#32 }

theorem witness_OnlyTheFourWordsAreAccessible :
    State.reset.cfg.wf ∧ (wordAt true 0xFFF60004#32).size = .word ∧
    0xFFF50000#32 = portAddress State.reset.cfg .i0 offCtrl ∧ 0xFFF60000#32 = portAddress State.reset.cfg .i1 offCtrl ∧
    0xFFF50004#32 = portAddress State.reset.cfg .i0 offData ∧ 0xFFF60004#32 = portAddress State.reset.cfg .i1 offData := by decide
/-- The boundary: half words, the byte after and the word after the four. -/
theorem witness_OnlyTheFourWordsAreAccessible_refused :
    refusalOf (registerFile { wordAt false 0xFFF50000#32 with size := .half } State.reset) = some .badAccess ∧
    refusalOf (registerFile (wordAt true 0xFFF60001#32) State.reset) = some .badAccess ∧
    refusalOf (registerFile (wordAt true 0xFFF60008#32) State.reset) = some .badAccess ∧
    refusalOf (registerFile (wordAt false 0xFFF4FFFC#32) State.reset) = some .badAccess := by decide

theorem witness_CtrlReadReturnsFieldsAndStatus :
    (State.resetOf (deep 15#4 15#4)).cfg.layout.wf ∧ ctrlValue .i1 (State.reset.setPeriph .i1 loaded) = 0x80217CC1#32 := by decide

theorem witness_CtrlWriteReplacesStoredFields :
    (on0 loaded).cfg.layout.wf ∧ ((on0 loaded).periph .i0).emptyWhenOff Config.vectors ∧
    ((on0 (inst 0x7CC0#32 [] none [])).periph .i0).emptyWhenOff Config.vectors := by decide

theorem witness_DataWriteQueuesLowByte :
    ((at' .idle 0#4 (inst 0x7CC3#32 [] none []) Config.vectors .i1).periph .i1).ctrl.sim = 1#1 ∧
    ((on0 golden).periph .i0).ctrl.sim = 0#1 := by decide

theorem witness_DataReadPopsOldestByte :
    ((on0 loaded).periph .i0).ctrl.en = 1#1 ∧ ((on0 loaded).periph .i0).rxq = 0x61#8 :: [] ∧
    ((on0 (inst 0x7CC0#32 [] none [0x61#8])).periph .i0).ctrl.en = 0#1 ∧ ((on0 golden).periph .i0).rxq = [] := by decide

theorem witness_StatusBitsAreFunctionsOfTheQueues :
    txFull Config.vectors .i1 loaded = 1#1 ∧ (Config.vectors.inst .i1).txdLog2 = 0#4 ∧ loaded.txq = [0x41#8] ∧ (inst 0x7CC0#32 [] none []).emptyWhenOff Config.vectors ∧
    (inst 0x7CC0#32 [] none []).ctrl.en = 0#1 ∧ Config.vectors.en0Flush = true := by decide

theorem witness_AcceptLatchesOperands :
    State.reset.fsm = .idle ∧ base0 = State.reset.cfg.c0.base ∧ base1 ≠ State.reset.cfg.c0.base ∧ base1 = State.reset.cfg.c1.base ∧
    0xFFF50004#32 ≠ State.reset.cfg.c0.base ∧ 0xFFF50004#32 ≠ State.reset.cfg.c1.base ∧ (Instr.txBusy 0xFFF50004#32).wellFormed = true ∧
    (∀ c ∈ [0x41#8, 0xFF#8], c ≠ 0#8) ∧ (∃ c ∈ [0x41#8, 0#8], c = 0#8) := by decide

theorem witness_AvailableReportsPresence :
    (at' .avRd 0x0#4 golden).fsm = .avRd ∧ (at' .avRd 0x0#4 golden).op = 0x0#4 ∧
    { at' .avRd 0x0#4 golden with hnd := base0 }.hnd = Config.vectors.c0.base ∧ base1 ≠ Config.vectors.c0.base ∧
    base1 = Config.vectors.c1.base ∧ 0#32 ≠ Config.vectors.c0.base ∧ 0#32 ≠ Config.vectors.c1.base := by decide

theorem witness_TapLoopClosedForm : 0 < (selectTap 0x3FF#32).1.toNat ∧ (selectTap 0xFFFFFFFF#32).1.toNat = 19 ∧ (selectTap 0x3FE#32).1.toNat = 0 := by decide

theorem witness_StrategiesAgree : (1#32 : Word) ≠ 0#32 ∧ (0xFFFFFFFE#32 : Word) ≠ 0#32 := by decide

theorem witness_StoredFieldsOfTheResolver :
    (1#32 : Word) ≠ 0#32 ∧ (selectTap 32735#32).1 = 3#32 ∧ (selectTap 32736#32).1 = 4#32 := by decide

theorem witness_ResolverRange :
    denominator 0x7FFFFFFF#32 ≠ 0#32 ∧ denominator 1#32 ≠ 0#32 ∧ denominator 0x80000001#32 ≠ 0#32 ∧ 1 ≤ (2#32 : Word).toNat / (denominator 1#32).toNat := by decide

theorem witness_ResolverApproximatesTheRate :
    1 ≤ (1#32 : Word).toNat ∧ (1#32 : Word).toNat < 2 ^ 31 ∧ 1 ≤ (0x7FFFFFFF#32 : Word).toNat ∧ (0x7FFFFFFF#32 : Word).toNat < 2 ^ 31 := by
  decide

/-- Both ends of the usable range: quotient 1 and quotient 32735 (95_test_vectors.md 2.3, "last tap 3"). -/
theorem witness_UsableSetupKeepsTheRate :
    UsableSetup 1000000#32 500000#32 ∧ UsableSetup 65470#32 1#32 ∧ ¬UsableSetup 65472#32 1#32 ∧ UsableBaud Config.vectors 19200#32 := by
  decide

theorem witness_TooSlowClockWraps : (1000000#32 : Word) < denominator 500001#32 ∧ (0#32 : Word) < denominator 9600#32 := by decide

theorem witness_TooLargeBaudWraps : 2 ^ 31 ≤ (0x80000005#32 : Word).toNat ∧ 2 ^ 31 ≤ (0x80000000#32 : Word).toNat := by decide

theorem witness_ZeroDenominatorHangsOrIsRefused :
    (at' .suRes 0x1#4 golden).fsm = .suRes ∧ (at' .suRes 0x1#4 golden).op = 0x1#4 ∧
    denominator (at' .suRes 0x1#4 golden).bd = 0#32 ∧ denominator 0x80000000#32 = 0#32 ∧
    (at' .suRes 0x1#4 golden).cfg.divStrategy = .divide ∧ (at' .suRes 0x1#4 golden).cfg.div0Result = none ∧
    (at' .suRes 0x1#4 golden { Config.vectors with divStrategy := .subtract }).cfg.divStrategy = .subtract ∧
    (at' .suRes 0x1#4 golden { Config.vectors with div0Result := some 0xFFFFFFFF#32 }).cfg.div0Result = some 0xFFFFFFFF#32 := by decide

theorem witness_SetupResolvesThenWritesOnce :
    denominator { at' .suRes 0x1#4 golden with bd := 19200#32 }.bd ≠ 0#32 ∧
    (at' .suWr 0x1#4 golden Config.vectors .i1).fsm = .suWr ∧ (at' .suWr 0x1#4 golden Config.vectors .i1).op = 0x1#4 ∧
    (at' .suWr 0x1#4 golden Config.vectors .i1).cfg.layout.wf := by decide

theorem witness_PutBytePollsThenWrites :
    (at' .pbPoll 0x2#4 loaded).op = 0x2#4 ∧ (at' .pbPoll 0x2#4 loaded).cfg.layout.wf ∧ (at' .pbPoll 0x2#4 loaded).fsm = .pbPoll ∧
    (at' .pbWr 0x2#4 golden Config.vectors .i1).fsm = .pbWr ∧
    ((at' .pbWr 0x2#4 golden Config.vectors .i1).periph .i1).ctrl.sim = 0#1 ∧
    ((at' .pbWr 0x2#4 (inst 0x7CC3#32 [] none [])).periph .i0).ctrl.sim = 1#1 := by decide

theorem witness_TxBusyReportsUnsentData :
    (at' .tbRd 0x6#4 loaded).fsm = .tbRd ∧ (at' .tbRd 0x6#4 loaded).op = 0x6#4 ∧ (at' .tbRd 0x6#4 loaded).cfg.layout.wf := by decide

theorem witness_PutsWalk :
    (at' .psNext 0xB#4 golden).op = 0xB#4 ∧ (at' .psNext 0xB#4 golden).cfg.layout.wf ∧ (at' .psNext 0xB#4 golden).fsm = .psNext ∧
    (at' .psNext 0xB#4 golden).str = [] ∧ { at' .psNext 0xB#4 golden with str := [0x0A#8] }.str = 0x0A#8 :: [] ∧
    (at' .psCrPoll 0xB#4 golden).fsm = .psCrPoll ∧ (at' .psChPoll 0xB#4 golden).fsm = .psChPoll ∧
    (at' .psCrWr 0xB#4 golden).fsm = .psCrWr ∧ ((at' .psChWr 0xB#4 golden).periph .i0).ctrl.sim = 0#1 ∧
    ((at' .psChWr 0xB#4 (inst 0x7CC3#32 [] none []) Config.vectors .i1).periph .i1).ctrl.sim = 1#1 := by decide

/-- With the room exactly used up. -/
theorem witness_PutsQueuesTheTranslatedString :
    (on0 golden (deep 1#4 0#4)).fsm = .idle ∧ (on0 golden (deep 1#4 0#4)).cfg.layout.wf ∧
    resolveHandle (on0 golden (deep 1#4 0#4)).cfg base0 = some .i0 ∧ (∀ c ∈ [0x0A#8], c ≠ 0#8) ∧
    ((on0 golden (deep 1#4 0#4)).periph .i0).ctrl.en = 1#1 ∧ ((on0 golden (deep 1#4 0#4)).periph .i0).ctrl.sim = 0#1 ∧
    ((on0 golden (deep 1#4 0#4)).periph .i0).txq.length + (translateNewlines [0x0A#8]).length ≤ txCap (on0 golden (deep 1#4 0#4)).cfg .i0 := by
  decide

theorem witness_TranslationLaws : 0x0A#8 ∉ [0x0D#8, 0x41#8] := by decide

theorem witness_GetBytePollsThenReads :
    (at' .gbPoll 0x3#4 golden).op = 0x3#4 ∧ (at' .gbPoll 0x3#4 golden).cfg.layout.wf ∧ (at' .gbPoll 0x3#4 golden).fsm = .gbPoll ∧
    (at' .gbRd 0x3#4 loaded Config.vectors .i1).fsm = .gbRd ∧ ((at' .gbRd 0x3#4 loaded Config.vectors .i1).periph .i1).ctrl.en = 1#1 ∧
    ((at' .gbRd 0x3#4 loaded Config.vectors .i1).periph .i1).rxq = 0x61#8 :: [] ∧ ((at' .gbRd 0x3#4 golden).periph .i0).rxq = [] := by
  decide

theorem witness_CharReceivedReportsData :
    (at' .crRd 0x4#4 loaded).fsm = .crRd ∧ (at' .crRd 0x4#4 loaded).op = 0x4#4 ∧ (at' .crRd 0x4#4 loaded).cfg.layout.wf := by decide

theorem witness_CharReceivedGetTakesByte :
    (at' .cgRd 0x5#4 loaded).fsm = .cgRd ∧ (at' .cgRd 0x5#4 loaded).op = 0x5#4 ∧ (at' .cgRd 0x5#4 loaded).cfg.layout.wf ∧
    ((at' .cgRd 0x5#4 loaded).periph .i0).ctrl.en = 1#1 ∧ ((at' .cgRd 0x5#4 loaded).periph .i0).rxq = 0x61#8 :: [] ∧
    ((at' .cgRd 0x5#4 (inst 0x7CC0#32 [] none [0x61#8])).periph .i0).ctrl.en = 0#1 ∧ ((at' .cgRd 0x5#4 golden).periph .i0).rxq = [] := by
  decide

theorem witness_GetByteIsItsNonblockingSplit :
    (on0 loaded).fsm = .idle ∧ (on0 loaded).cfg.layout.wf ∧ resolveHandle (on0 loaded).cfg base0 = some .i0 ∧
    ((on0 loaded).periph .i0).ctrl.en = 1#1 ∧ ((on0 loaded).periph .i0).rxq ≠ [] := by decide

theorem witness_ToggleReadsControl :
    (at' .rmwRd 0x7#4 loaded).fsm = .rmwRd ∧ (at' .rmwRd 0x7#4 loaded).cfg.layout.wf ∧ (at' .rmwRd 0x7#4 loaded).op = 0x7#4 ∧
    (at' .rmwRd 0x8#4 loaded).op = 0x8#4 ∧ (at' .rmwRd 0x9#4 loaded).op = 0x9#4 ∧ (at' .rmwRd 0xA#4 loaded).op = 0xA#4 := by decide

/-- The write's turn of the command `op`, as `RMW_RD` leaves it. -/
def writing (op : BitVec 4) : State := { at' .rmwWr op loaded with w := 0x80217CC1#32 }

theorem witness_ToggleChangesOneField :
    ∀ op ∈ [0x7#4, 0x8#4, 0x9#4, 0xA#4], (writing op).op = op ∧ (writing op).fsm = .rmwWr ∧ (writing op).cfg.layout.wf ∧
      (writing op).freshLatch := by decide

theorem witness_ToggleTwiceIsOnce :
    (on0 loaded).fsm = .idle ∧ (on0 loaded).cfg.layout.wf ∧ resolveHandle (on0 loaded).cfg base1 = some .i1 := by decide

/-- Runs that go on, for the statements about a next state. -/
theorem witness_frames :
    (nextOf (exec (.putByte base0 0#8) (at' .pbWr 0x2#4 golden))).isSome = true ∧
    (nextOf (exec (.disable base0) (writing 0x8#4))).isSome = true ∧ isCommand (.disable base0) = true ∧ (writing 0x8#4).bus = none ∧
    (nextOf (exec (.portWrCtrl .i1 0#32) (writing 0x8#4))).isSome = true ∧ isCommand (.portWrCtrl .i1 0#32) = false ∧
    Inst.i1 ≠ targetOf (writing 0x8#4) (.disable base0) := by decide

/-- The next event is `e`. -/
def when' (e : Event) (s : State) : State := { s with agenda := [e] }

theorem witness_OnlyTheSequencerReachesThePort :
    (at' .gbPoll 0x3#4 loaded).cfg.wf ∧ (when' .seq (writing 0x8#4)).transaction = some (.portWrCtrl .i0 0x80217CC0#32) ∧
    (nextOf (step (when' .seq (writing 0x8#4)))).isSome = true ∧ (at' .avRd 0x0#4 golden).transaction = none ∧
    (nextOf (step (when' .seq (at' .avRd 0x0#4 golden)))).isSome = true ∧
    nextEvent (when' (.txDone .i0) (at' .gbPoll 0x3#4 loaded)) ≠ .seq := by decide

/-- `SU_RES` stays only in the subtraction that never ends. -/
theorem witness_OnlyListedTransitions_hang : (nextOf (step (when' .seq (at' .suRes 0x1#4 golden
    { Config.vectors with divStrategy := .subtract })))).map State.fsm = some .suRes ∧
    (nextOf (step State.reset)).map State.fsm = some .idle ∧ decodeCommand State.reset.offers = .incomplete := by decide

theorem witness_OnlyListedTransitions :
    (nextOf (step (when' .seq (at' .gbPoll 0x3#4 loaded)))).map State.fsm = some .gbRd ∧
    (nextOf (step (when' .reset (at' .gbPoll 0x3#4 golden)))).map State.fsm = some .idle ∧
    (nextOf (step (when' (.txLoad .i0) (at' .gbPoll 0x3#4 golden)))).map State.fsm = some .gbPoll := by decide

theorem witness_PollsLeaveOnlyOnStatus :
    (nextOf (step (when' .seq (at' .gbPoll 0x3#4 loaded)))).map State.fsm = some .gbRd ∧
    (nextOf (step (when' .seq (at' .pbPoll 0x2#4 golden)))).map State.fsm = some .pbWr ∧
    (nextOf (step (when' .seq (at' .psCrPoll 0xB#4 golden)))).map State.fsm = some .psCrWr ∧
    (nextOf (step (when' .seq (at' .psChPoll 0xB#4 golden)))).map State.fsm = some .psChWr ∧
    nextEvent (when' .seq (at' .gbPoll 0x3#4 loaded)) ≠ .reset ∧ (at' .gbPoll 0x3#4 loaded).cfg.layout.wf := by decide

theorem witness_OnlySetupChangesBaudFields :
    (nextOf (step (when' .seq { at' .suWr 0x1#4 golden with raw := 434#32 }))).map (fun t => t.p0.ctrl.baud) = some 433#10 ∧
    (when' .seq (at' .suWr 0x1#4 golden)).freshLatch ∧
    (when' .seq (writing 0x7#4)).freshLatch := by decide

theorem witness_StepRunsTheDecodedInstruction :
    nextEvent { State.reset with offers := [3#32, base0] } = .seq ∧ decodeCommand [3#32, base0] = .ok (.getByte base0) [] ∧
    nextEvent (when' .seq (at' .gbPoll 0x3#4 golden)) = .seq ∧ (at' .gbPoll 0x3#4 golden).fsm ≠ .idle ∧
    runningCommand (at' .gbPoll 0x3#4 golden) = some (.getByte 0#32) ∧
    decodeAccess State.reset.cfg { we := true, size := .word, addr := base1, wdata := 5#32 } = some (.portWrCtrl .i1 5#32) ∧
    nextEvent { State.reset with offers := [0xC#32] } = .seq ∧ decodeCommand [0xC#32] = .malformed .undefinedOpcode ∧
    nextEvent State.reset = .seq ∧ decodeCommand State.reset.offers = .incomplete := by decide

theorem witness_ResetFromAnyState : nextEvent (when' .reset (at' .gbPoll 0x3#4 loaded)) = .reset := by decide

theorem witness_TxLoadMovesOldestByte :
    nextEvent (when' (.txLoad .i1) State.reset) = .txLoad .i1 ∧ (inst 0x7CC1#32 [0x41#8] none []).fits Config.vectors .i0 ∧
    (inst 0x7CC1#32 [0x41#8] none []).ctrl.en = 1#1 ∧ (inst 0x7CC1#32 [0x41#8] none []).txsh = none ∧
    (inst 0x7CC1#32 [0x41#8] none []).txq = 0x41#8 :: [] ∧ (inst 0x7CC1#32 [0x41#8] none []).ctrl.hwfc ≠ 1#1 ∧
    { inst 0x7CC5#32 [0x41#8] none [] with cts := true }.ctrl.hwfc = 1#1 ∧
    (inst 0x7CC5#32 [0x41#8] none []).cts = false ∧ (inst 0x7CC0#32 [] none []).ctrl.en = 0#1 ∧ loaded.txsh ≠ none ∧
    golden.txq = [] := by decide

theorem witness_TxDonePutsByteOnWire :
    nextEvent (when' (.txDone .i0) (on0 loaded)) = .txDone .i0 ∧ loaded.ctrl.en = 1#1 ∧ loaded.txsh = some 0x40#8 ∧
    golden.txsh = none ∧ (inst 0x7CC0#32 [] (some 0x40#8) []).ctrl.en = 0#1 := by decide

theorem witness_RxArriveQueuesOrLoses :
    nextEvent (when' (.rxArrive .i1 7#8) State.reset) = .rxArrive .i1 7#8 ∧ golden.ctrl.en = 1#1 ∧
    golden.rxq.length < rxCap Config.vectors .i1 ∧ rxCap Config.vectors .i1 ≤ loaded.rxq.length ∧
    (inst 0x7CC0#32 [] none []).ctrl.en = 0#1 := by decide

/-- The three ways the accepted bytes go: kept by an engine, extended by a write, cut by a flush. -/
theorem witness_AcceptedBytesAreKeptInOrder :
    (nextOf (step (when' (.txDone .i0) (on0 loaded)))).map (fun t => t.p0.accepted) = some [0x40#8, 0x41#8] ∧
    (nextOf (step (when' .seq { at' .pbWr 0x2#4 golden with b := 9#8 }))).map (fun t => t.p0.accepted) = some [9#8] ∧
    (nextOf (step (when' .seq (writing 0x8#4)))).map (fun t => t.p0.accepted) = some [] := by decide

theorem witness_OtherAgentsKeepPolledStatus :
    ((at' .pbPoll 0x2#4 loaded).periph .i0).fits Config.vectors .i0 ∧
    (nextOf (step (when' (.txDone .i0) (at' .pbPoll 0x2#4 loaded)))).isSome = true ∧
    nextEvent (when' (.txDone .i0) (at' .pbPoll 0x2#4 loaded)) ≠ .seq ∧ rxNempty loaded = 1#1 ∧ txFull Config.vectors .i0 golden = 0#1 := by decide

theorem witness_ResetMeetsInvariant : Config.vectors.wf ∧ (deep 15#4 15#4).wf := by decide

/-- A polling command meets the invariant. -/
theorem witness_Inv : (at' .pbPoll 0x2#4 loaded).Inv :=
  { params := by decide, fits0 := by decide, fits1 := by decide, off0 := by decide, off1 := by decide, walk := by decide,
    clean := by decide, room := by decide, data := by decide, fresh := by decide }

theorem witness_InstancesDoNotInterfere : Event.rxArrive .i1 7#8 = .txLoad .i1 ∨ Event.rxArrive .i1 7#8 = .txDone .i1 ∨
    ∃ b, Event.rxArrive .i1 7#8 = .rxArrive .i1 b := .inr (.inr ⟨7#8, rfl⟩)

theorem witness_StepKeepsInvariant : (nextOf (step (at' .pbPoll 0x2#4 loaded))).isSome = true := by decide

/-- Each refusal of the four is reached from a state like those. -/
theorem witness_StepNeverFaults :
    refusalOf (step { State.reset with offers := [3#32, 0#32] }) = some .unknownHandle ∧
    refusalOf (step { State.reset with offers := [0x13#32] }) = some (.notWellFormed .reservedBits) ∧
    refusalOf (step (at' .suRes 0x1#4 golden)) = some .divideByZero ∧
    refusalOf (step (at' .pbWr 0x2#4 (inst 0x7CC3#32 [] none []))) = some .simRedirect := by decide

theorem witness_PutByteCompletesWhenFair :
    (at' .pbPoll 0x2#4 loaded).agenda = [] ∧ (at' .pbPoll 0x2#4 loaded).fsm = .pbPoll ∧ (at' .pbPoll 0x2#4 loaded).op = 0x2#4 ∧
    loaded.ctrl.en = 1#1 ∧ loaded.ctrl.sim = 0#1 ∧ loaded.ctrl.hwfc = 0#1 := by decide

/-- With an agenda on which bytes arrive for the other instance only. -/
theorem witness_GetByteHangsWithoutSender :
    (at' .gbPoll 0x3#4 golden).cfg.wf ∧ (at' .gbPoll 0x3#4 golden).fsm = .gbPoll ∧ (at' .gbPoll 0x3#4 golden).op = 0x3#4 ∧
    ((at' .gbPoll 0x3#4 golden).periph .i0).rxq = [] := by decide
theorem witness_GetByteHangsWithoutSender_agenda :
    ∀ e ∈ [Event.rxArrive .i1 1#8, .seq, .txDone .i0, .cts .i0 true],
      e ≠ .reset ∧ ∀ b, e ≠ .rxArrive .i0 b := by
  simp

theorem witness_PutByteHangsWithoutClearToSend :
    (at' .pbPoll 0x2#4 (inst 0x7CC5#32 [0x41#8] none [])).cfg.wf ∧ (inst 0x7CC5#32 [0x41#8] none []).ctrl.hwfc = 1#1 ∧
    (inst 0x7CC5#32 [0x41#8] none []).cts = false ∧ (inst 0x7CC5#32 [0x41#8] none []).txq.length = txCap Config.vectors .i0 ∧
    ∀ e ∈ [Event.txLoad .i0, .seq, .cts .i1 true, .cts .i0 false, .rxArrive .i0 7#8],
      e ≠ .reset ∧ e ≠ .cts .i0 true := by decide

end Sys2Proof.Tests
end

section
/-! SUPPORT. The register model (40_register_model.md): what the four port transactions and AVAILABLE do. -/

namespace Sys2Proof.Machine

/-! ## Words made of fields, and their masks -/

theorem placeField_zero {n pos : Nat} : placeField pos 0#n = 0#32 := by simp [placeField]

/-- A placed field lies inside its own mask. -/
theorem placeField_and_fieldMask {n pos : Nat} (v : BitVec n) : placeField pos v &&& fieldMask n pos = placeField pos v := by
  apply BitVec.eq_of_getLsbD_eq
  intro k hk
  rw [BitVec.getLsbD_and, fieldMask, getLsbD_placeField, getLsbD_placeField, BitVec.getLsbD_allOnes]
  cases hv : v.getLsbD (k - pos) with
  | false => simp
  | true => simp [BitVec.lt_of_getLsbD hv]

/-- Words inside two masks, put together, lie inside the two masks put together. -/
theorem or_and_or_of_and_eq {a b m n : Word} (ha : a &&& m = a) (hb : b &&& n = b) : (a ||| b) &&& (m ||| n) = a ||| b := by
  rw [← ha, ← hb]
  apply BitVec.eq_of_getLsbD_eq
  intro k _
  simp only [BitVec.getLsbD_and, BitVec.getLsbD_or]
  cases m.getLsbD k <;> cases n.getLsbD k <;> simp

/-- A word inside a mask has no bit outside it. -/
theorem and_not_eq_zero_of_and_eq {a m : Word} (h : a &&& m = a) : a &&& ~~~m = 0#32 := by
  rw [← h, BitVec.and_assoc, BitVec.and_not_self]
  exact BitVec.and_zero

theorem pack_and_maskStored (l : Layout) (f : Stored) : pack l f &&& maskStored l = pack l f :=
  or_and_or_of_and_eq (or_and_or_of_and_eq (or_and_or_of_and_eq (or_and_or_of_and_eq (or_and_or_of_and_eq
    (placeField_and_fieldMask _) (placeField_and_fieldMask _)) (placeField_and_fieldMask _)) (placeField_and_fieldMask _))
    (placeField_and_fieldMask _)) (placeField_and_fieldMask _)

/-- Reserved bits of a CTRL word as read are 0 (40_register_model.md R121). -/
theorem ctrlWord_reserved (c : Config) (i : Inst) (p : Periph) :
    ctrlWord c i p &&& ~~~(maskStored c.layout ||| maskStatus c.layout) = 0#32 := by
  apply and_not_eq_zero_of_and_eq
  rw [maskStatus, ← BitVec.or_assoc, ← BitVec.or_assoc]
  exact or_and_or_of_and_eq (or_and_or_of_and_eq (or_and_or_of_and_eq (pack_and_maskStored _ _)
    (placeField_and_fieldMask _)) (placeField_and_fieldMask _)) (placeField_and_fieldMask _)

/-- The stored fields with every bit 1: what `maskStored` packs. -/
def Stored.ones : Stored :=
  { en := BitVec.allOnes 1, sim := BitVec.allOnes 1, hwfc := BitVec.allOnes 1, prsc := BitVec.allOnes 2,
    baud := BitVec.allOnes 10, irq := BitVec.allOnes 5 }

theorem maskStored_eq_pack_ones (l : Layout) : maskStored l = pack l Stored.ones := rfl

/-- Unpacking a packed word gives the stored fields back (40_register_model.md R112). -/
theorem stored_unpack_pack {l : Layout} (h : l.wf) (f : Stored) : (unpack l (pack l f)).stored = f := by
  have e := unpack_statusWord h f 0#1 0#1 0#1
  simp only [placeField_zero, BitVec.or_zero] at e
  rw [e]
  rfl

/-- Bits of a word outside a mask do not show in a field that the mask covers. -/
theorem takeField_merge {n pos : Nat} {m : Word} (hm : takeField n pos m = BitVec.allOnes n) (v junk : Word) :
    takeField n pos ((v &&& m) ||| (junk &&& ~~~m)) = takeField n pos v := by
  apply BitVec.eq_of_getLsbD_eq
  intro k hk
  have hmk : (takeField n pos m).getLsbD k = true := by simp only [hm, BitVec.getLsbD_allOnes, hk, decide_true]
  simp only [getLsbD_takeField, hk, decide_true, Bool.true_and] at hmk
  simp [getLsbD_takeField, hmk]

/-- The status and reserved bits of a word do not show in its stored fields (40_register_model.md R122). -/
theorem stored_unpack_merge {l : Layout} (h : l.wf) (v junk : Word) :
    (unpack l ((v &&& maskStored l) ||| (junk &&& ~~~maskStored l))).stored = (unpack l v).stored := by
  have hm : (unpack l (maskStored l)).stored = Stored.ones := by
    rw [maskStored_eq_pack_ones, stored_unpack_pack h]
  simp only [Unpacked.stored, unpack, Stored.ones, Stored.mk.injEq] at hm ⊢
  obtain ⟨hen, hsim, hhwfc, hprsc, hbaud, hirq⟩ := hm
  exact ⟨takeField_merge hen v junk, takeField_merge hsim v junk, takeField_merge hhwfc v junk, takeField_merge hprsc v junk,
    takeField_merge hbaud v junk, takeField_merge hirq v junk⟩

/-! ## The port transactions -/

theorem exec_portRdCtrl (i : Inst) (s : State) : exec (.portRdCtrl i) s = .next (afterCtrlRead i s) := rfl

theorem exec_portRdData (i : Inst) (s : State) : exec (.portRdData i) s = .next (afterDataRead i s) := rfl

theorem exec_portWrCtrl (i : Inst) (v : Word) (s : State) : exec (.portWrCtrl i v) s = .next (writeCtrl i v s) := rfl

theorem exec_portWrData (i : Inst) (v : Word) (s : State) : exec (.portWrData i v) s = writeData i v s := rfl

/-- A CTRL read shows the stored fields of that instant. -/
theorem stored_unpack_ctrlWord {c : Config} (h : c.layout.wf) (i : Inst) (p : Periph) :
    (unpack c.layout (ctrlWord c i p)).stored = p.ctrl := by
  rw [unpack_ctrlWord h]
  rfl

/-- Writing the stored fields an instance has flushes nothing that is there. -/
theorem writeStored_self {c : Config} {p : Periph} (h : p.emptyWhenOff c) : p.writeStored c p.ctrl = p := by
  rcases writeStored_cases c p.ctrl p with ⟨hen, hflush, e⟩ | ⟨_, e⟩ <;> rw [e]
  obtain ⟨htxq, hrxq, htxsh⟩ := h hen hflush
  cases p
  cases htxq
  cases hrxq
  cases htxsh
  rfl

/-- A DATA word as read, written out: the byte in bits 7:0 and the two nibbles where the layout puts them (30_encoding.md R86). -/
theorem dataWord_eq (c : Config) (i : Inst) (x : Byte) :
    dataWord c i x = x.setWidth 32 ||| (c.inst i).rxdLog2.setWidth 32 <<< c.layout.rxFifo |||
      (c.inst i).txdLog2.setWidth 32 <<< c.layout.txFifo := by
  simp [dataWord, packData, placeField]

/-! ## AVAILABLE -/

/-- AVAILABLE in IDLE takes any handle (10_state.md R23). -/
theorem exec_available_idle {s : State} (h : Word) (hf : s.fsm = .idle) :
    exec (.available h) s = .next { s with op := opAvailable, hnd := h, fsm := .avRd } := by
  simp only [exec, execAvailable, asCommand, if_pos hf]

/-- AVAILABLE's second step. -/
theorem exec_available_avRd {s : State} (h : Word) (hf : s.fsm = .avRd) (ho : s.op = opAvailable) :
    exec (.available h) s = availableRead s := by
  simp only [exec, execAvailable, asCommand, hf, reduceCtorEq, if_false, if_pos ho]

/-- What `AV_RD` does with a handle that names an instance. -/
theorem availableRead_some {s : State} {i : Inst} (h : resolveHandle s.cfg s.hnd = some i) :
    availableRead s = .next { s with bus := some (.capRead s.cfg.cap), r0 := presenceBit s.cfg i s.cfg.cap, fsm := .idle } := by
  simp only [availableRead, h, afterCapRead]

/-- What `AV_RD` does with any other handle. -/
theorem availableRead_none {s : State} (h : resolveHandle s.cfg s.hnd = none) :
    availableRead s = .next { s with r0 := 0#32, fsm := .idle } := by
  simp only [availableRead, h]

/-- The presence bit is the capability word's bit, zero-extended. -/
theorem presenceBit_eq (c : Config) (i : Inst) (cap : Word) :
    presenceBit c i cap = if cap.getLsbD (c.inst i).capBit.toNat then 1#32 else 0#32 := by
  have hbit : takeField 1 (c.inst i).capBit.toNat cap = bitOf (cap.getLsbD (c.inst i).capBit.toNat) := by
    apply BitVec.eq_of_getLsbD_eq
    intro k hk
    obtain rfl : k = 0 := by omega
    rw [getLsbD_takeField]
    simp [bitOf]
  rw [presenceBit, hbit]
  cases cap.getLsbD (c.inst i).capBit.toNat <;> rfl

/-! ## The obligations -/

/-- Settles O8: the word read is `ctrlWord`, whose fields `unpack_ctrlWord` gives and whose other bits are 0. -/
theorem ctrlReadReturnsFieldsAndStatus : Obligations.CtrlReadReturnsFieldsAndStatus := by
  intro s i hl
  have hu := unpack_ctrlWord hl i (s.periph i)
  refine ⟨ctrlWord s.cfg i (s.periph i), exec_portRdCtrl i s, ?_, ?_, ?_, ?_, ctrlWord_reserved s.cfg i (s.periph i)⟩ <;> rw [hu]
  · rfl
  · exact rxNempty_eq_one
  · exact txFull_eq_one
  · exact txBusy_eq_one

/-- Settles O9: the write is `writeStored` of the unpacked word; a word just read unpacks to the fields that are there. -/
theorem ctrlWriteReplacesStoredFields : Obligations.CtrlWriteReplacesStoredFields := by
  intro s i v
  refine ⟨rfl, fun hl junk => stored_unpack_merge hl v junk, ?_⟩
  rintro hl hoff _ rfl
  rw [exec_portWrCtrl, writeCtrl, stored_unpack_ctrlWord hl, writeStored_self hoff]
  exact congrArg _ (setPeriph_periph { s with bus := some (.regWrite i offCtrl (ctrlWord s.cfg i (s.periph i))) } i)

/-- Settles O10: a write is refused or pushes (`writeData_cases`), and a push queues the byte or drops it (`pushTx_cases`). -/
theorem dataWriteQueuesLowByte : Obligations.DataWriteQueuesLowByte := by
  intro s i v
  rw [exec_portWrData]
  rcases writeData_cases i v s with ⟨hsim, e⟩ | ⟨hsim, e⟩
  · exact ⟨fun _ => e, fun h0 => absurd (h0.symm.trans hsim) (by decide)⟩
  · refine ⟨fun h1 => absurd h1 hsim, fun _ => ⟨?_, ?_⟩⟩
    · rw [e]
      rcases pushTx_cases s.cfg i (wordByte v) (s.periph i) with ⟨hen, hroom, ep⟩ | ⟨hdrop, ep⟩ <;> rw [ep]
      · rw [if_pos ⟨bit_ne_zero.mp hen, hroom⟩]
        rfl
      · rw [if_neg]
        rintro ⟨hen, hroom⟩
        rcases hdrop with hoff | hfull
        · exact absurd (hen.symm.trans hoff) (by decide)
        · omega
    · rintro _ rfl
      rw [txBusy_eq_one, txFull_eq_one]
      simp

/-- Settles O11: the two cases of a DATA read, which exclude each other. -/
theorem dataReadPopsOldestByte : Obligations.DataReadPopsOldestByte := by
  intro s i word hword
  obtain rfl : word = dataWord s.cfg i := funext fun x => (hword x).trans (dataWord_eq s.cfg i x).symm
  rw [exec_portRdData]
  rcases afterDataRead_cases i s with ⟨x, q, hen, hq, _, e⟩ | ⟨hno, _, e⟩ <;> rw [e]
  · refine ⟨fun h t _ hht => ?_, ?_⟩
    · obtain ⟨rfl, rfl⟩ := List.cons.inj (hq.symm.trans hht)
      rfl
    · rintro (hoff | hempty)
      · exact absurd (hen.symm.trans hoff) (by decide)
      · exact absurd (hq.symm.trans hempty) (List.cons_ne_nil x q)
  · refine ⟨fun h t hen hht => ?_, fun _ => ⟨Config.freeByte s.draws, rfl⟩⟩
    rcases hno with hoff | hempty
    · exact absurd hen hoff
    · exact absurd (hht.symm.trans hempty) (List.cons_ne_nil h t)

/-- Settles O14: the encoding by evaluation, the two steps by their equations and the three handles by `resolveHandle_cases`. -/
theorem availableReportsPresence : Obligations.AvailableReportsPresence := by
  refine ⟨fun _ => rfl, fun _ h hf => exec_available_idle h hf, fun s h hf ho => ?_⟩
  rw [exec_available_avRd h hf ho]
  rcases resolveHandle_cases s.cfg s.hnd with ⟨h0, e⟩ | ⟨h0, h1, e⟩ | ⟨h0, h1, e⟩
  · rw [availableRead_some e, presenceBit_eq]
    exact ⟨fun _ => rfl, fun n0 => absurd h0 n0, fun n0 => absurd h0 n0⟩
  · rw [availableRead_some e, presenceBit_eq]
    exact ⟨fun e0 => absurd e0 h0, fun _ _ => rfl, fun _ n1 => absurd h1 n1⟩
  · rw [availableRead_none e]
    exact ⟨fun e0 => absurd e0 h0, fun _ e1 => absurd e1 h1, fun _ _ => rfl⟩

end Sys2Proof.Machine
end

section
/-! SUPPORT. The divisor resolver (41_divisor_resolver.md sections 1 and 2): the two quotient strategies, the tap loop by its closed
form, and the fields stored from a result. -/

namespace Sys2Proof.Machine

/-! ## The quotient -/

/-- The subtraction loop, once its bound suffices: the remainder in `CLK`, the floor quotient added to the count
(41_divisor_resolver.md R144). -/
theorem subtractLoop_eq {den : Word} (hden : den ≠ 0#32) (n : Nat) (clk raw : Word) (hn : clk.toNat < n) :
    subtractLoop n clk den raw = (clk % den, raw + clk / den) := by
  have hpos : 0 < den.toNat := BitVec.toNat_pos_of_ne_zero hden
  induction n generalizing clk raw with
  | zero => omega
  | succ n ih =>
    by_cases hle : den ≤ clk
    · have hsub : (clk - den).toNat = clk.toNat - den.toNat := BitVec.toNat_sub_of_le hle
      have hmod : (clk - den) % den = clk % den := by
        apply BitVec.eq_of_toNat_eq
        rw [BitVec.toNat_umod, BitVec.toNat_umod, hsub, ← Nat.mod_eq_sub_mod hle]
      have hdiv : 1#32 + (clk - den) / den = clk / den := by
        apply BitVec.eq_of_toNat_eq
        have hstep : clk.toNat / den.toNat = (clk.toNat - den.toNat) / den.toNat + 1 := Nat.div_eq_sub_div hpos hle
        have hlt : clk.toNat / den.toNat < 2 ^ 32 := (Nat.div_le_self _ _).trans_lt clk.isLt
        rw [BitVec.toNat_add, BitVec.toNat_udiv, BitVec.toNat_udiv, hsub, BitVec.toNat_one (by decide), Nat.add_comm, ← hstep,
          Nat.mod_eq_of_lt hlt]
      rw [subtractLoop, if_pos hle, ih _ _ (by rw [BitVec.le_def] at hle; omega), hmod, BitVec.add_assoc, hdiv]
    · have hlt : clk < den := BitVec.not_le.mp hle
      rw [subtractLoop, if_neg hle, BitVec.umod_eq_of_lt hlt, BitVec.udiv_eq_zero_iff_eq_zero_or_lt.mpr (.inr hlt), BitVec.add_zero]

theorem quotient_divide {c : Config} (hc : c.divStrategy = .divide) (clk : Word) {den : Word} (hden : den ≠ 0#32) :
    quotient c clk den = .value clk (clk / den) := by
  simp only [quotient, hc, if_neg hden]

theorem quotient_subtract {c : Config} (hc : c.divStrategy = .subtract) (clk : Word) {den : Word} (hden : den ≠ 0#32) :
    quotient c clk den = .value (clk % den) (clk / den) := by
  simp only [quotient, hc, if_neg hden, subtractLoop_eq hden _ clk _ (Nat.lt_succ_self _), BitVec.zero_add]

theorem quotient_subtract_zero {c : Config} (hc : c.divStrategy = .subtract) (clk : Word) : quotient c clk 0#32 = .neverEnds := by
  simp only [quotient, hc, if_true]

theorem quotient_divide_ends {c : Config} (hc : c.divStrategy = .divide) (clk den : Word) : quotient c clk den ≠ .neverEnds := by
  by_cases hden : den = 0#32
  · simp only [quotient, hc, if_pos hden]
    cases c.div0Result <;> simp
  · simp [quotient_divide hc clk hden]

/-- Either strategy finds the floor quotient (41_divisor_resolver.md R144), so the tap loop starts from it. -/
theorem resolve_of_denominator_ne_zero (c : Config) (clk : Word) {baud : Word} (h : denominator baud ≠ 0#32) :
    ∃ clk', resolve c clk baud = .value (denominator baud) clk' (selectTap (clk / denominator baud)).1
      (selectTap (clk / denominator baud)).2 := by
  cases hc : c.divStrategy with
  | divide => exact ⟨clk, by simp only [resolve, quotient_divide hc clk h]⟩
  | subtract => exact ⟨clk % denominator baud, by simp only [resolve, quotient_subtract hc clk h]⟩

/-! ## The total shift and the multiplier -/

theorem totalShift_succ (t : Nat) : totalShift (t + 1) = totalShift t + (if t = 2 ∨ t = 4 then 3 else 1) := by
  match t with
  | 0 | 1 | 2 | 3 | 4 => rfl
  | t + 5 =>
    rw [if_neg (by omega)]
    rfl

theorem totalShift_strictMono : StrictMono totalShift := by
  refine strictMono_nat_of_lt_succ fun t => ?_
  rw [totalShift_succ]
  split <;> omega

theorem multiplier_strictMono : StrictMono multiplier := fun _ _ h =>
  Nat.pow_lt_pow_right Nat.one_lt_two (Nat.add_lt_add_left (totalShift_strictMono h) 1)

/-! ## The tap loop -/

/-- The shift at a tap that the loop can reach, as a number. -/
theorem tapShift_ofNat {t : Nat} (ht : t < 2 ^ 32) : tapShift (BitVec.ofNat 32 t) = if t = 2 ∨ t = 4 then 3 else 1 := by
  have heq (k : Nat) (hk : k < 2 ^ 32) : BitVec.ofNat 32 t = BitVec.ofNat 32 k ↔ t = k := by
    rw [← BitVec.toNat_inj, BitVec.toNat_ofNat, BitVec.toNat_ofNat, Nat.mod_eq_of_lt ht, Nat.mod_eq_of_lt hk]
  simp only [tapShift, heq 2 (by decide), heq 4 (by decide)]

/-- One iteration goes from the shift by `s(t)` to the shift by `s(t + 1)`: successive shifts compose
(41_divisor_resolver.md R146). -/
theorem tapLoop_succ (raw0 : Word) (n : Nat) {t : Nat} (ht : t < 2 ^ 32) :
    tapLoop (n + 1) (BitVec.ofNat 32 t) (raw0 >>> totalShift t) =
      if 0x3FF ≤ raw0.toNat >>> totalShift t then tapLoop n (BitVec.ofNat 32 (t + 1)) (raw0 >>> totalShift (t + 1))
      else (BitVec.ofNat 32 t, raw0 >>> totalShift t) := by
  rw [tapLoop, tapShift_ofNat ht, ← BitVec.shiftRight_add, ← totalShift_succ, BitVec.ofNat_add]
  refine if_congr ?_ rfl rfl
  rw [BitVec.le_def, BitVec.toNat_ushiftRight]
  rfl

/-- The loop from tap `t` on ends at the least tap whose total shift brings `raw0` below `0x3FF`, if its bound reaches one. -/
theorem tapLoop_ends (raw0 : Word) (n t : Nat) (hbound : t + n < 2 ^ 32) (hend : raw0.toNat >>> totalShift (t + n) < 0x3FF) :
    ∃ k, t ≤ k ∧ k ≤ t + n ∧
      tapLoop n (BitVec.ofNat 32 t) (raw0 >>> totalShift t) = (BitVec.ofNat 32 k, raw0 >>> totalShift k) ∧
      raw0.toNat >>> totalShift k < 0x3FF ∧ ∀ j, t ≤ j → j < k → 0x3FF ≤ raw0.toNat >>> totalShift j := by
  induction n generalizing t with
  | zero => exact ⟨t, le_rfl, le_rfl, rfl, hend, fun j h1 h2 => absurd h1 (Nat.not_le.mpr h2)⟩
  | succ n ih =>
    rw [tapLoop_succ raw0 n (by omega)]
    by_cases hgo : 0x3FF ≤ raw0.toNat >>> totalShift t
    · have hassoc : t + 1 + n = t + (n + 1) := by omega
      obtain ⟨k, htk, hkn, e, hlt, hmin⟩ := ih (t + 1) (hassoc ▸ hbound) (hassoc ▸ hend)
      refine ⟨k, by omega, by omega, by rw [if_pos hgo, e], hlt, fun j htj hjk => ?_⟩
      rcases Nat.eq_or_lt_of_le htj with rfl | htj
      · exact hgo
      · exact hmin j htj hjk
    · exact ⟨t, le_rfl, by omega, if_neg hgo, Nat.not_le.mp hgo, fun j h1 h2 => absurd h1 (Nat.not_le.mpr h2)⟩

/-- What the tap loop selects (41_divisor_resolver.md R146). -/
theorem selectTap_cases (raw0 : Word) :
    ∃ k, selectTap raw0 = (BitVec.ofNat 32 k, raw0 >>> totalShift k) ∧ (selectTap raw0).1.toNat = k ∧
      raw0.toNat >>> totalShift k < 0x3FF ∧ ∀ j, j < k → 0x3FF ≤ raw0.toNat >>> totalShift j := by
  have hend : raw0.toNat >>> totalShift (0 + 32) < 0x3FF := by
    rw [Nat.shiftRight_eq_zero raw0.toNat _ (raw0.isLt.trans_le (Nat.pow_le_pow_right (by decide) (by decide)))]
    decide
  obtain ⟨k, -, hk, e, hlt, hmin⟩ := tapLoop_ends raw0 32 0 (by decide) hend
  have e' : selectTap raw0 = (BitVec.ofNat 32 k, raw0 >>> totalShift k) := e
  refine ⟨k, e', ?_, hlt, fun j => hmin j (Nat.zero_le j)⟩
  rw [e', BitVec.toNat_ofNat]
  omega

/-- The selected divisor is the quotient shifted by the selected tap's total shift. -/
theorem selectTap_snd_toNat (raw0 : Word) :
    (selectTap raw0).2.toNat = raw0.toNat >>> totalShift (selectTap raw0).1.toNat := by
  obtain ⟨k, e, ek, _, _⟩ := selectTap_cases raw0
  rw [ek, e, BitVec.toNat_ushiftRight]

/-- The taps before the selected one are exactly those whose total shift leaves `raw0` at `0x3FF` or more. -/
theorem lt_selectTap_iff (raw0 : Word) (j : Nat) :
    j < (selectTap raw0).1.toNat ↔ 0x3FF ≤ raw0.toNat >>> totalShift j := by
  obtain ⟨k, _, ek, hlt, hmin⟩ := selectTap_cases raw0
  rw [ek]
  refine ⟨hmin j, fun hj => Nat.lt_of_not_le fun hkj => ?_⟩
  have hanti : raw0.toNat >>> totalShift j ≤ raw0.toNat >>> totalShift k := by
    rw [Nat.shiftRight_eq_div_pow, Nat.shiftRight_eq_div_pow]
    exact Nat.div_le_div_left (Nat.pow_le_pow_right (by decide) (totalShift_strictMono.monotone hkj)) (Nat.two_pow_pos _)
  omega

theorem selectTap_snd_lt (raw0 : Word) : (selectTap raw0).2.toNat < 0x3FF := by
  rw [selectTap_snd_toNat, ← Nat.not_le, ← lt_selectTap_iff]
  exact lt_irrefl _

/-- The thresholds of 41_divisor_resolver.md R146. -/
theorem succ_le_selectTap_iff (raw0 : Word) (t : Nat) :
    t + 1 ≤ (selectTap raw0).1.toNat ↔ 0x3FF * 2 ^ totalShift t ≤ raw0.toNat := by
  rw [Nat.succ_le_iff, lt_selectTap_iff, Nat.shiftRight_eq_div_pow, Nat.le_div_iff_mul_le (Nat.two_pow_pos _)]

/-- Once a shift was made the divisor is at least `0x3FF >> 3` (41_divisor_resolver.md R152). -/
theorem selectTap_snd_ge (raw0 : Word) (h : 1 ≤ (selectTap raw0).1.toNat) : 127 ≤ (selectTap raw0).2.toNat := by
  obtain ⟨t, ht⟩ := Nat.exists_eq_add_of_le' h
  have hbefore : 0x3FF ≤ raw0.toNat >>> totalShift t := (lt_selectTap_iff raw0 t).mp (by omega)
  rw [selectTap_snd_toNat, ht, totalShift_succ, Nat.shiftRight_add]
  split <;> omega

theorem selectTap_snd_pos {raw0 : Word} (h : raw0 ≠ 0#32) : 1 ≤ (selectTap raw0).2.toNat := by
  rcases Nat.eq_zero_or_pos (selectTap raw0).1.toNat with h0 | hpos
  · rw [selectTap_snd_toNat, h0]
    exact BitVec.toNat_pos_of_ne_zero h
  · have := selectTap_snd_ge raw0 hpos
    omega

/-! ## The stored fields -/

theorem prescalerField_toNat (tap : Word) : (prescalerField tap).toNat = tap.toNat % 4 := BitVec.toNat_setWidth 2 tap

theorem baudField_toNat (raw : Word) : (baudField raw).toNat = (raw.toNat + (2 ^ 32 - 1)) % 2 ^ 32 % 1024 := by
  rw [baudField, BitVec.toNat_setWidth, BitVec.toNat_sub, Nat.add_comm]
  rfl

/-- A divisor that the loop gives for a quotient other than 0 is stored without a cut. -/
theorem baudField_selectTap {raw0 : Word} (h : raw0 ≠ 0#32) :
    (baudField (selectTap raw0).2).toNat + 1 = (selectTap raw0).2.toNat := by
  have hpos := selectTap_snd_pos h
  have hlt := selectTap_snd_lt raw0
  rw [baudField_toNat]
  omega

/-- The tap is cut exactly from tap 4 up, which is from `raw0 = 32736` up (41_divisor_resolver.md R148). -/
theorem selectTap_mod_lt_iff (raw0 : Word) :
    (selectTap raw0).1.toNat % 4 < (selectTap raw0).1.toNat ↔ 32736 ≤ raw0.toNat := by
  have h4 : 4 ≤ (selectTap raw0).1.toNat ↔ 32736 ≤ raw0.toNat := succ_le_selectTap_iff raw0 3
  rw [← h4]
  omega

/-! ## The obligations -/

/-- Settles O15: `lt_selectTap_iff` says which taps the loop passes; the thresholds multiply it out. -/
theorem tapLoopClosedForm : Obligations.TapLoopClosedForm := by
  refine ⟨⟨rfl, totalShift_succ⟩, fun raw0 => ⟨selectTap_snd_toNat raw0, selectTap_snd_lt raw0,
    fun t => (lt_selectTap_iff raw0 t).mp, fun t ht => ?_⟩⟩
  obtain ⟨t, rfl⟩ := Nat.exists_eq_add_of_le' ht
  exact succ_le_selectTap_iff raw0 t

/-- Settles O16: both strategies give the word quotient, the subtraction leaves the word remainder (`subtractLoop_eq`). -/
theorem strategiesAgree : Obligations.StrategiesAgree := by
  refine ⟨fun c clk den hden => ⟨clk / den, BitVec.toNat_udiv, quotient_divide rfl clk hden, ?_⟩, fun c clk => ⟨?_, ?_⟩⟩
  · rw [quotient_subtract rfl clk hden, ← BitVec.toNat_umod, BitVec.ofNat_toNat, BitVec.setWidth_eq]
  · exact quotient_subtract_zero rfl clk
  · exact quotient_divide_ends rfl clk 0#32

/-- Settles O19: the fields by their values, the cut by `selectTap_mod_lt_iff`, the example by either strategy's quotient. -/
theorem storedFieldsOfTheResolver : Obligations.StoredFieldsOfTheResolver := by
  refine ⟨fun c raw0 irqm => ?_, fun c => ?_⟩
  · intro f
    have hprsc : f.prsc.toNat = (selectTap raw0).1.toNat % 4 := prescalerField_toNat _
    have hbaud (h : raw0 ≠ 0#32) : f.baud.toNat + 1 = (selectTap raw0).2.toNat := baudField_selectTap h
    refine ⟨hprsc, baudField_toNat _, fun h => ⟨hbaud h, ?_⟩, ?_, ?_, fun h => ?_⟩
    · have := hbaud h
      have := selectTap_snd_lt raw0
      omega
    · rw [hprsc, ← selectTap_mod_lt_iff]
      exact (Nat.mod_le _ _).lt_iff_ne.symm
    · rw [hprsc, multiplier_strictMono.lt_iff_lt, selectTap_mod_lt_iff]
    · rw [bitPeriod, hprsc, hbaud h]
      ring
  · obtain ⟨clk', e⟩ := resolve_of_denominator_ne_zero c 100000000#32 (baud := 300#32) (by decide)
    have htap : selectTap (100000000#32 / denominator 300#32) = (5#32, 325#32) := by decide
    rw [htap] at e
    exact ⟨clk', e, by decide⟩

end Sys2Proof.Machine
end

section
/-! SUPPORT. Commands without a poll (42_blocking_io.md R174, R176 to R179, R182): the DATA read of CHAR_RECEIVED_GET, and the write
of a single-bit command by the one field it changes. -/

namespace Sys2Proof.Machine

/-- Outside IDLE the command in `OP` goes on with its walk (10_state.md R23). -/
theorem asCommand_onward {op : BitVec 4} {s : State} (hn : s.fsm ≠ .idle) (ho : s.op = op) (first onward : Result) :
    asCommand op s first onward = onward := by
  simp only [asCommand, if_neg hn, if_pos ho]

/-! ## CHAR_RECEIVED_GET -/

theorem exec_charReceivedGet_cgRd {s : State} (h : Word) (hf : s.fsm = .cgRd) (ho : s.op = opCharReceivedGet) :
    exec (.charReceivedGet h) s = takeReceived s := by
  have hn : s.fsm ≠ .idle := by simp [hf]
  simp only [exec, execCharReceivedGet, asCommand_onward hn ho, hf]

/-! ## Setting and clearing one bit of a word -/

theorem getLsbD_fieldMask_one_ne {pos k : Nat} (h : k ≠ pos) : (fieldMask 1 pos).getLsbD k = false := by
  rw [fieldMask, getLsbD_placeField, BitVec.getLsbD_allOnes, Bool.and_assoc, ← Bool.decide_and,
    decide_eq_false (p := pos ≤ k ∧ k - pos < 1) (by omega), Bool.and_false]

/-- Two words that have the same bits everywhere but at `pos`. -/
def EqOff (pos : Nat) (v w : Word) : Prop := ∀ k, k ≠ pos → v.getLsbD k = w.getLsbD k

theorem eqOff_setBit (pos : Nat) (w : Word) : EqOff pos (setBit pos w) w := by
  intro k hk
  rw [setBit, BitVec.getLsbD_or, getLsbD_fieldMask_one_ne hk, Bool.or_false]

theorem eqOff_clearBit (pos : Nat) (w : Word) : EqOff pos (clearBit pos w) w := by
  intro k hk
  by_cases hlt : k < 32
  · rw [clearBit, BitVec.getLsbD_and, BitVec.getLsbD_not, getLsbD_fieldMask_one_ne hk, decide_eq_true hlt]
    exact Bool.and_true _
  · rw [BitVec.getLsbD_of_ge _ _ (by omega), BitVec.getLsbD_of_ge _ _ (by omega)]

theorem takeField_fieldMask_one {pos : Nat} (h : pos + 1 ≤ 32) : takeField 1 pos (fieldMask 1 pos) = 1#1 :=
  takeField_placeField_self _ h

theorem takeField_setBit_self {pos : Nat} (h : pos + 1 ≤ 32) (w : Word) : takeField 1 pos (setBit pos w) = 1#1 := by
  rw [setBit, takeField_or, takeField_fieldMask_one h]
  exact BitVec.or_allOnes

theorem takeField_clearBit_self {pos : Nat} (h : pos + 1 ≤ 32) (w : Word) : takeField 1 pos (clearBit pos w) = 0#1 := by
  rw [clearBit, takeField_and, takeField_not _ h, takeField_fieldMask_one h]
  exact BitVec.and_zero

/-- A field without the bit at `pos` is the same in both words. -/
theorem EqOff.takeField_eq {pos n q : Nat} {v w : Word} (h : EqOff pos v w) (hq : pos + 1 ≤ q ∨ q + n ≤ pos) :
    takeField n q v = takeField n q w := by
  apply BitVec.eq_of_getLsbD_eq
  intro k hk
  rw [getLsbD_takeField, getLsbD_takeField, h (q + k) (by omega)]

/-! ## The stored fields of a word with one bit set or cleared -/

/-- `EN` lies in the word, apart from the other stored fields (40_register_model.md R112, "fields do not overlap"). -/
theorem en_apart {l : Layout} (h : l.wf) :
    l.en + 1 ≤ 32 ∧
      ∀ f ∈ [(l.sim, 1), (l.hwfc, 1), (l.prsc, 2), (l.baud, 10), (l.irq, 5)], l.en + 1 ≤ f.1 ∨ f.1 + f.2 ≤ l.en := by
  obtain ⟨hb, hd⟩ := h.1
  simp only [Layout.ctrlFields, List.pairwise_cons, List.mem_cons, List.not_mem_nil, or_false, forall_eq_or_imp,
    forall_eq] at hb hd ⊢
  obtain ⟨hbound, _⟩ := hb
  obtain ⟨⟨hsim, hhwfc, hprsc, hbaud, _, _, hirq, _⟩, _⟩ := hd
  exact ⟨hbound, hsim, hhwfc, hprsc, hbaud, hirq⟩

/-- `HWFC` lies in the word, apart from the other stored fields. -/
theorem hwfc_apart {l : Layout} (h : l.wf) :
    l.hwfc + 1 ≤ 32 ∧
      ∀ f ∈ [(l.en, 1), (l.sim, 1), (l.prsc, 2), (l.baud, 10), (l.irq, 5)], l.hwfc + 1 ≤ f.1 ∨ f.1 + f.2 ≤ l.hwfc := by
  obtain ⟨hb, hd⟩ := h.1
  simp only [Layout.ctrlFields, List.pairwise_cons, List.mem_cons, List.not_mem_nil, or_false, forall_eq_or_imp,
    forall_eq] at hb hd ⊢
  obtain ⟨_, _, hbound, _⟩ := hb
  obtain ⟨⟨_, hen, _⟩, ⟨hsim, _⟩, ⟨hprsc, hbaud, _, _, hirq, _⟩, _⟩ := hd
  exact ⟨hbound, hen.symm, hsim.symm, hprsc, hbaud, hirq⟩

/-- Words that differ at the bit `EN` at most have the same other stored fields. -/
theorem EqOff.stored_unpack_en {l : Layout} (h : l.wf) {v w : Word} (hv : EqOff l.en v w) :
    (unpack l v).stored = { (unpack l w).stored with en := takeField 1 l.en v } := by
  have hd := (en_apart h).2
  simp only [List.mem_cons, List.not_mem_nil, or_false, forall_eq_or_imp, forall_eq] at hd
  obtain ⟨hsim, hhwfc, hprsc, hbaud, hirq⟩ := hd
  simp only [Unpacked.stored, unpack, hv.takeField_eq hsim, hv.takeField_eq hhwfc, hv.takeField_eq hprsc, hv.takeField_eq hbaud,
    hv.takeField_eq hirq]

/-- Words that differ at the bit `HWFC` at most have the same other stored fields. -/
theorem EqOff.stored_unpack_hwfc {l : Layout} (h : l.wf) {v w : Word} (hv : EqOff l.hwfc v w) :
    (unpack l v).stored = { (unpack l w).stored with hwfc := takeField 1 l.hwfc v } := by
  have hd := (hwfc_apart h).2
  simp only [List.mem_cons, List.not_mem_nil, or_false, forall_eq_or_imp, forall_eq] at hd
  obtain ⟨hen, hsim, hprsc, hbaud, hirq⟩ := hd
  simp only [Unpacked.stored, unpack, hv.takeField_eq hen, hv.takeField_eq hsim, hv.takeField_eq hprsc, hv.takeField_eq hbaud,
    hv.takeField_eq hirq]

theorem stored_unpack_setBit_en {l : Layout} (h : l.wf) {w : Word} {c : Stored} (hw : (unpack l w).stored = c) :
    (unpack l (setBit l.en w)).stored = { c with en := 1#1 } := by
  rw [(eqOff_setBit l.en w).stored_unpack_en h, takeField_setBit_self (en_apart h).1, hw]

theorem stored_unpack_clearBit_en {l : Layout} (h : l.wf) {w : Word} {c : Stored} (hw : (unpack l w).stored = c) :
    (unpack l (clearBit l.en w)).stored = { c with en := 0#1 } := by
  rw [(eqOff_clearBit l.en w).stored_unpack_en h, takeField_clearBit_self (en_apart h).1, hw]

theorem stored_unpack_setBit_hwfc {l : Layout} (h : l.wf) {w : Word} {c : Stored} (hw : (unpack l w).stored = c) :
    (unpack l (setBit l.hwfc w)).stored = { c with hwfc := 1#1 } := by
  rw [(eqOff_setBit l.hwfc w).stored_unpack_hwfc h, takeField_setBit_self (hwfc_apart h).1, hw]

theorem stored_unpack_clearBit_hwfc {l : Layout} (h : l.wf) {w : Word} {c : Stored} (hw : (unpack l w).stored = c) :
    (unpack l (clearBit l.hwfc w)).stored = { c with hwfc := 0#1 } := by
  rw [(eqOff_clearBit l.hwfc w).stored_unpack_hwfc h, takeField_clearBit_self (hwfc_apart h).1, hw]

/-! ## The write of a read-modify-write command -/

/-- `RMW_WR` of a command with the function `f`: it writes `f(W)`, whose stored fields are `c` (42_blocking_io.md R182). -/
theorem asCommand_rmwWr {op : BitVec 4} {s : State} {f : Word → Word} {c : Stored} (hf : s.fsm = .rmwWr) (ho : s.op = op)
    (hc : (unpack s.cfg.layout (f s.w)).stored = c) (first : Result) :
    asCommand op s first (rmwWalk f s) = .next
      ({ s with bus := some (.regWrite s.sel offCtrl (f s.w)), fsm := .idle }.setPeriph s.sel
        ((s.periph s.sel).writeStored s.cfg c)) := by
  have hn : s.fsm ≠ .idle := by simp [hf]
  subst hc
  rw [asCommand_onward hn ho, rmwWalk, hf]
  rfl

/-- Stored fields with `EN = 1` flush nothing. -/
theorem writeStored_of_en_one (c : Config) {f : Stored} (h : f.en = 1#1) (p : Periph) :
    p.writeStored c f = { p with ctrl := f } := by
  rcases writeStored_cases c f p with ⟨h0, _⟩ | ⟨_, e⟩
  · exact absurd (h.symm.trans h0) (by decide)
  · exact e

/-- Stored fields with `EN = 0` flush exactly under `EN0_FLUSH` (44_peripheral_backend.md R222). -/
theorem writeStored_of_en_zero (c : Config) {f : Stored} (h : f.en = 0#1) (p : Periph) :
    p.writeStored c f =
      if c.en0Flush = true then { p with ctrl := f, txq := [], rxq := [], txsh := none } else { p with ctrl := f } := by
  simp only [Periph.writeStored, h, true_and]

/-! ## The obligations -/

/-- Settles O33: `CG_RD` is `takeReceived`, whose two cases are the statement's. -/
theorem charReceivedGetTakesByte : Obligations.CharReceivedGetTakesByte := by
  refine ⟨fun _ => rfl, fun s h hf ho hl => ?_⟩
  rw [exec_charReceivedGet_cgRd h hf ho]
  refine ⟨fun x t hen hq => takeReceived_some hl hen hq, fun hno => ⟨Config.freeByte s.draws, takeReceived_none hl ?_⟩⟩
  exact hno.imp_left bit_ne_one.mpr

/-- Settles O36: the word written has the stored fields of `W` but for the one bit, and those of `W` are the register's. -/
theorem toggleChangesOneField : Obligations.ToggleChangesOneField := by
  refine ⟨fun _ => ⟨rfl, rfl, rfl, rfl⟩, by decide, fun s h hf hl hfresh => ?_⟩
  have hw : (unpack s.cfg.layout s.w).stored = (s.periph s.sel).ctrl := hfresh hf
  refine ⟨fun ho => ?_, fun ho => ?_, ?_⟩
  · rw [← writeStored_of_en_one s.cfg rfl]
    exact asCommand_rmwWr hf ho (stored_unpack_setBit_en hl hw) _
  · rw [← writeStored_of_en_zero s.cfg rfl]
    exact asCommand_rmwWr hf ho (stored_unpack_clearBit_en hl hw) _
  · rintro bit i v (⟨ho, rfl, rfl, rfl⟩ | ⟨ho, rfl, rfl, rfl⟩)
    · exact asCommand_rmwWr hf ho (stored_unpack_setBit_hwfc hl hw) _
    · exact asCommand_rmwWr hf ho (stored_unpack_clearBit_hwfc hl hw) _

end Sys2Proof.Machine
end

section
/-! SUPPORT. The decoder and the encoder (30_encoding.md R88 to R91, R95): word 0 by its fields, the words of a string, and the
commands word 0 and the operands come to. -/

namespace Sys2Proof.Machine

/-! ## Word 0 -/

/-- Word 0 as two placed fields (30_encoding.md R89). -/
theorem encodeWord0_eq (op : BitVec 4) (b : Byte) : encodeWord0 op b = placeField 0 op ||| placeField 8 b := by
  simp [encodeWord0, placeField]

@[simp] theorem fieldOp_encodeWord0 (op : BitVec 4) (b : Byte) : fieldOp (encodeWord0 op b) = op := by
  show takeField 4 0 _ = op
  rw [encodeWord0_eq, takeField_or, takeField_placeField_self op (by decide), takeField_placeField_disjoint b (by decide)]
  exact BitVec.or_zero

@[simp] theorem fieldB_encodeWord0 (op : BitVec 4) (b : Byte) : fieldB (encodeWord0 op b) = b := by
  show takeField 8 8 _ = b
  rw [encodeWord0_eq, takeField_or, takeField_placeField_self b (by decide), takeField_placeField_disjoint op (by decide)]
  exact BitVec.zero_or

@[simp] theorem fieldReserved_encodeWord0 (op : BitVec 4) (b : Byte) : fieldReserved (encodeWord0 op b) = (0#4, 0#16) := by
  have hlow : takeField 4 4 (encodeWord0 op b) = 0#4 := by
    rw [encodeWord0_eq, takeField_or, takeField_placeField_disjoint op (by decide), takeField_placeField_disjoint b (by decide)]
    rfl
  have hhigh : takeField 16 16 (encodeWord0 op b) = 0#16 := by
    rw [encodeWord0_eq, takeField_or, takeField_placeField_disjoint op (by decide), takeField_placeField_disjoint b (by decide)]
    rfl
  exact Prod.ext hlow hhigh

/-- A word whose reserved fields are 0 is the encoding of its opcode and byte. -/
theorem encodeWord0_fields {w : Word} (h : fieldReserved w = (0#4, 0#16)) : encodeWord0 (fieldOp w) (fieldB w) = w := by
  obtain ⟨hlow, hhigh⟩ := Prod.mk.inj h
  apply BitVec.eq_of_getLsbD_eq
  intro k hk
  have hlowk := congrArg (fun v : BitVec 4 => v.getLsbD (k - 4)) hlow
  have hhighk := congrArg (fun v : BitVec 16 => v.getLsbD (k - 16)) hhigh
  simp only [BitVec.getLsbD_extractLsb', BitVec.getLsbD_zero] at hlowk hhighk
  rw [encodeWord0_eq, BitVec.getLsbD_or, getLsbD_placeField, getLsbD_placeField, fieldOp, fieldB, BitVec.getLsbD_extractLsb',
    BitVec.getLsbD_extractLsb']
  rcases show k < 4 ∨ (4 ≤ k ∧ k < 8) ∨ (8 ≤ k ∧ k < 16) ∨ 16 ≤ k by omega with h | ⟨h, h'⟩ | ⟨h, h'⟩ | h
  · simp [hk, h, show ¬8 ≤ k by omega]
  · rw [show 4 + (k - 4) = k by omega] at hlowk
    simpa [hk, show ¬k < 4 by omega, show ¬8 ≤ k by omega, show k - 4 < 4 by omega] using hlowk.symm
  · simp [hk, show ¬k < 4 by omega, h, show k - 8 < 8 by omega, show 8 + (k - 8) = k by omega]
  · rw [show 16 + (k - 16) = k by omega] at hhighk
    simpa [hk, show ¬k < 4 by omega, show ¬k - 8 < 8 by omega, show k - 16 < 16 by omega] using hhighk.symm

/-- Word 0 is in order exactly when it has a defined opcode, no reserved bit and no stray byte (30_encoding.md R95). -/
theorem word0Error_eq_none {w : Word} :
    word0Error w = none ↔
      ¬0xC#4 ≤ fieldOp w ∧ fieldReserved w = (0#4, 0#16) ∧ (fieldB w = 0#8 ∨ fieldOp w = opPutByte) := by
  unfold word0Error
  split
  · simp [*]
  · split
    · simp [*]
    · split
      · rename_i h
        simp [*]
      · rename_i hop hres hb
        exact ⟨fun _ => ⟨hop, not_not.mp hres, by tauto⟩, fun _ => rfl⟩

theorem word0Error_encodeWord0 {op : BitVec 4} {b : Byte} (hop : ¬0xC#4 ≤ op) (hb : b = 0#8 ∨ op = opPutByte) :
    word0Error (encodeWord0 op b) = none := by
  simp only [word0Error_eq_none, fieldOp_encodeWord0, fieldReserved_encodeWord0, fieldB_encodeWord0]
  exact ⟨hop, trivial, hb⟩

/-! ## Strings -/

/-- A character word is narrow exactly when it is its own byte, zero-extended. -/
theorem setWidth_fieldChar {w : Word} (h : fieldAboveChar w = 0#24) : (fieldChar w).setWidth 32 = w := by
  apply BitVec.eq_of_getLsbD_eq
  intro k hk
  have habove := congrArg (fun v : BitVec 24 => v.getLsbD (k - 8)) h
  simp only [fieldAboveChar, BitVec.getLsbD_extractLsb', BitVec.getLsbD_zero] at habove
  rw [BitVec.getLsbD_setWidth, fieldChar, BitVec.getLsbD_extractLsb']
  by_cases h8 : k < 8
  · simp [hk, h8]
  · rw [show 8 + (k - 8) = k by omega] at habove
    simpa [hk, h8, show k - 8 < 24 by omega] using habove.symm

@[simp] theorem fieldChar_setWidth (c : Byte) : fieldChar (c.setWidth 32) = c := wordByte_byteWord c

@[simp] theorem fieldAboveChar_setWidth (c : Byte) : fieldAboveChar (c.setWidth 32) = 0#24 := by
  apply BitVec.eq_of_getLsbD_eq
  intro k hk
  rw [fieldAboveChar, BitVec.getLsbD_extractLsb', BitVec.getLsbD_setWidth, BitVec.getLsbD_of_ge c _ (by omega)]
  simp

theorem StringRead.cons_eq_ok {c : Byte} {r : StringRead} {s : List Byte} {rest : List Word} :
    r.cons c = .ok s rest ↔ ∃ t, r = .ok t rest ∧ s = c :: t := by
  cases r <;> simp [StringRead.cons, eq_comm, and_comm]

theorem StringRead.cons_eq_wide {c : Byte} {r : StringRead} : r.cons c = .wide ↔ r = .wide := by
  cases r <;> simp [StringRead.cons]

/-- The terminator ends the string. -/
theorem takeString_zero (ws : List Word) : takeString (0#32 :: ws) = .ok [] ws := rfl

/-- A narrow character other than the terminator goes in front of the rest. -/
theorem takeString_char {c : Byte} (h : c ≠ 0#8) (ws : List Word) :
    takeString (c.setWidth 32 :: ws) = (takeString ws).cons c := by
  simp [takeString, h]

theorem takeString_wide {w : Word} (h : fieldAboveChar w ≠ 0#24) (ws : List Word) : takeString (w :: ws) = .wide := by
  simp [takeString, h]

/-- A character word is wide, the terminator, or a narrow character. -/
theorem charWord_cases (w : Word) :
    fieldAboveChar w ≠ 0#24 ∨ w = 0#32 ∨ ∃ c : Byte, c ≠ 0#8 ∧ w = c.setWidth 32 := by
  by_cases hn : fieldAboveChar w = 0#24
  · have hw := setWidth_fieldChar hn
    by_cases hc : fieldChar w = 0#8
    · exact .inr (.inl (hw.symm.trans (by rw [hc]; rfl)))
    · exact .inr (.inr ⟨fieldChar w, hc, hw.symm⟩)
  · exact .inl hn

/-- A string's encoding is read back, and the words after it are left (30_encoding.md R89, R91). -/
theorem takeString_encodeString {s : List Byte} (h : ∀ c ∈ s, c ≠ 0#8) (rest : List Word) :
    takeString (encodeString s ++ rest) = .ok s rest := by
  induction s with
  | nil => exact takeString_zero rest
  | cons c s ih =>
    obtain ⟨hc, hs⟩ := List.forall_mem_cons.mp h
    show takeString (c.setWidth 32 :: (encodeString s ++ rest)) = _
    rw [takeString_char hc, ih hs]
    rfl

/-- A string is read from its encoding only. -/
theorem encodeString_of_takeString {ws rest : List Word} {s : List Byte} (h : takeString ws = .ok s rest) :
    (∀ c ∈ s, c ≠ 0#8) ∧ ws = encodeString s ++ rest := by
  induction ws generalizing s with
  | nil => simp [takeString] at h
  | cons w ws ih =>
    rcases charWord_cases w with hwide | rfl | ⟨c, hc, rfl⟩
    · simp [takeString_wide hwide] at h
    · rw [takeString_zero] at h
      cases h
      exact ⟨by simp, rfl⟩
    · rw [takeString_char hc, StringRead.cons_eq_ok] at h
      obtain ⟨s', hs', rfl⟩ := h
      obtain ⟨hclean, rfl⟩ := ih hs'
      exact ⟨List.forall_mem_cons.mpr ⟨hc, hclean⟩, rfl⟩

/-- The words of a string are malformed exactly when a wide word comes before the terminator (30_encoding.md R95; log 24). -/
theorem takeString_eq_wide {ws : List Word} :
    takeString ws = .wide ↔
      ∃ pre c post, ws = pre ++ c :: post ∧ (∀ x ∈ pre, fieldAboveChar x = 0#24 ∧ fieldChar x ≠ 0#8) ∧
        fieldAboveChar c ≠ 0#24 := by
  induction ws with
  | nil => simp [takeString]
  | cons w ws ih =>
    constructor
    · intro h
      rcases charWord_cases w with hwide | rfl | ⟨c, hc, rfl⟩
      · exact ⟨[], w, ws, rfl, by simp, hwide⟩
      · simp [takeString_zero] at h
      · rw [takeString_char hc, StringRead.cons_eq_wide] at h
        obtain ⟨pre, d, post, rfl, hpre, hd⟩ := ih.mp h
        exact ⟨c.setWidth 32 :: pre, d, post, rfl, List.forall_mem_cons.mpr ⟨by simp [hc], hpre⟩, hd⟩
    · rintro ⟨pre, d, post, e, hpre, hd⟩
      cases pre with
      | nil =>
        obtain ⟨rfl, rfl⟩ := List.cons.inj e
        exact takeString_wide hd ws
      | cons x pre =>
        obtain ⟨rfl, rfl⟩ := List.cons.inj e
        obtain ⟨⟨hn, hx⟩, hpre⟩ := List.forall_mem_cons.mp hpre
        rw [← setWidth_fieldChar hn, takeString_char hx, StringRead.cons_eq_wide]
        exact ih.mpr ⟨pre, d, post, rfl, hpre, hd⟩

/-! ## Commands -/

/-- A command whose word 0 is in order is read by its operands. -/
theorem decodeCommand_operands {w0 : Word} (h : word0Error w0 = none) (handle : Word) (rest : List Word) :
    decodeCommand (w0 :: handle :: rest) = decodeOperands w0 handle rest := by
  simp only [decodeCommand, h]

/-- A command without a byte operand, by its opcode. -/
theorem decodeCommand_encodeWord0 {op : BitVec 4} (hop : ¬0xC#4 ≤ op) (handle : Word) (rest : List Word) :
    decodeCommand (encodeWord0 op 0#8 :: handle :: rest) = decodeOperands (encodeWord0 op 0#8) handle rest :=
  decodeCommand_operands (word0Error_encodeWord0 hop (.inl rfl)) handle rest

/-- A `puts` string holds no terminator exactly when the record is well formed. -/
theorem wellFormed_puts {h : Word} {s : List Byte} : (Instr.puts h s).wellFormed = true ↔ ∀ c ∈ s, c ≠ 0#8 := by
  simp [Instr.wellFormed]

/-- A 4-bit number, from its value. -/
theorem eq_ofNat_of_toNat {n : BitVec 4} {k : Nat} (h : n.toNat = k) : n = BitVec.ofNat 4 k := by
  rw [← h, BitVec.ofNat_toNat, BitVec.setWidth_eq]

/-- What word 0 and the operands come to is well formed, and they are its encoding. -/
theorem encode_of_decodeOperands {w0 handle : Word} {ws rest : List Word} {i : Instr} (hw : word0Error w0 = none)
    (h : decodeOperands w0 handle ws = .ok i rest) :
    i.wellFormed = true ∧ ∃ words, encode i = .command (w0 :: handle :: words) ∧ ws = words ++ rest := by
  obtain ⟨-, hres, hb⟩ := word0Error_eq_none.mp hw
  have hw0 : ∀ {k}, (fieldOp w0).toNat = k → BitVec.ofNat 4 k ≠ opPutByte → encodeWord0 (BitVec.ofNat 4 k) 0#8 = w0 := by
    intro k hk hne
    have hop := eq_ofNat_of_toNat hk
    rw [← encodeWord0_fields hres, hb.resolve_right (hop ▸ hne), hop]
  unfold decodeOperands at h
  split at h
  case h_2 hop =>
    split at h
    · cases h
      exact ⟨rfl, _, by rw [encode, hw0 hop (by decide)], rfl⟩
    · simp at h
  case h_3 hop =>
    cases h
    have hop : fieldOp w0 = opPutByte := eq_ofNat_of_toNat hop
    exact ⟨rfl, [], by rw [encode, ← hop, encodeWord0_fields hres], rfl⟩
  case h_12 hop =>
    split at h
    · rename_i s rest' hs
      cases h
      obtain ⟨hclean, rfl⟩ := encodeString_of_takeString hs
      exact ⟨wellFormed_puts.mpr hclean, _, by rw [encode, hw0 hop (by decide)], rfl⟩
    · simp at h
    · simp at h
  case h_13 => simp at h
  all_goals
    rename_i hop
    cases h
    exact ⟨rfl, [], by rw [encode, hw0 hop (by decide)], rfl⟩

/-- With a defined opcode the operands are malformed for a wide word in a `puts` string only. -/
theorem decodeOperands_malformed {w0 : Word} (hop : ¬0xC#4 ≤ fieldOp w0) (handle : Word) (ws : List Word) :
    (∃ e, decodeOperands w0 handle ws = .malformed e) ↔ fieldOp w0 = opPuts ∧ takeString ws = .wide := by
  by_cases hputs : fieldOp w0 = opPuts
  · simp only [decodeOperands, hputs, true_and]
    cases takeString ws <;> simp
  · simp only [hputs, false_and, iff_false, not_exists]
    intro e
    unfold decodeOperands
    split
    case h_2 => split <;> simp
    case h_12 hn => exact absurd (eq_ofNat_of_toNat hn) hputs
    case h_13 =>
      have hlt : (fieldOp w0).toNat < 12 := Nat.not_le.mp hop
      simp only [imp_false] at *
      omega
    all_goals simp

/-! ## The obligations -/

/-- Settles O1: word 0's fields select the operands, which are read back in front of the rest. -/
theorem decodeInvertsEncode : Obligations.DecodeInvertsEncode := by
  intro i rest hi
  cases i
  case putByte h b =>
    show decodeCommand (encodeWord0 opPutByte b :: h :: rest) = _
    rw [decodeCommand_operands (word0Error_encodeWord0 (by decide) (.inr rfl))]
    simp [decodeOperands]
  case puts h s =>
    show decodeCommand (encodeWord0 opPuts 0#8 :: h :: (encodeString s ++ rest)) = _
    rw [decodeCommand_encodeWord0 (by decide)]
    simp [decodeOperands, takeString_encodeString (wellFormed_puts.mp hi)]
  case portRdCtrl | portRdData | portWrCtrl | portWrData => rfl
  all_goals
    refine (decodeCommand_encodeWord0 (by decide) _ _).trans ?_
    simp [decodeOperands]

/-- Settles O2: for the words by `encode_of_decodeOperands`, for the headers by the four that there are. -/
theorem decodedWordsAreTheEncoding : Obligations.DecodedWordsAreTheEncoding := by
  refine ⟨fun ws i rest h => ?_, fun header inst wdata i h => ?_⟩
  · unfold decodeCommand at h
    split at h
    · simp at h
    · split at h
      · simp at h
      · rename_i hw
        split at h
        · simp at h
        · obtain ⟨hi, words, he, rfl⟩ := encode_of_decodeOperands hw h
          exact ⟨hi, _, he, rfl⟩
  · unfold decodeHeader at h
    split at h
    case h_5 => simp at h
    all_goals
      rename_i hn
      cases h
      obtain rfl := eq_ofNat_of_toNat hn
      exact ⟨rfl, _, rfl, by simp⟩

/-- Settles O3: word 0's errors by `word0Error_eq_none`, the rest by `decodeOperands_malformed` and `takeString_eq_wide`. -/
theorem malformedExactlyAsListed : Obligations.MalformedExactlyAsListed := by
  intro w0 rest
  have hword0 : (0xC#4 ≤ fieldOp w0 ∨ w0.extractLsb' 4 4 ≠ 0#4 ∨ w0.extractLsb' 16 16 ≠ 0#16 ∨
      (w0.extractLsb' 8 8 ≠ 0#8 ∧ fieldOp w0 ≠ opPutByte)) ↔ ¬word0Error w0 = none := by
    rw [word0Error_eq_none, fieldReserved, fieldB, Prod.mk.injEq]
    tauto
  rw [hword0]
  cases hw : word0Error w0 with
  | some e => simp [decodeCommand, hw]
  | none =>
    cases rest with
    | nil => simp [decodeCommand, hw]
    | cons h ws =>
      rw [decodeCommand_operands hw, decodeOperands_malformed (word0Error_eq_none.mp hw).1, takeString_eq_wide]
      simp [fieldAboveChar, fieldChar]

/-- Settles O4: by evaluation of the decoder on the words written out. -/
theorem specWordsDecode : Obligations.SpecWordsDecode := by
  unfold Obligations.SpecWordsDecode
  decide

end Sys2Proof.Machine
end

section
/-! SUPPORT. The register file (20_memory.md R53, 40_register_model.md R125), the laws of the unpacker and the packer (R112), and the
status bits (44_peripheral_backend.md R216). -/

namespace Sys2Proof.Machine

/-! ## Addresses -/

/-- What the register file reads as a header was a word access in one of the two 8-byte ranges. -/
theorem accessHeader_eq_some {c : Config} {a : PortAccess} {header : BitVec 4} {i : Inst}
    (h : accessHeader c a = some (header, i)) :
    a.size = .word ∧ ∃ off, a.addr = portAddress c i off ∧ header = bitOf a.we ++ off := by
  have hback : ∀ j, a.addr - (c.inst j).base < 8#32 →
      a.addr = portAddress c j ((a.addr - (c.inst j).base).extractLsb' 0 3) := by
    intro j hlt
    have hwide : ∀ d : Word, d < 8#32 → (d.extractLsb' 0 3).setWidth 32 = d := by
      intro d hd
      apply BitVec.eq_of_toNat_eq
      have hd : d.toNat < 8 := hd
      simp only [BitVec.toNat_setWidth, BitVec.extractLsb'_toNat, Nat.shiftRight_zero]
      omega
    rw [portAddress, hwide _ hlt, BitVec.add_comm, BitVec.sub_add_cancel]
  unfold accessHeader at h
  split at h
  · simp at h
  · rename_i hsize
    refine ⟨not_not.mp hsize, ?_⟩
    split at h
    · rename_i hlt
      cases h
      exact ⟨_, hback .i0 hlt, rfl⟩
    · split at h
      · rename_i hlt
        cases h
        exact ⟨_, hback .i1 hlt, rfl⟩
      · simp at h

/-- A header is a port transaction's only at the offset of CTRL or DATA. -/
theorem offset_of_decodeHeader {we : Bool} {off : BitVec 3} {i : Inst} {v : Word} {instr : Instr}
    (h : decodeHeader (bitOf we ++ off) i v = some instr) : off = offCtrl ∨ off = offData := by
  have hfour : ∀ (we : Bool) (off : BitVec 3), off ≠ offCtrl → off ≠ offData →
      (bitOf we ++ off).toNat ∉ [0b0000, 0b0100, 0b1000, 0b1100] := by decide
  by_contra hne
  obtain ⟨hctrl, hdata⟩ := not_or.mp hne
  have hn := hfour we off hctrl hdata
  unfold decodeHeader at h
  split at h <;> simp_all

/-- The access of a register word runs the transaction its header names. -/
theorem registerFile_portAddress {s : State} (hc : s.cfg.wf) {a : PortAccess} (hsize : a.size = .word) {i : Inst} {off : BitVec 3}
    (haddr : a.addr = portAddress s.cfg i off) {instr : Instr}
    (hi : decodeHeader (bitOf a.we ++ off) i a.wdata = some instr) : registerFile a s = exec instr s := by
  obtain ⟨we, size, addr, wdata⟩ := a
  obtain rfl : size = .word := hsize
  obtain rfl : addr = portAddress s.cfg i off := haddr
  simp only [registerFile, decodeAccess, accessHeader_portAddress hc, hi]

/-! ## The packer after the unpacker -/

theorem placeField_takeField (n pos : Nat) (w : Word) : placeField pos (takeField n pos w) = w &&& fieldMask n pos := by
  apply BitVec.eq_of_getLsbD_eq
  intro k hk
  rw [BitVec.getLsbD_and, fieldMask, getLsbD_placeField, getLsbD_placeField, getLsbD_takeField, BitVec.getLsbD_allOnes]
  by_cases hpos : pos ≤ k
  · simp [hk, hpos, Bool.and_comm]
  · simp [hpos]

theorem pack_stored_unpack (l : Layout) (w : Word) : pack l (unpack l w).stored = w &&& maskStored l := by
  have hdist : ∀ m n : Word, (w &&& m) ||| (w &&& n) = w &&& (m ||| n) := by
    intro m n
    apply BitVec.eq_of_getLsbD_eq
    intro k _
    simp only [BitVec.getLsbD_or, BitVec.getLsbD_and, Bool.and_or_distrib_left]
  simp only [pack, unpack, Unpacked.stored, placeField_takeField, hdist, maskStored]

/-! ## The obligations -/

/-- Settles O5: an access that decodes has the address of a register word; such an access runs what its header names. -/
theorem onlyTheFourWordsAreAccessible : Obligations.OnlyTheFourWordsAreAccessible := by
  intro s a hc
  refine ⟨?_, fun i hsize haddr => ?_, fun i hsize haddr => ?_⟩
  · cases hd : decodeAccess s.cfg a with
    | none => exact .inr (registerFile_none hd)
    | some instr =>
      left
      unfold decodeAccess at hd
      split at hd
      · rename_i i hh
        obtain ⟨hsize, off, haddr, rfl⟩ := accessHeader_eq_some hh
        rcases offset_of_decodeHeader hd with rfl | rfl
        · exact ⟨hsize, i, .inl haddr⟩
        · exact ⟨hsize, i, .inr haddr⟩
      · simp at hd
  · refine registerFile_portAddress hc hsize haddr ?_
    cases a.we <;> rfl
  · refine registerFile_portAddress hc hsize haddr ?_
    cases a.we <;> rfl

/-- Settles O6: the masks are numbers; a bit of the interrupt field is a bit of the word. -/
theorem masksOfTheDefaultLayout : Obligations.MasksOfTheDefaultLayout := by
  refine ⟨by decide, by decide, by decide, by decide, by decide, fun w k hk => ?_⟩
  show (takeField 5 22 w).getLsbD k = _
  rw [getLsbD_takeField, decide_eq_true hk, Bool.true_and]

/-- Settles O7: a packed word has status bits 0 and unpacks to its fields; packing what was unpacked keeps the stored bits. -/
theorem unpackAndPackAreInverse : Obligations.UnpackAndPackAreInverse := by
  intro l hl
  refine ⟨fun f => ?_, fun w => pack_stored_unpack l w⟩
  have e := unpack_statusWord hl f 0#1 0#1 0#1
  simp only [placeField_zero, BitVec.or_zero] at e
  rw [e]
  exact ⟨rfl, rfl, rfl, rfl⟩

/-- Settles O12: a full queue is not empty, because capacities are positive. -/
theorem statusBitsAreFunctionsOfTheQueues : Obligations.StatusBitsAreFunctionsOfTheQueues := by
  intro c i p
  refine ⟨txFull_eq_one, txBusy_eq_one, rxNempty_eq_one, fun hfull => ?_, fun b hcap hq => ?_, fun hoff hen hflush => ?_⟩
  · rw [txFull_eq_one] at hfull
    have := txCap_pos c i
    exact txBusy_eq_one.mpr (.inl (List.length_pos_iff.mp (by omega)))
  · rw [txFull_eq_one, txBusy_eq_one, hq, txCap, hcap]
    simp
  · obtain ⟨htxq, hrxq, htxsh⟩ := hoff hen hflush
    refine ⟨?_, ?_, rxNempty_eq_zero.mpr hrxq⟩
    · rw [txFull_eq_zero, htxq]
      exact (txCap_pos c i).ne
    · rw [← bit_ne_one, ne_eq, txBusy_eq_one]
      simp [htxq, htxsh]

end Sys2Proof.Machine
end

section
/-! SUPPORT. The divisor resolver's ranges and corner cases (41_divisor_resolver.md sections 3 to 5), and SETUP (43_setup.md). -/

namespace Sys2Proof.Machine

/-! ## The denominator -/

theorem denominator_toNat (baud : Word) : (denominator baud).toNat = 2 * baud.toNat % 2 ^ 32 := by
  rw [denominator, BitVec.toNat_mul]
  rfl

/-- Below `2^31` the denominator is twice the rate. -/
theorem denominator_toNat_of_lt {baud : Word} (h : baud.toNat < 2 ^ 31) : (denominator baud).toNat = 2 * baud.toNat := by
  rw [denominator_toNat]
  omega

/-- The two rates whose denominator is 0 (41_divisor_resolver.md R154). -/
theorem denominator_eq_zero {baud : Word} : denominator baud = 0#32 ↔ baud = 0#32 ∨ baud = 0x80000000#32 := by
  rw [← BitVec.toNat_inj, ← BitVec.toNat_inj, ← BitVec.toNat_inj, denominator_toNat]
  simp only [BitVec.toNat_ofNat]
  have := baud.isLt
  omega

theorem denominator_ne_zero {baud : Word} (h1 : 1 ≤ baud.toNat) (h2 : baud.toNat < 2 ^ 31) : denominator baud ≠ 0#32 := by
  rw [ne_eq, ← BitVec.toNat_inj, denominator_toNat_of_lt h2]
  simp only [BitVec.toNat_ofNat]
  omega

/-- A denominator other than 0 is even, so at least 2, and halves the clock at least (41_divisor_resolver.md R151). -/
theorem quotient_le {baud : Word} (h : denominator baud ≠ 0#32) (clk : Word) :
    clk.toNat / (denominator baud).toNat ≤ 0x7FFFFFFF := by
  have hpos : 0 < (denominator baud).toNat := BitVec.toNat_pos_of_ne_zero h
  have htwo : 2 ≤ (denominator baud).toNat := by
    rw [denominator_toNat] at hpos ⊢
    omega
  have hle : clk.toNat / (denominator baud).toNat ≤ clk.toNat / 2 := Nat.div_le_div_left htwo (by decide)
  have := clk.isLt
  omega

/-! ## The selected pair -/

/-- A quotient below `2^31` ends at tap 18 at most (41_divisor_resolver.md R152). -/
theorem selectTap_fst_le {raw0 : Word} (h : raw0.toNat ≤ 0x7FFFFFFF) : (selectTap raw0).1.toNat ≤ 18 := by
  have h19 : 19 ≤ (selectTap raw0).1.toNat ↔ 0x3FF * 2 ^ 22 ≤ raw0.toNat := succ_le_selectTap_iff raw0 18
  omega

/-- The quotient lies between the selected divisor, and the next one, shifted back. -/
theorem selectTap_between (raw0 : Word) :
    (selectTap raw0).2.toNat * 2 ^ totalShift (selectTap raw0).1.toNat ≤ raw0.toNat ∧
      raw0.toNat < ((selectTap raw0).2.toNat + 1) * 2 ^ totalShift (selectTap raw0).1.toNat := by
  rw [selectTap_snd_toNat, Nat.shiftRight_eq_div_pow]
  exact ⟨Nat.div_mul_le_self _ _, Nat.lt_mul_of_div_lt (Nat.lt_succ_self _) (Nat.two_pow_pos _)⟩

/-- The quotient lies between the clock's multiples of twice the rate. -/
theorem quotient_between {baud : Word} (h1 : 1 ≤ baud.toNat) (h2 : baud.toNat < 2 ^ 31) (clk : Word) :
    (clk / denominator baud).toNat * (2 * baud.toNat) ≤ clk.toNat ∧
      clk.toNat < ((clk / denominator baud).toNat + 1) * (2 * baud.toNat) := by
  rw [BitVec.toNat_udiv, denominator_toNat_of_lt h2]
  exact ⟨Nat.div_mul_le_self _ _, Nat.lt_mul_of_div_lt (Nat.lt_succ_self _) (by omega)⟩

theorem multiplier_eq (t : Nat) : multiplier t = 2 * 2 ^ totalShift t := by
  rw [multiplier, Nat.pow_add, Nat.pow_one]

/-- The selected pair is the clock over the rate, from below, to within the multiplier (41_divisor_resolver.md R150). -/
theorem selectTap_approximates {baud : Word} (h1 : 1 ≤ baud.toNat) (h2 : baud.toNat < 2 ^ 31) (clk : Word) {p : Word × Word}
    (hp : p = selectTap (clk / denominator baud)) :
    multiplier p.1.toNat * p.2.toNat * baud.toNat ≤ clk.toNat ∧
      clk.toNat < multiplier p.1.toNat * (p.2.toNat + 1) * baud.toNat := by
  obtain ⟨hqlow, hqhigh⟩ := quotient_between h1 h2 clk
  obtain ⟨hlow, hhigh⟩ := selectTap_between (clk / denominator baud)
  rw [← hp] at hlow hhigh
  rw [multiplier_eq]
  constructor
  · calc 2 * 2 ^ totalShift p.1.toNat * p.2.toNat * baud.toNat
        = p.2.toNat * 2 ^ totalShift p.1.toNat * (2 * baud.toNat) := by ring
      _ ≤ (clk / denominator baud).toNat * (2 * baud.toNat) := Nat.mul_le_mul_right _ hlow
      _ ≤ clk.toNat := hqlow
  · calc clk.toNat < ((clk / denominator baud).toNat + 1) * (2 * baud.toNat) := hqhigh
      _ ≤ (p.2.toNat + 1) * 2 ^ totalShift p.1.toNat * (2 * baud.toNat) := Nat.mul_le_mul_right _ hhigh
      _ = 2 * 2 ^ totalShift p.1.toNat * (p.2.toNat + 1) * baud.toNat := by ring

/-- A clock below the denominator resolves to the quotient 0, by either strategy (41_divisor_resolver.md R153). -/
theorem resolve_of_lt (c : Config) {clk baud : Word} (h : clk < denominator baud) :
    resolve c clk baud = .value (denominator baud) clk 0#32 0#32 := by
  have hden : denominator baud ≠ 0#32 := fun h0 => absurd (h0 ▸ h) BitVec.not_lt_zero
  have hdiv : clk / denominator baud = 0#32 := BitVec.udiv_eq_zero_iff_eq_zero_or_lt.mpr (.inr h)
  have hsel : selectTap 0#32 = (0#32, 0#32) := by decide
  cases hc : c.divStrategy with
  | divide => simp only [resolve, quotient_divide hc clk hden, hdiv, hsel]
  | subtract => simp only [resolve, quotient_subtract hc clk hden, hdiv, hsel, BitVec.umod_eq_of_lt h]

/-! ## What a CTRL write leaves -/

@[simp] theorem writeStored_ctrl (c : Config) (f : Stored) (p : Periph) : (p.writeStored c f).ctrl = f := by
  rcases writeStored_cases c f p with ⟨_, _, e⟩ | ⟨_, e⟩ <;> rw [e]

@[simp] theorem writeStored_wireTx (c : Config) (f : Stored) (p : Periph) : (p.writeStored c f).wireTx = p.wireTx := by
  rcases writeStored_cases c f p with ⟨_, _, e⟩ | ⟨_, e⟩ <;> rw [e]

@[simp] theorem writeStored_cts (c : Config) (f : Stored) (p : Periph) : (p.writeStored c f).cts = p.cts := by
  rcases writeStored_cases c f p with ⟨_, _, e⟩ | ⟨_, e⟩ <;> rw [e]

/-! ## SETUP's two steps -/

theorem exec_setup_suRes {s : State} (h a0 a1 a2 : Word) (hf : s.fsm = .suRes) (ho : s.op = opSetup) :
    exec (.setup h a0 a1 a2) s = setupResolve s := by
  have hn : s.fsm ≠ .idle := by simp [hf]
  simp only [exec, execSetup, asCommand_onward hn ho, hf]

theorem exec_setup_suWr {s : State} (h a0 a1 a2 : Word) (hf : s.fsm = .suWr) (ho : s.op = opSetup) :
    exec (.setup h a0 a1 a2) s = setupWrite s := by
  have hn : s.fsm ≠ .idle := by simp [hf]
  simp only [exec, execSetup, asCommand_onward hn ho, hf]

/-- `SU_RES` with a result. -/
theorem setupResolve_value {s : State} {den clk tap raw : Word} (h : resolve s.cfg s.clk s.bd = .value den clk tap raw) :
    setupResolve s = .next { s with den := den, clk := clk, tap := tap, raw := raw, fsm := .suWr } := by
  simp only [setupResolve, h]

/-- `SU_RES` in the subtraction that never ends (41_divisor_resolver.md R154; log 9). -/
theorem setupResolve_hang {s : State} (hden : denominator s.bd = 0#32) (hc : s.cfg.divStrategy = .subtract) :
    setupResolve s = .next { s with den := 0#32, raw := Config.freeWord s.draws, draws := s.draws + 1 } := by
  simp only [setupResolve, resolve, hden, quotient_subtract_zero hc]

/-- Run after run, `SU_RES` in the subtraction that never ends stays there, and the instances as they are. -/
theorem runCommand_setup_hang (h a0 a1 a2 : Word) (k : Nat) {s : State} (hf : s.fsm = .suRes) (ho : s.op = opSetup)
    (hden : denominator s.bd = 0#32) (hc : s.cfg.divStrategy = .subtract) :
    ∃ t, runCommand (.setup h a0 a1 a2) k s = .next t ∧ t.fsm = .suRes ∧ t.op = s.op ∧
      t.bd = s.bd ∧ t.cfg = s.cfg ∧ t.p0 = s.p0 ∧ t.p1 = s.p1 ∧ t.bus = s.bus := by
  induction k generalizing s with
  | zero => exact ⟨s, rfl, hf, rfl, rfl, rfl, rfl, rfl, rfl⟩
  | succ k ih =>
    rw [runCommand, exec_setup_suRes h a0 a1 a2 hf ho, setupResolve_hang hden hc]
    exact ih (s := { s with den := 0#32, raw := Config.freeWord s.draws, draws := s.draws + 1 }) hf ho hden hc

/-- The interrupt-enable field `setup` writes is the operand's (30_encoding.md R93). -/
theorem takeField_and_maskIrq {l : Layout} (h : l.wf) (w : Word) : takeField 5 l.irq (w &&& maskIrq l) = takeField 5 l.irq w := by
  have hirq : l.irq + 5 ≤ 32 := h.1.1 (l.irq, 5) (by simp [Layout.ctrlFields])
  rw [takeField_and, maskIrq, fieldMask, takeField_placeField_self _ hirq]
  exact BitVec.and_allOnes

/-- `SU_WR`: the one write, of the fields of 43_setup.md R201. -/
theorem setupWrite_eq {s : State} (h : s.cfg.layout.wf) :
    setupWrite s = .next
      ({ s with bus := some (.regWrite s.sel offCtrl (setupWord s.cfg s.tap s.raw s.irqm)), fsm := .idle }.setPeriph s.sel
        ((s.periph s.sel).writeStored s.cfg (setupFields s.cfg s.tap s.raw s.irqm))) := by
  conv_rhs => rw [← stored_unpack_pack h (setupFields s.cfg s.tap s.raw s.irqm)]
  rfl

/-! ## The obligations -/

/-- Settles O17: the quotient bounds the tap, the tap loop the divisor. -/
theorem resolverRange : Obligations.ResolverRange := by
  intro c clk baud hden
  have hq := quotient_le hden clk
  obtain ⟨clk', e⟩ := resolve_of_denominator_ne_zero c clk hden
  rw [← BitVec.toNat_udiv] at hq ⊢
  generalize clk / denominator baud = raw0 at hq e
  have hlt := selectTap_snd_lt raw0
  refine ⟨hq, clk', _, _, e, hlt, selectTap_fst_le hq, prescalerField_toNat _, ?_, selectTap_snd_ge raw0, fun hpos => ?_⟩
  · rw [prescalerField_toNat]
    omega
  · have hne : raw0 ≠ 0#32 := by
      rintro rfl
      simp at hpos
    have hraw := selectTap_snd_pos hne
    have hbaud := baudField_selectTap hne
    exact ⟨hraw, by omega, by omega⟩

/-- Settles O18: the quotient's bounds, the shift's, and the two together. -/
theorem resolverApproximatesTheRate : Obligations.ResolverApproximatesTheRate := by
  intro c clk baud h1 h2
  obtain ⟨clk', e⟩ := resolve_of_denominator_ne_zero c clk (denominator_ne_zero h1 h2)
  obtain ⟨hqlow, hqhigh⟩ := quotient_between h1 h2 clk
  obtain ⟨hlow, hhigh⟩ := selectTap_between (clk / denominator baud)
  exact ⟨clk', _, _, (clk / denominator baud).toNat, e, hqlow, hqhigh, hlow, Nat.le_sub_one_of_lt hhigh,
    selectTap_approximates h1 h2 clk rfl⟩

/-- Settles O20: a quotient from 1 to 32735 is stored without a cut, so the stored pair is the selected one. -/
theorem usableSetupKeepsTheRate : Obligations.UsableSetupKeepsTheRate := by
  rintro c clk baud ⟨h1, hclk, hq⟩
  have h2 : baud.toNat < 2 ^ 31 := by
    have := clk.isLt
    omega
  obtain ⟨clk', e⟩ := resolve_of_denominator_ne_zero c clk (denominator_ne_zero h1 h2)
  rw [← denominator_toNat_of_lt h2, ← BitVec.toNat_udiv] at hq
  obtain ⟨hlow, hhigh⟩ := selectTap_approximates h1 h2 clk rfl
  have hne : clk / denominator baud ≠ 0#32 := by
    rw [ne_eq, ← BitVec.toNat_inj, BitVec.toNat_udiv, denominator_toNat_of_lt h2]
    exact (Nat.div_pos hclk (by omega)).ne'
  generalize clk / denominator baud = raw0 at *
  have htap : (selectTap raw0).1.toNat ≤ 3 := by
    have h4 : 4 ≤ (selectTap raw0).1.toNat ↔ 0x3FF * 2 ^ 5 ≤ raw0.toNat := succ_le_selectTap_iff raw0 3
    omega
  refine ⟨clk', _, _, e, htap, fun irqm => ?_⟩
  have hperiod : bitPeriod (setupFields c (selectTap raw0).1 (selectTap raw0).2 irqm) =
      multiplier (selectTap raw0).1.toNat * (selectTap raw0).2.toNat := by
    show multiplier (prescalerField _).toNat * ((baudField _).toNat + 1) = _
    rw [prescalerField_toNat, baudField_selectTap hne, Nat.mod_eq_of_lt (by omega)]
  rw [hperiod]
  exact ⟨rfl, hlow, by rw [← Nat.mul_succ]; exact hhigh⟩

/-- Settles O21: 38400 divides the clock 500 times. -/
theorem goldenValue : Obligations.GoldenValue := by
  intro c
  obtain ⟨clk', e⟩ := resolve_of_denominator_ne_zero c 19200000#32 (baud := 19200#32) (by decide)
  have hsel : selectTap (19200000#32 / denominator 19200#32) = (0#32, 500#32) := by decide
  rw [hsel] at e
  have hperiod : multiplier (prescalerField 0#32).toNat * ((baudField 500#32).toNat + 1) = 1000 := by decide
  exact ⟨clk', e, by norm_num, by decide, by decide, hperiod, by norm_num⟩

/-- Settles O22: the quotient is 0, and the divisor before 0 is the largest. -/
theorem tooSlowClockWraps : Obligations.TooSlowClockWraps := fun c _ _ _ h =>
  ⟨resolve_of_lt c h, by decide, by decide, fun _ => rfl⟩

/-- Settles O23: the resolver sees the rate through its denominator only. -/
theorem tooLargeBaudWraps : Obligations.TooLargeBaudWraps := by
  intro c clk baud h
  have hlt := baud.isLt
  have hden : (denominator baud).toNat = 2 * (baud.toNat - 2 ^ 31) := by
    rw [denominator_toNat]
    omega
  have heq : denominator (BitVec.ofNat 32 (baud.toNat - 2 ^ 31)) = denominator baud := by
    apply BitVec.eq_of_toNat_eq
    rw [hden, denominator_toNat, BitVec.toNat_ofNat]
    omega
  exact ⟨hden, by simp only [resolve, heq]⟩

/-- Settles O24: the hang by `runCommand_setup_hang`, the two outcomes under DIVIDE by the quotient's definition. -/
theorem zeroDenominatorHangsOrIsRefused : Obligations.ZeroDenominatorHangsOrIsRefused := by
  refine ⟨fun _ => denominator_eq_zero, by decide, fun s h a0 a1 a2 hf ho hden => ?_⟩
  rw [exec_setup_suRes h a0 a1 a2 hf ho]
  refine ⟨fun hc k => runCommand_setup_hang h a0 a1 a2 k hf ho hden hc, fun hc hd => ?_, fun q hc hd => ?_⟩ <;>
    simp only [setupResolve, resolve, quotient, hden, hc, hd, if_true]

/-- Settles O25: `SU_RES` by the resolver's result, `SU_WR` by the stored fields it writes. -/
theorem setupResolvesThenWritesOnce : Obligations.SetupResolvesThenWritesOnce := by
  refine ⟨fun s h a0 a1 a2 hf ho hden => ?_, fun s h a0 a1 a2 hf ho hl => ?_⟩
  · obtain ⟨clk', e⟩ := resolve_of_denominator_ne_zero s.cfg s.clk hden
    exact ⟨clk', _, _, e, (exec_setup_suRes h a0 a1 a2 hf ho).trans (setupResolve_value e)⟩
  · have hirq : (setupFields s.cfg s.tap s.raw s.irqm).irq = takeField 5 s.cfg.layout.irq s.irqm := takeField_and_maskIrq hl _
    have hfields : setupFields s.cfg s.tap s.raw s.irqm =
        { en := s.cfg.setupEn, sim := s.cfg.setupSim, hwfc := 0#1, prsc := s.tap.setWidth 2,
          baud := (s.raw - 1#32).setWidth 10, irq := s.irqm.extractLsb' s.cfg.layout.irq 5 } := congrArg (Stored.mk _ _ _ _ _) hirq
    refine ⟨_, (exec_setup_suWr h a0 a1 a2 hf ho).trans (setupWrite_eq hl), ?_, ?_, ?_, writeStored_wireTx _ _ _,
      writeStored_cts _ _ _, ?_⟩
    · rw [writeStored_ctrl, setupWord, stored_unpack_pack hl]
    · exact and_not_eq_zero_of_and_eq (pack_and_maskStored _ _)
    · rw [writeStored_ctrl, hfields]
    · rcases writeStored_cases s.cfg (setupFields s.cfg s.tap s.raw s.irqm) (s.periph s.sel) with ⟨hen, hflush, e⟩ | ⟨hno, e⟩
      · rw [if_pos ⟨hen, hflush⟩, e]
        exact ⟨rfl, rfl, rfl⟩
      · have hno : ¬(s.cfg.setupEn = 0#1 ∧ s.cfg.en0Flush = true) := hno
        rw [if_neg hno, e]
        exact ⟨rfl, rfl, rfl⟩

end Sys2Proof.Machine
end

section
/-! SUPPORT. The commands step by step (10_state.md R23; 42_blocking_io.md R171 to R182): the accept step, and what each command does
in each FSM state of its walk. -/

namespace Sys2Proof.Machine

/-! ## The accept step -/

theorem asCommand_idle {op : BitVec 4} {s : State} (hf : s.fsm = .idle) (first onward : Result) :
    asCommand op s first onward = first := by
  simp only [asCommand, if_pos hf]

theorem accept_some {c : Config} {h : Word} {i : Inst} (hr : resolveHandle c h = some i) (op : BitVec 4) (entry : Fsm) {s : State}
    (hc : s.cfg = c) : accept op h entry s = .next { s with op := op, hnd := h, sel := i, fsm := entry } := by
  simp only [accept, hc, hr]

theorem accept_none {c : Config} {h : Word} (hr : resolveHandle c h = none) (op : BitVec 4) (entry : Fsm) {s : State}
    (hc : s.cfg = c) : accept op h entry s = .refused .unknownHandle := by
  simp only [accept, hc, hr]

theorem exec_getByte_idle {s : State} (h : Word) (hf : s.fsm = .idle) : exec (.getByte h) s = accept opGetByte h .gbPoll s :=
  asCommand_idle hf _ _

theorem exec_charReceived_idle {s : State} (h : Word) (hf : s.fsm = .idle) :
    exec (.charReceived h) s = accept opCharReceived h .crRd s :=
  asCommand_idle hf _ _

theorem exec_charReceivedGet_idle {s : State} (h : Word) (hf : s.fsm = .idle) :
    exec (.charReceivedGet h) s = accept opCharReceivedGet h .cgRd s :=
  asCommand_idle hf _ _

/-- PUTS in IDLE: well-formedness (M9) is tested before the handle (M1). -/
theorem exec_puts_idle {s : State} (h : Word) {str : List Byte} (hf : s.fsm = .idle) (hs : ∀ c ∈ str, c ≠ 0#8) :
    exec (.puts h str) s = accept opPuts h .psNext { s with str := str } :=
  (asCommand_idle hf _ _).trans (if_pos (wellFormed_puts.mpr hs))

theorem exec_puts_terminator {s : State} (h : Word) {str : List Byte} (hf : s.fsm = .idle) (hs : ∃ c ∈ str, c = 0#8) :
    exec (.puts h str) s = .refused (.notWellFormed .terminatorInString) := by
  refine (asCommand_idle hf _ _).trans (if_neg fun hw => ?_)
  obtain ⟨c, hc, h0⟩ := hs
  exact wellFormed_puts.mp hw c hc h0

/-! ## The walks, one equation for each command and FSM state -/

section Walk

variable {s : State} (h : Word)

theorem exec_putByte_pbPoll (b : Byte) (hf : s.fsm = .pbPoll) (ho : s.op = opPutByte) :
    exec (.putByte h b) s = pollTx .pbPoll .pbWr s := by
  simp only [exec, execPutByte, asCommand_onward (by simp [hf] : s.fsm ≠ .idle) ho, hf]

theorem exec_putByte_pbWr (b : Byte) (hf : s.fsm = .pbWr) (ho : s.op = opPutByte) :
    exec (.putByte h b) s = sendWord (byteWord s.b) .idle s := by
  simp only [exec, execPutByte, asCommand_onward (by simp [hf] : s.fsm ≠ .idle) ho, hf]

theorem exec_txBusy_tbRd (hf : s.fsm = .tbRd) (ho : s.op = opTxBusy) :
    exec (.txBusy h) s = reportBit Unpacked.txBusy s := by
  simp only [exec, execTxBusy, asCommand_onward (by simp [hf] : s.fsm ≠ .idle) ho, hf]

theorem exec_getByte_gbPoll (hf : s.fsm = .gbPoll) (ho : s.op = opGetByte) :
    exec (.getByte h) s = pollRx .gbPoll .gbRd s := by
  simp only [exec, execGetByte, asCommand_onward (by simp [hf] : s.fsm ≠ .idle) ho, hf]

theorem exec_getByte_gbRd (hf : s.fsm = .gbRd) (ho : s.op = opGetByte) : exec (.getByte h) s = takeReceived s := by
  simp only [exec, execGetByte, asCommand_onward (by simp [hf] : s.fsm ≠ .idle) ho, hf]

theorem exec_charReceived_crRd (hf : s.fsm = .crRd) (ho : s.op = opCharReceived) :
    exec (.charReceived h) s = reportBit Unpacked.rxNempty s := by
  simp only [exec, execCharReceived, asCommand_onward (by simp [hf] : s.fsm ≠ .idle) ho, hf]

theorem exec_puts_psNext (str : List Byte) (hf : s.fsm = .psNext) (ho : s.op = opPuts) : exec (.puts h str) s = putsNext s := by
  simp only [exec, execPuts, asCommand_onward (by simp [hf] : s.fsm ≠ .idle) ho, hf]

theorem exec_puts_psCrPoll (str : List Byte) (hf : s.fsm = .psCrPoll) (ho : s.op = opPuts) :
    exec (.puts h str) s = pollTx .psCrPoll .psCrWr s := by
  simp only [exec, execPuts, asCommand_onward (by simp [hf] : s.fsm ≠ .idle) ho, hf]

theorem exec_puts_psCrWr (str : List Byte) (hf : s.fsm = .psCrWr) (ho : s.op = opPuts) :
    exec (.puts h str) s = sendWord 0x0000000D#32 .psChPoll s := by
  simp only [exec, execPuts, asCommand_onward (by simp [hf] : s.fsm ≠ .idle) ho, hf]

theorem exec_puts_psChPoll (str : List Byte) (hf : s.fsm = .psChPoll) (ho : s.op = opPuts) :
    exec (.puts h str) s = pollTx .psChPoll .psChWr s := by
  simp only [exec, execPuts, asCommand_onward (by simp [hf] : s.fsm ≠ .idle) ho, hf]

theorem exec_puts_psChWr (str : List Byte) (hf : s.fsm = .psChWr) (ho : s.op = opPuts) :
    exec (.puts h str) s = sendWord (byteWord s.b) .psNext s := by
  simp only [exec, execPuts, asCommand_onward (by simp [hf] : s.fsm ≠ .idle) ho, hf]

end Walk

/-- `PS_NEXT` at the end of the string. -/
theorem putsNext_nil {s : State} (h : s.str = []) : putsNext s = .next { s with fsm := .idle } := by
  simp only [putsNext, h]

/-- `PS_NEXT` with a character left. -/
theorem putsNext_cons {s : State} {c : Byte} {r : List Byte} (h : s.str = c :: r) :
    putsNext s = .next { s with b := c, str := r, fsm := if c = 0x0A#8 then .psCrPoll else .psChPoll } := by
  simp only [putsNext, h]

/-- `RMW_RD` of a read-modify-write command (42_blocking_io.md R182). -/
theorem asCommand_rmwRd {op : BitVec 4} {s : State} (hf : s.fsm = .rmwRd) (ho : s.op = op) (first : Result) (f : Word → Word) :
    asCommand op s first (rmwWalk f s) = rmwRead s := by
  rw [asCommand_onward (by simp [hf] : s.fsm ≠ .idle) ho, rmwWalk, hf]

/-! ## What the shared steps come to -/

/-- A push queues the byte exactly of an enabled instance with room (40_register_model.md R123). -/
theorem pushTx_eq (c : Config) (i : Inst) (b : Byte) (p : Periph) :
    p.pushTx c i b = if p.ctrl.en = 1#1 ∧ p.txq.length < txCap c i then { p with txq := p.txq ++ [b] } else p := by
  rcases pushTx_cases c i b p with ⟨hen, hroom, e⟩ | ⟨hno, e⟩ <;> rw [e]
  · rw [if_pos ⟨bit_ne_zero.mp hen, hroom⟩]
  · rw [if_neg]
    rintro ⟨hen, hroom⟩
    rcases hno with h0 | hfull
    · exact absurd (hen.symm.trans h0) (by decide)
    · omega

theorem sendWord_sim_zero {s : State} (h : (s.periph s.sel).ctrl.sim = 0#1) (v : Word) (go : Fsm) :
    sendWord v go s = .next ({ s with bus := some (.regWrite s.sel offData v), fsm := go }.setPeriph s.sel
      (if (s.periph s.sel).ctrl.en = 1#1 ∧ (s.periph s.sel).txq.length < txCap s.cfg s.sel
        then { s.periph s.sel with txq := (s.periph s.sel).txq ++ [wordByte v] } else s.periph s.sel)) := by
  rcases sendWord_cases v go s with ⟨h1, _⟩ | ⟨_, e⟩
  · exact absurd (h.symm.trans h1) (by decide)
  · rw [e, pushTx_eq]

theorem sendWord_sim_one {s : State} (h : (s.periph s.sel).ctrl.sim = 1#1) (v : Word) (go : Fsm) :
    sendWord v go s = .refused .simRedirect := by
  rcases sendWord_cases v go s with ⟨_, e⟩ | ⟨h0, _⟩
  · exact e
  · exact absurd h h0

/-- A status bit as a boolean result. -/
theorem bitWord_of_iff {v : Bit} {p : Prop} [Decidable p] (h : v = 1#1 ↔ p) : bitWord v = if p then 1#32 else 0#32 := by
  split
  · rw [h.mpr ‹_›]
    rfl
  · rw [bit_ne_one.mp (mt h.mp ‹_›)]
    rfl

/-- A report reads CTRL and puts the bit it finds there in `R0`. -/
theorem reportBit_eq (pick : Unpacked → Bit) (s : State) :
    reportBit pick s = .next
      { s with w := ctrlWord s.cfg s.sel (s.periph s.sel),
               bus := some (.regRead s.sel offCtrl (ctrlWord s.cfg s.sel (s.periph s.sel))), fsm := .idle,
               r0 := bitWord (pick (loadW s).u) } := rfl

/-! ## The newline translation -/

theorem translateNewlines_append (a b : List Byte) :
    translateNewlines (a ++ b) = translateNewlines a ++ translateNewlines b := by
  induction a with
  | nil => rfl
  | cons c a ih =>
    rw [List.cons_append, translateNewlines, translateNewlines, ih]
    split <;> rfl

theorem translateNewlines_length (s : List Byte) : (translateNewlines s).length = s.length + s.count 0x0A#8 := by
  induction s with
  | nil => rfl
  | cons c s ih =>
    rw [translateNewlines]
    split
    · subst c
      simp only [List.length_cons, List.count_cons_self, ih]
      omega
    · rename_i hc
      simp only [List.length_cons, List.count_cons_of_ne hc, ih]
      omega

theorem translateNewlines_of_not_mem {s : List Byte} (h : 0x0A#8 ∉ s) : translateNewlines s = s := by
  induction s with
  | nil => rfl
  | cons c s ih =>
    obtain ⟨hc, hs⟩ := not_or.mp (List.mem_cons.not.mp h)
    rw [translateNewlines, if_neg (Ne.symm hc), ih hs]

/-! ## The obligations -/

/-- Settles O13: by the three cases of the handle; the refusals need no case of the command. -/
theorem acceptLatchesOperands : Obligations.AcceptLatchesOperands := by
  intro s h hf
  refine ⟨fun i hi => ?_, fun h0 h1 i hi hcmd => ?_, fun str hs => ⟨_, exec_puts_terminator h hf hs⟩⟩
  · have hr : resolveHandle s.cfg h = some i := by
      rcases hi with ⟨rfl, rfl⟩ | ⟨h0, h1, rfl⟩
      · simp [resolveHandle]
      · rw [resolveHandle, if_neg h0, if_pos h1]
    have plain := fun op entry => accept_some hr op entry (s := s) rfl
    refine ⟨fun a0 a1 a2 => (asCommand_idle hf _ _).trans (accept_some hr _ _ rfl),
      fun b => (asCommand_idle hf _ _).trans (accept_some hr _ _ rfl),
      (asCommand_idle hf _ _).trans (plain _ _), (asCommand_idle hf _ _).trans (plain _ _),
      (asCommand_idle hf _ _).trans (plain _ _), (asCommand_idle hf _ _).trans (plain _ _),
      (asCommand_idle hf _ _).trans (plain _ _), (asCommand_idle hf _ _).trans (plain _ _),
      (asCommand_idle hf _ _).trans (plain _ _), (asCommand_idle hf _ _).trans (plain _ _),
      fun str hs => (exec_puts_idle h hf hs).trans (accept_some hr _ _ rfl)⟩
  · have hr : resolveHandle s.cfg h = none := by simp [resolveHandle, h0, h1]
    rcases hcmd with ⟨a0, a1, a2, rfl⟩ | ⟨b, rfl⟩ | ⟨str, rfl⟩ | rfl | rfl | rfl | rfl | rfl | rfl | rfl | rfl
    case inr.inr.inl => exact (exec_puts_idle h hf (wellFormed_puts.mp hi)).trans (accept_none hr _ _ rfl)
    all_goals exact (asCommand_idle hf _ _).trans (accept_none hr _ _ rfl)

/-- Settles O26: the poll is `pollTx`, the write `sendWord`. -/
theorem putBytePollsThenWrites : Obligations.PutBytePollsThenWrites := by
  intro s h b ho hl
  refine ⟨?_, fun hf hsim => ?_, fun hf hsim => ?_⟩
  · rintro hf _ rfl
    exact (exec_putByte_pbPoll h b hf ho).trans (pollTx_eq _ _ hl)
  · rw [exec_putByte_pbWr h b hf ho, sendWord_sim_zero hsim, wordByte_byteWord]
    rfl
  · exact (exec_putByte_pbWr h b hf ho).trans (sendWord_sim_one hsim _ _)

/-- Settles O27: the bit reported is the status bit of the instance read. -/
theorem txBusyReportsUnsentData : Obligations.TxBusyReportsUnsentData := by
  rintro s h _ hf ho hl rfl
  rw [exec_txBusy_tbRd h hf ho, reportBit_eq, loadW_u hl, bitWord_of_iff txBusy_eq_one]

/-- Settles O28: each state by its equation. -/
theorem putsWalk : Obligations.PutsWalk := by
  intro s h str ho hl
  refine ⟨fun hf hs => (exec_puts_psNext h str hf ho).trans (putsNext_nil hs),
    fun c r hf hs => (exec_puts_psNext h str hf ho).trans (putsNext_cons hs), ?_, ?_, fun hf hsim => ?_, fun hf hsim => ?_, ?_⟩
  · rintro hf _ rfl
    exact (exec_puts_psCrPoll h str hf ho).trans (pollTx_eq _ _ hl)
  · rintro hf _ rfl
    exact (exec_puts_psChPoll h str hf ho).trans (pollTx_eq _ _ hl)
  · exact (exec_puts_psCrWr h str hf ho).trans (sendWord_sim_zero hsim _ _)
  · rw [exec_puts_psChWr h str hf ho, sendWord_sim_zero hsim, wordByte_byteWord]
    rfl
  · rintro (hf | hf) hsim
    · exact (exec_puts_psCrWr h str hf ho).trans (sendWord_sim_one hsim _ _)
    · exact (exec_puts_psChWr h str hf ho).trans (sendWord_sim_one hsim _ _)

/-- Settles O30: by induction on the string. -/
theorem translationLaws : Obligations.TranslationLaws := by
  refine ⟨translateNewlines_append, translateNewlines_length, fun s => translateNewlines_of_not_mem, fun a b => ?_⟩
  rw [translateNewlines_append, translateNewlines, if_pos rfl]

/-- Settles O31: the poll is `pollRx`, the read `takeReceived`, with its two cases. -/
theorem getBytePollsThenReads : Obligations.GetBytePollsThenReads := by
  intro s h ho hl
  refine ⟨?_, fun x t hf hen hq => ?_, fun hf hno => ⟨Config.freeByte s.draws, ?_⟩⟩
  · rintro hf _ rfl
    exact (exec_getByte_gbPoll h hf ho).trans (pollRx_eq _ _ hl)
  · exact (exec_getByte_gbRd h hf ho).trans (takeReceived_some hl hen hq)
  · exact (exec_getByte_gbRd h hf ho).trans (takeReceived_none hl (hno.imp_left bit_ne_one.mpr))

/-- Settles O32: the bit reported is the status bit of the instance read. -/
theorem charReceivedReportsData : Obligations.CharReceivedReportsData := by
  rintro s h _ hf ho hl rfl
  rw [exec_charReceived_crRd h hf ho, reportBit_eq, loadW_u hl, bitWord_of_iff rxNempty_eq_one]
  simp only [ite_not]

/-- Settles O35: `RMW_RD` is the same for the four commands, and what it reads shows the stored fields. -/
theorem toggleReadsControl : Obligations.ToggleReadsControl := by
  rintro s h _ hf hl rfl
  exact ⟨stored_unpack_ctrlWord hl s.sel (s.periph s.sel), fun ho => asCommand_rmwRd hf ho _ _, fun ho => asCommand_rmwRd hf ho _ _,
    fun ho => asCommand_rmwRd hf ho _ _, fun ho => asCommand_rmwRd hf ho _ _⟩

end Sys2Proof.Machine
end

section
/-! SUPPORT. Commands over their whole walk, with no other agent between the steps (42_blocking_io.md R180, R182; 30_encoding.md
R97). -/

namespace Sys2Proof.Machine

theorem runCommand_succ {i : Instr} {s t : State} (h : exec i s = .next t) (k : Nat) : runCommand i (k + 1) s = runCommand i k t := by
  rw [runCommand, h]

/-! ## PUTS -/

/-- What the walk of PUTS from `s` to `t` has done: sent `bytes` to the instance in `SEL`. -/
structure Sent (s t : State) (bytes : List Byte) : Prop where
  op    : t.op = s.op
  sel   : t.sel = s.sel
  cfg   : t.cfg = s.cfg
  r0    : t.r0 = s.r0
  own   : t.periph s.sel = { s.periph s.sel with txq := (s.periph s.sel).txq ++ bytes }
  other : t.periph s.sel.other = s.periph s.sel.other

theorem Sent.trans {s t u : State} {a b : List Byte} (h1 : Sent s t a) (h2 : Sent t u b) : Sent s u (a ++ b) where
  op := h2.op.trans h1.op
  sel := h2.sel.trans h1.sel
  cfg := h2.cfg.trans h1.cfg
  r0 := h2.r0.trans h1.r0
  own := by
    have e := h2.own
    rw [h1.sel, h1.own, List.append_assoc] at e
    exact e
  other := by
    have e := h2.other
    rw [h1.sel] at e
    exact e.trans h1.other

/-- An instance that PUTS can send to: proper layout, enabled, not redirected, with room for `n` bytes. -/
structure Ready (s : State) (n : Nat) : Prop where
  layout : s.cfg.layout.wf
  en     : (s.periph s.sel).ctrl.en = 1#1
  sim    : (s.periph s.sel).ctrl.sim = 0#1
  room   : (s.periph s.sel).txq.length + n ≤ txCap s.cfg s.sel

theorem Ready.of_sent {s t : State} {bytes : List Byte} {n : Nat} (h : Ready s (bytes.length + n)) (hs : Sent s t bytes) :
    Ready t n where
  layout := hs.cfg ▸ h.layout
  en := by
    rw [hs.sel, hs.own]
    exact h.en
  sim := by
    rw [hs.sel, hs.own]
    exact h.sim
  room := by
    have := h.room
    rw [hs.sel, hs.own, hs.cfg, List.length_append]
    omega

theorem Ready.mono {s : State} {m n : Nat} (h : Ready s n) (hmn : m ≤ n) : Ready s m :=
  ⟨h.layout, h.en, h.sim, (Nat.add_le_add_left hmn _).trans h.room⟩

theorem Ready.latches {s : State} {n : Nat} {c : Byte} {r : List Byte} {go : Fsm} (h : Ready s n) :
    Ready { s with b := c, str := r, fsm := go } n :=
  ⟨h.layout, h.en, h.sim, h.room⟩

/-- The latches that `PS_NEXT` writes do not show in what is sent. -/
theorem Sent.of_latches {s t : State} {bytes : List Byte} {c : Byte} {r : List Byte} {go : Fsm}
    (h : Sent { s with b := c, str := r, fsm := go } t bytes) : Sent s t bytes :=
  ⟨h.op, h.sel, h.cfg, h.r0, h.own, h.other⟩

/-- A transmit poll with room goes on, and sends nothing. -/
theorem pollTx_ready {s : State} (h : Ready s 1) (stay go : Fsm) :
    ∃ t, pollTx stay go s = .next t ∧ t.fsm = go ∧ t.b = s.b ∧ t.str = s.str ∧ Sent s t [] := by
  have hlt : (s.periph s.sel).txq.length < txCap s.cfg s.sel := h.room
  rw [pollTx_eq _ _ h.layout, if_neg hlt.ne]
  exact ⟨_, rfl, rfl, rfl, rfl, rfl, rfl, rfl, rfl, by rw [List.append_nil]; rfl, rfl⟩

/-- A DATA write to a ready instance sends its byte. -/
theorem sendWord_ready {s : State} (h : Ready s 1) (v : Word) (go : Fsm) :
    ∃ t, sendWord v go s = .next t ∧ t.fsm = go ∧ t.b = s.b ∧ t.str = s.str ∧ Sent s t [wordByte v] := by
  rw [sendWord_sim_zero h.sim, if_pos ⟨h.en, h.room⟩]
  exact ⟨_, rfl, setPeriph_fsm _ _ _, setPeriph_b _ _ _, setPeriph_str _ _ _, setPeriph_op _ _ _, setPeriph_sel _ _ _,
    setPeriph_cfg _ _ _, setPeriph_r0 _ _ _, periph_setPeriph_self _ _ _, periph_setPeriph_other _ _ _⟩

/-- A poll with room and the write after it send one byte, in two steps. -/
theorem runCommand_send {i : Instr} {poll wr go : Fsm} {v : Word} {s : State} (hready : Ready s 1)
    (hpoll : exec i s = pollTx poll wr s)
    (hwr : ∀ t : State, t.fsm = wr → t.op = s.op → t.b = s.b → exec i t = sendWord v go t) :
    ∃ t, (∀ k, runCommand i (k + 2) s = runCommand i k t) ∧ t.fsm = go ∧ t.b = s.b ∧ t.str = s.str ∧
      Sent s t [wordByte v] := by
  obtain ⟨p, hp, hpf, hpb, hpstr, hsp⟩ := pollTx_ready hready poll wr
  obtain ⟨t, ht, htf, htb, htstr, hst⟩ := sendWord_ready (hready.of_sent (bytes := []) hsp) v go
  exact ⟨t, fun k => (runCommand_succ (hpoll.trans hp) (k + 1)).trans
    (runCommand_succ ((hwr p hpf hsp.op hpb).trans ht) k), htf, htb.trans hpb, htstr.trans hpstr, hsp.trans hst⟩

/-- The character in `B` goes out from `PS_CH_POLL`. -/
theorem runCommand_puts_char (h : Word) (str : List Byte) {s : State} (hf : s.fsm = .psChPoll) (ho : s.op = opPuts)
    (hready : Ready s 1) :
    ∃ t, (∀ k, runCommand (.puts h str) (k + 2) s = runCommand (.puts h str) k t) ∧ t.fsm = .psNext ∧ t.str = s.str ∧
      Sent s t [s.b] := by
  obtain ⟨t, hrun, hft, -, hstr, hsent⟩ := runCommand_send hready (exec_puts_psChPoll h str hf ho)
    (fun t hft hot hb => hb ▸ exec_puts_psChWr h str hft (hot.trans ho))
  exact ⟨t, hrun, hft, hstr, wordByte_byteWord s.b ▸ hsent⟩

/-- From `PS_NEXT` a string with room for all of it goes out, and the command ends. -/
theorem runCommand_puts_string (h : Word) (str0 str : List Byte) {s : State} (hf : s.fsm = .psNext) (ho : s.op = opPuts)
    (hs : s.str = str) (hready : Ready s (translateNewlines str).length) :
    ∃ t, runCommand (.puts h str0) (1 + 3 * str.length + 2 * str.count 0x0A#8) s = .next t ∧ t.fsm = .idle ∧ t.str = [] ∧
      Sent s t (translateNewlines str) := by
  induction str generalizing s with
  | nil =>
    refine ⟨_, runCommand_succ ((exec_puts_psNext h str0 hf ho).trans (putsNext_nil hs)) 0, rfl, hs, ?_⟩
    exact ⟨rfl, rfl, rfl, rfl, by rw [translateNewlines, List.append_nil]; rfl, rfl⟩
  | cons c str ih =>
    have hnext := (exec_puts_psNext h str0 hf ho).trans (putsNext_cons hs)
    by_cases hc : c = 0x0A#8
    · subst hc
      rw [if_pos rfl] at hnext
      have hT : translateNewlines (0x0A#8 :: str) = [0x0D#8] ++ ([0x0A#8] ++ translateNewlines str) := if_pos rfl
      rw [hT] at hready ⊢
      rw [List.length_append, List.length_append] at hready
      obtain ⟨t1, hrun1, hf1, hb1, hstr1, hs1⟩ := runCommand_send
        (s := { s with b := 0x0A#8, str := str, fsm := .psCrPoll }) (hready.latches.mono (by simp))
        (exec_puts_psCrPoll h str0 rfl ho) (fun t hft hot _ => exec_puts_psCrWr h str0 hft (hot.trans ho))
      have hready2 : Ready t1 (1 + (translateNewlines str).length) := hready.latches.of_sent hs1
      obtain ⟨t2, hrun2, hf2, hstr2, hs2⟩ := runCommand_puts_char h str0 hf1 (hs1.op.trans ho) (hready2.mono (by omega))
      rw [hb1] at hs2
      have ho2 : t2.op = opPuts := hs2.op.trans (hs1.op.trans ho)
      obtain ⟨t, hrun, hft, hstr, hst⟩ := ih hf2 ho2 (hstr2.trans hstr1) (hready2.of_sent hs2)
      refine ⟨t, ?_, hft, hstr, Sent.of_latches (hs1.trans (hs2.trans hst))⟩
      rw [List.length_cons, List.count_cons_self, show 1 + 3 * (str.length + 1) + 2 * (str.count 0x0A#8 + 1) =
        1 + 3 * str.length + 2 * str.count 0x0A#8 + 2 + 2 + 1 by omega, runCommand_succ hnext, hrun1, hrun2, hrun]
    · rw [if_neg hc] at hnext
      have hT : translateNewlines (c :: str) = [c] ++ translateNewlines str := if_neg hc
      rw [hT] at hready ⊢
      rw [List.length_append] at hready
      obtain ⟨t1, hrun1, hf1, hstr1, hs1⟩ := runCommand_puts_char h str0
        (s := { s with b := c, str := str, fsm := .psChPoll }) rfl ho (hready.latches.mono (by simp))
      obtain ⟨t, hrun, hft, hstr, hst⟩ := ih hf1 (hs1.op.trans ho) hstr1 (hready.latches.of_sent hs1)
      refine ⟨t, ?_, hft, hstr, Sent.of_latches (hs1.trans hst)⟩
      rw [List.length_cons, List.count_cons_of_ne hc, show 1 + 3 * (str.length + 1) + 2 * str.count 0x0A#8 =
        1 + 3 * str.length + 2 * str.count 0x0A#8 + 2 + 1 by omega, runCommand_succ hnext, hrun1, hrun]

/-! ## The single-bit commands -/

/-- A read-modify-write command over its three steps: the one write, of `g(W)` with `W` just read. -/
theorem runCommand_toggle {cmd : Instr} {op : BitVec 4} {h : Word} {g : Layout → Word → Word} {f : Stored → Stored}
    (hcmd : ∀ s, exec cmd s = asCommand op s (accept op h .rmwRd s) (rmwWalk (g s.cfg.layout) s))
    (hg : ∀ {l : Layout}, l.wf → ∀ {w : Word} {c : Stored}, (unpack l w).stored = c → (unpack l (g l w)).stored = f c)
    {s : State} {i : Inst} (hf : s.fsm = .idle) (hl : s.cfg.layout.wf) (hr : resolveHandle s.cfg h = some i) :
    ∃ t, runCommand cmd 3 s = .next t ∧ t.fsm = .idle ∧ t.cfg = s.cfg ∧ t.r0 = s.r0 ∧
      (t.periph i).ctrl = f (s.periph i).ctrl ∧ t.periph i.other = s.periph i.other := by
  have h1 := (hcmd s).trans ((asCommand_idle hf _ _).trans (accept_some hr op .rmwRd rfl))
  have h2 := (hcmd _).trans (asCommand_rmwRd (s := { s with op := op, hnd := h, sel := i, fsm := .rmwRd }) rfl rfl _ _)
  have h3 := (hcmd _).trans (asCommand_rmwWr
    (s := { loadW { s with op := op, hnd := h, sel := i, fsm := .rmwRd } with fsm := .rmwWr }) rfl rfl
    (hg hl (stored_unpack_ctrlWord hl i (s.periph i))) _)
  exact ⟨_, ((runCommand_succ h1 2).trans (runCommand_succ h2 1)).trans (runCommand_succ h3 0), setPeriph_fsm _ _ _,
    setPeriph_cfg _ _ _, setPeriph_r0 _ _ _, (congrArg Periph.ctrl (periph_setPeriph_self _ i _)).trans (writeStored_ctrl _ _ _),
    periph_setPeriph_other _ i _⟩

/-- The four read-modify-write commands, by what they do to the word and to the fields; a field set twice is set once. -/
theorem toggle_command {h : Word} {cmd : Instr} {f : Stored → Stored}
    (hmem : (cmd, f) ∈ [(.enable h, fun r => { r with en := 1#1 }), (.disable h, fun r => { r with en := 0#1 }),
      (.rtsctsEnable h, fun r => { r with hwfc := 1#1 }), (.rtsctsDisable h, fun r => { r with hwfc := 0#1 })]) :
    (∀ r, f (f r) = f r) ∧ ∃ (op : BitVec 4) (g : Layout → Word → Word),
      (∀ s, exec cmd s = asCommand op s (accept op h .rmwRd s) (rmwWalk (g s.cfg.layout) s)) ∧
      (∀ {l : Layout}, l.wf → ∀ {w : Word} {c : Stored}, (unpack l w).stored = c → (unpack l (g l w)).stored = f c) := by
  simp only [List.mem_cons, List.not_mem_nil, or_false, Prod.mk.injEq] at hmem
  rcases hmem with ⟨rfl, rfl⟩ | ⟨rfl, rfl⟩ | ⟨rfl, rfl⟩ | ⟨rfl, rfl⟩
  · exact ⟨fun _ => rfl, opEnable, fun l => setBit l.en, fun _ => rfl, stored_unpack_setBit_en⟩
  · exact ⟨fun _ => rfl, opDisable, fun l => clearBit l.en, fun _ => rfl, stored_unpack_clearBit_en⟩
  · exact ⟨fun _ => rfl, opRtsctsEnable, fun l => setBit l.hwfc, fun _ => rfl, stored_unpack_setBit_hwfc⟩
  · exact ⟨fun _ => rfl, opRtsctsDisable, fun l => clearBit l.hwfc, fun _ => rfl, stored_unpack_clearBit_hwfc⟩

/-! ## A byte that is waiting -/

/-- The step from `s` to `t` wrote latches and the bus only, and `t` is on instance `i`. -/
structure Latched (i : Inst) (s t : State) : Prop where
  sel    : t.sel = i
  cfg    : t.cfg = s.cfg
  periph : t.periph = s.periph

theorem accept_latched {h : Word} {s : State} {i : Inst} (hr : resolveHandle s.cfg h = some i) (op : BitVec 4) (entry : Fsm) :
    ∃ t, accept op h entry s = .next t ∧ t.fsm = entry ∧ t.op = op ∧ Latched i s t :=
  ⟨_, accept_some hr op entry rfl, rfl, rfl, rfl, rfl, rfl⟩

theorem pollRx_latched (stay go : Fsm) {s : State} (h : s.cfg.layout.wf) (hne : (s.periph s.sel).rxq ≠ []) :
    ∃ t, pollRx stay go s = .next t ∧ t.fsm = go ∧ t.op = s.op ∧ Latched s.sel s t := by
  rw [pollRx_eq stay go h, if_neg hne]
  exact ⟨_, rfl, rfl, rfl, rfl, rfl, rfl⟩

/-- CHAR_RECEIVED's report of a byte that is waiting. -/
theorem reportBit_rxNempty {s : State} (h : s.cfg.layout.wf) (hne : (s.periph s.sel).rxq ≠ []) :
    ∃ t, reportBit Unpacked.rxNempty s = .next t ∧ t.fsm = .idle ∧ t.r0 = 1#32 ∧ Latched s.sel s t := by
  rw [reportBit_eq, loadW_u h, rxNempty_eq_one.mpr hne]
  exact ⟨_, rfl, rfl, rfl, rfl, rfl, rfl⟩

/-- The byte `x` has been taken from instance `i` into `B` and `R0`, and the command is over. -/
structure Took (i : Inst) (x : Byte) (q : List Byte) (s t : State) : Prop where
  fsm   : t.fsm = .idle
  b     : t.b = x
  r0    : t.r0 = byteWord x
  own   : t.periph i = { s.periph i with rxq := q }
  other : t.periph i.other = s.periph i.other

theorem takeReceived_took {s : State} (h : s.cfg.layout.wf) {x : Byte} {q : List Byte}
    (hen : (s.periph s.sel).ctrl.en = 1#1) (hq : (s.periph s.sel).rxq = x :: q) :
    ∃ t, takeReceived s = .next t ∧ Took s.sel x q s t :=
  ⟨_, takeReceived_some h hen hq, setPeriph_fsm _ _ _, setPeriph_b _ _ _, setPeriph_r0 _ _ _, periph_setPeriph_self _ _ _,
    periph_setPeriph_other _ _ _⟩

section Waiting

variable {s : State} {h : Word} {i : Inst} {x : Byte} {q : List Byte} (hf : s.fsm = .idle) (hl : s.cfg.layout.wf)
  (hr : resolveHandle s.cfg h = some i) (hq : (s.periph i).rxq = x :: q)
include hf hl hr hq

/-- CHAR_RECEIVED from IDLE to IDLE. -/
theorem runCommand_charReceived :
    ∃ t, runCommand (.charReceived h) 2 s = .next t ∧ t.fsm = .idle ∧ t.r0 = 1#32 ∧ t.cfg = s.cfg ∧ t.periph = s.periph := by
  obtain ⟨p, hp, hpf, hpo, rfl, hpc, hpp⟩ := accept_latched hr opCharReceived .crRd
  obtain ⟨t, ht, htf, htr, -, htc, htp⟩ := reportBit_rxNempty (s := p) (hpc ▸ hl) (by rw [hpp, hq]; exact List.cons_ne_nil _ _)
  refine ⟨t, ?_, htf, htr, htc.trans hpc, htp.trans hpp⟩
  exact (runCommand_succ ((exec_charReceived_idle h hf).trans hp) 1).trans
    (runCommand_succ ((exec_charReceived_crRd h hpf hpo).trans ht) 0)

/-- CHAR_RECEIVED_GET from IDLE to IDLE. -/
theorem runCommand_charReceivedGet (hen : (s.periph i).ctrl.en = 1#1) :
    ∃ t, runCommand (.charReceivedGet h) 2 s = .next t ∧ Took i x q s t := by
  obtain ⟨p, hp, hpf, hpo, rfl, hpc, hpp⟩ := accept_latched hr opCharReceivedGet .cgRd
  obtain ⟨t, ht, htook⟩ := takeReceived_took (s := p) (hpc ▸ hl) (hpp ▸ hen) (hpp ▸ hq)
  refine ⟨t, ?_, htook.fsm, htook.b, htook.r0, hpp ▸ htook.own, hpp ▸ htook.other⟩
  exact (runCommand_succ ((exec_charReceivedGet_idle h hf).trans hp) 1).trans
    (runCommand_succ ((exec_charReceivedGet_cgRd h hpf hpo).trans ht) 0)

/-- GET_BYTE from IDLE to IDLE: one poll is enough. -/
theorem runCommand_getByte (hen : (s.periph i).ctrl.en = 1#1) :
    ∃ t, runCommand (.getByte h) 3 s = .next t ∧ Took i x q s t := by
  obtain ⟨p, hp, hpf, hpo, rfl, hpc, hpp⟩ := accept_latched hr opGetByte .gbPoll
  obtain ⟨r, hr, hrf, hro, hrs, hrc, hrp⟩ := pollRx_latched (s := p) .gbPoll .gbRd (hpc ▸ hl)
    (by rw [hpp, hq]; exact List.cons_ne_nil _ _)
  have hrp := hrp.trans hpp
  obtain ⟨t, ht, htook⟩ := takeReceived_took (s := r) (hrc ▸ hpc ▸ hl) (hrp ▸ hrs ▸ hen) (hrp ▸ hrs ▸ hq)
  rw [hrs] at htook
  refine ⟨t, ?_, htook.fsm, htook.b, htook.r0, hrp ▸ htook.own, hrp ▸ htook.other⟩
  exact ((runCommand_succ ((exec_getByte_idle h hf).trans hp) 2).trans
    (runCommand_succ ((exec_getByte_gbPoll h hpf hpo).trans hr) 1)).trans
    (runCommand_succ ((exec_getByte_gbRd h hrf (hro.trans hpo)).trans ht) 0)

end Waiting

/-- Two states that agree on one instance and on the other agree on both. -/
theorem periphs_eq {s t : State} {i : Inst} (hown : s.periph i = t.periph i) (hother : s.periph i.other = t.periph i.other) :
    s.p0 = t.p0 ∧ s.p1 = t.p1 := by
  cases i
  · exact ⟨hown, hother⟩
  · exact ⟨hother, hown⟩

/-! ## The obligations -/

/-- Settles O29: the accept step, then the string by `runCommand_puts_string`. -/
theorem putsQueuesTheTranslatedString : Obligations.PutsQueuesTheTranslatedString := by
  intro s h str i hf hl hr hs hen hsim hroom
  have hacc := (exec_puts_idle h hf hs).trans (accept_some hr opPuts .psNext rfl)
  obtain ⟨t, hrun, hft, hstr, hsent⟩ := runCommand_puts_string h str str
    (s := { s with op := opPuts, hnd := h, sel := i, str := str, fsm := .psNext }) rfl rfl rfl ⟨hl, hen, hsim, hroom⟩
  refine ⟨t, ?_, hft, hstr, hsent.r0, hsent.own, hsent.other⟩
  rw [show 2 + 3 * str.length + 2 * str.count 0x0A#8 = 1 + 3 * str.length + 2 * str.count 0x0A#8 + 1 by omega,
    runCommand_succ hacc, hrun]

/-- Settles O34: both runs take the byte that is waiting; CHAR_RECEIVED between leaves the instances alone. -/
theorem getByteIsItsNonblockingSplit : Obligations.GetByteIsItsNonblockingSplit := by
  intro s h i hf hl hr hen hne
  obtain ⟨x, q, hq⟩ := List.exists_cons_of_ne_nil hne
  obtain ⟨t, ht, htook⟩ := runCommand_getByte hf hl hr hq hen
  obtain ⟨u, hu, huf, hur, huc, hup⟩ := runCommand_charReceived hf hl hr hq
  obtain ⟨v, hv, hvook⟩ := runCommand_charReceivedGet huf (huc ▸ hl) (huc ▸ hr) (hup ▸ hq) (hup ▸ hen)
  obtain ⟨hp0, hp1⟩ := periphs_eq (s := v) (t := t) (i := i) (by rw [hvook.own, htook.own, hup])
    (by rw [hvook.other, htook.other, hup])
  refine ⟨t, u, v, ht, hu, hur, hv, htook.fsm, hvook.fsm, hvook.b.trans htook.b.symm, hvook.r0.trans htook.r0.symm, hp0, hp1, ?_, ?_⟩
  · rw [htook.own, hq]
    rfl
  · rw [htook.b, hq]
    rfl

/-- Settles O37: the walk by `runCommand_toggle`, twice. -/
theorem toggleTwiceIsOnce : Obligations.ToggleTwiceIsOnce := by
  intro s h i cmd f hf hl hr hmem
  obtain ⟨htwice, op, g, hcmd, hg⟩ := toggle_command hmem
  obtain ⟨t, ht, htf, htc, htr, htctrl, htother⟩ := runCommand_toggle hcmd hg hf hl hr
  obtain ⟨u, hu, huf, -, -, huctrl, -⟩ := runCommand_toggle hcmd hg htf (htc ▸ hl) (htc ▸ hr)
  exact ⟨t, u, ht, hu, htf, huf, htctrl, by rw [huctrl, htctrl, htwice], htother, htr⟩

end Sys2Proof.Machine
end

section
/-! SUPPORT. The step by its event (10_state.md R20): the sequencer's turn, reset (70_reset_and_hazards.md R270), and the back-end's
steps (44_peripheral_backend.md R217 to R219). -/

namespace Sys2Proof.Machine

/-! ## The step, by whose turn it is -/

theorem step_of_event {s : State} {e : Event} (h : nextEvent s = e) : step s = turn e (takeTurn s) := by
  rw [step, h]

theorem step_seq {s : State} (h : nextEvent s = .seq) : step s = seqStep (takeTurn s) := step_of_event h

theorem seqStep_run {s t : State} {i : Instr} (h : fetch s = .run i t) : seqStep s = exec i t := by
  simp only [seqStep, h]

/-- In IDLE the sequencer takes a whole command off the host's words. -/
theorem seqStep_command {s : State} {i : Instr} {rest : List Word} (hf : s.fsm = .idle) (hd : decodeCommand s.offers = .ok i rest) :
    seqStep s = exec i { s with offers := rest } :=
  seqStep_run (by simp only [fetch, if_pos hf, hd])

/-- Outside IDLE the sequencer goes on with the command in `OP`. -/
theorem seqStep_running {s : State} {i : Instr} (hf : s.fsm ≠ .idle) (hr : runningCommand s = some i) : seqStep s = exec i s :=
  seqStep_run (by simp only [fetch, if_neg hf, hr])

theorem seqStep_wait {s : State} (hf : s.fsm = .idle) (hd : decodeCommand s.offers = .incomplete) : seqStep s = .next s := by
  simp only [seqStep, fetch, if_pos hf, hd]

theorem seqStep_malformed {s : State} {e : DecodeError} (hf : s.fsm = .idle) (hd : decodeCommand s.offers = .malformed e) :
    seqStep s = .refused (.notWellFormed e) := by
  simp only [seqStep, fetch, if_pos hf, hd]

/-- A back-end step that leaves its instance as it is leaves the state as it is. -/
theorem onPeriph_of_fixed {i : Inst} {f : Periph → Periph} {s : State} (h : f (s.periph i) = s.periph i) : onPeriph i f s = s := by
  rw [onPeriph, h, setPeriph_periph]

/-! ## When the back-end's steps are enabled -/

theorem txLoad_enabled {p : Periph} {h : Byte} {t : List Byte} (hen : p.ctrl.en = 1#1) (hsh : p.txsh = none) (hq : p.txq = h :: t)
    (hcts : p.ctrl.hwfc = 1#1 → p.cts = true) : p.txLoad = { p with txq := t, txsh := some h } := by
  rcases txLoad_cases p with ⟨x, q, _, _, hq', _, e⟩ | ⟨hno, _⟩
  · obtain ⟨rfl, rfl⟩ := List.cons.inj (hq.symm.trans hq')
    exact e
  · rcases hno with hno | hno | hno | ⟨hhwfc, hno⟩
    · exact absurd hen hno
    · exact absurd hsh hno
    · exact absurd (hq.symm.trans hno) (List.cons_ne_nil h t)
    · exact absurd (hcts (bit_ne_zero.mp hhwfc)) (by simp [hno])

theorem txLoad_disabled {p : Periph} (h : p.ctrl.en = 0#1 ∨ p.txsh ≠ none ∨ p.txq = [] ∨ (p.ctrl.hwfc = 1#1 ∧ p.cts = false)) :
    p.txLoad = p := by
  rcases txLoad_cases p with ⟨x, q, hen, hsh, hq, hcts, _⟩ | ⟨_, e⟩
  · rcases h with hno | hno | hno | ⟨hhwfc, hno⟩
    · exact absurd (hen.symm.trans hno) (by decide)
    · exact absurd hsh hno
    · exact absurd (hq.symm.trans hno) (List.cons_ne_nil x q)
    · rcases hcts with h0 | h1
      · exact absurd (h0.symm.trans hhwfc) (by decide)
      · exact absurd (h1.symm.trans hno) (by decide)
  · exact e

theorem txDone_enabled {p : Periph} {b : Byte} (hen : p.ctrl.en = 1#1) (hsh : p.txsh = some b) :
    p.txDone = { p with wireTx := p.wireTx ++ [b], txsh := none } := by
  rcases txDone_cases p with ⟨x, _, hsh', e⟩ | ⟨hno, _⟩
  · obtain rfl := Option.some.inj (hsh.symm.trans hsh')
    exact e
  · rcases hno with hno | hno
    · exact absurd hen hno
    · exact absurd (hsh.symm.trans hno) (Option.some_ne_none b)

theorem txDone_disabled {p : Periph} (h : p.ctrl.en = 0#1 ∨ p.txsh = none) : p.txDone = p := by
  rcases txDone_cases p with ⟨x, hen, hsh, _⟩ | ⟨_, e⟩
  · rcases h with hno | hno
    · exact absurd (hen.symm.trans hno) (by decide)
    · exact absurd (hsh.symm.trans hno) (Option.some_ne_none x)
  · exact e

theorem rxArrive_queued {c : Config} {i : Inst} (b : Byte) {p : Periph} (hen : p.ctrl.en = 1#1) (hroom : p.rxq.length < rxCap c i) :
    p.rxArrive c i b = { p with rxq := p.rxq ++ [b] } :=
  if_pos ⟨hen, hroom⟩

theorem rxArrive_lost {c : Config} {i : Inst} (b : Byte) {p : Periph} (h : p.ctrl.en = 0#1 ∨ rxCap c i ≤ p.rxq.length) :
    p.rxArrive c i b = p := by
  refine if_neg fun ⟨hen, hroom⟩ => ?_
  rcases h with hno | hno
  · exact absurd (hen.symm.trans hno) (by decide)
  · omega

/-! ## What the other agents leave of a receive queue and of the transmit queue's length -/

/-- A back-end step or an input, as a function of one instance (44_peripheral_backend.md R217 to R219, R223). -/
inductive AgentStep (c : Config) (i : Inst) : (Periph → Periph) → Prop
  | txLoad : AgentStep c i Periph.txLoad
  | txDone : AgentStep c i Periph.txDone
  | rxArrive (b : Byte) : AgentStep c i (Periph.rxArrive c i b)
  | cts (level : Bool) : AgentStep c i (Periph.setCts level)

/-- `step_cases` with the other agents' steps put together. -/
theorem step_agent_cases {s t : State} (h : step s = .next t) :
    (nextEvent s = .seq ∧ seqStep (takeTurn s) = .next t) ∨
    (∃ i f, nextEvent s ≠ .seq ∧ nextEvent s ≠ .reset ∧ AgentStep s.cfg i f ∧ t = onPeriph i f (takeTurn s)) ∨
    (nextEvent s = .reset ∧ t = assertReset (takeTurn s)) := by
  rcases step_cases h with hseq | ⟨i, f, ht, hev⟩ | hreset
  · exact .inl hseq
  · refine .inr (.inl ⟨i, f, ?_⟩)
    rcases hev with ⟨e, rfl⟩ | ⟨e, rfl⟩ | ⟨b, e, rfl⟩ | ⟨b, e, rfl⟩ <;> rw [e]
    · exact ⟨nofun, nofun, .txLoad, ht⟩
    · exact ⟨nofun, nofun, .txDone, ht⟩
    · exact ⟨nofun, nofun, .rxArrive b, ht⟩
    · exact ⟨nofun, nofun, .cts b, ht⟩
  · exact .inr (.inr hreset)

/-- The other agents take from the transmit queue only, add to the receive queue only, and do not touch the control register. -/
theorem AgentStep.keeps {c : Config} {i : Inst} {f : Periph → Periph} (h : AgentStep c i f) (p : Periph) :
    (f p).ctrl = p.ctrl ∧ (f p).txq.length ≤ p.txq.length ∧ ∃ more, (f p).rxq = p.rxq ++ more := by
  cases h with
  | txLoad =>
    rcases txLoad_cases p with ⟨x, q, _, _, hq, _, e⟩ | ⟨_, e⟩ <;> rw [e]
    · exact ⟨rfl, by simp [hq], [], (List.append_nil _).symm⟩
    · exact ⟨rfl, le_rfl, [], (List.append_nil _).symm⟩
  | txDone =>
    rcases txDone_cases p with ⟨x, _, _, e⟩ | ⟨_, e⟩ <;> rw [e]
    · exact ⟨rfl, le_rfl, [], (List.append_nil _).symm⟩
    · exact ⟨rfl, le_rfl, [], (List.append_nil _).symm⟩
  | rxArrive b =>
    rcases rxArrive_cases c i b p with ⟨_, _, e⟩ | ⟨_, e⟩ <;> rw [e]
    · exact ⟨rfl, le_rfl, [b], rfl⟩
    · exact ⟨rfl, le_rfl, [], (List.append_nil _).symm⟩
  | cts level => exact ⟨rfl, le_rfl, [], (List.append_nil _).symm⟩

/-- They keep what the instance has accepted, in order (44_peripheral_backend.md R220). -/
theorem AgentStep.accepted {c : Config} {i : Inst} {f : Periph → Periph} (h : AgentStep c i f) (p : Periph) :
    (f p).accepted = p.accepted := by
  cases h with
  | txLoad =>
    rcases txLoad_cases p with ⟨x, q, _, hsh, hq, _, e⟩ | ⟨_, e⟩ <;> rw [e]
    simp [Periph.accepted, hsh, hq]
  | txDone =>
    rcases txDone_cases p with ⟨x, _, hsh, e⟩ | ⟨_, e⟩ <;> rw [e]
    simp [Periph.accepted, hsh]
  | rxArrive b =>
    rcases rxArrive_cases c i b p with ⟨_, _, e⟩ | ⟨_, e⟩ <;> rw [e]
    rfl
  | cts level => rfl

/-- A back-end step on instance `i` leaves what it keeps of `i`, and all of the other. -/
theorem AgentStep.onPeriph_keeps {c : Config} {i : Inst} {f : Periph → Periph} (h : AgentStep c i f) (s : State) (j : Inst) :
    ((onPeriph i f s).periph j).ctrl = (s.periph j).ctrl ∧
      ((onPeriph i f s).periph j).txq.length ≤ (s.periph j).txq.length ∧
      ∃ more, ((onPeriph i f s).periph j).rxq = (s.periph j).rxq ++ more := by
  rcases eq_or_eq_other i j with rfl | rfl
  · rw [onPeriph, periph_setPeriph_self]
    exact h.keeps _
  · rw [onPeriph_other]
    exact ⟨rfl, le_rfl, [], (List.append_nil _).symm⟩

/-! ## The obligations -/

/-- Settles O46: one equation of `seqStep` per outcome of the fetch. -/
theorem stepRunsTheDecodedInstruction : Obligations.StepRunsTheDecodedInstruction := by
  refine ⟨fun s i rest he hf hd => ?_, fun s i he hf hr => ?_, fun s a i hd => ?_, fun s e he hf hd => ?_, fun s he hf hd => ?_⟩
  · exact (step_seq he).trans (seqStep_command hf hd)
  · exact (step_seq he).trans (seqStep_running hf hr)
  · simp only [registerFile, hd]
  · exact (step_seq he).trans (seqStep_malformed hf hd)
  · exact (step_seq he).trans (seqStep_wait hf hd)

/-- Settles O47: the state after reset, field by field; an empty queue is not full, because capacities are positive. -/
theorem resetValues : Obligations.ResetValues := by
  intro c
  have hfull (i : Inst) : txFull c i Periph.reset = 0#1 := txFull_eq_zero.mpr (txCap_pos c i).ne
  refine ⟨rfl, rfl, rfl, rfl, rfl, rfl, rfl, rfl, rfl, rfl, rfl, rfl, rfl, rfl, rfl, rfl, fun i => ?_⟩
  cases i <;> exact ⟨rfl, rfl, rfl, rfl, rfl, hfull _, rfl, rfl⟩

/-- Settles O48: reset is one turn, whatever the state. -/
theorem resetFromAnyState : Obligations.ResetFromAnyState := fun _ he => ⟨_, step_of_event he, rfl⟩

/-- Settles O49: an enabled `TxLoad` makes room and fills the shifter; one that is not enabled is a fixed point. -/
theorem txLoadMovesOldestByte : Obligations.TxLoadMovesOldestByte := by
  intro s i he
  have hstep : step s = .next (onPeriph i Periph.txLoad (takeTurn s)) := step_of_event he
  rw [hstep]
  refine ⟨fun h t hen hsh hq hcts => ⟨_, rfl, ?_, fun hfits => ?_, ?_⟩, fun hno => ?_⟩
  · rw [onPeriph, takeTurn_periph, txLoad_enabled hen hsh hq hcts]
    rfl
  · obtain ⟨hlen, _⟩ := hfits
    rw [hq, List.length_cons] at hlen
    exact txFull_eq_zero.mpr (Nat.ne_of_lt hlen)
  · exact txBusy_eq_one.mpr (.inr (Option.some_ne_none h))
  · rw [onPeriph_of_fixed (by rw [takeTurn_periph, txLoad_disabled hno])]
    rfl

/-- Settles O50: an enabled `TxDone` empties the shifter; one that is not enabled is a fixed point. -/
theorem txDonePutsByteOnWire : Obligations.TxDonePutsByteOnWire := by
  intro s i he
  have hstep : step s = .next (onPeriph i Periph.txDone (takeTurn s)) := step_of_event he
  rw [hstep]
  refine ⟨fun b hen hsh => ⟨_, rfl, ?_, ?_⟩, fun hno => ?_⟩
  · rw [onPeriph, takeTurn_periph, txDone_enabled hen hsh]
    rfl
  · rw [← bit_ne_one, ne_eq, txBusy_eq_one]
    simp
  · rw [onPeriph_of_fixed (by rw [takeTurn_periph, txDone_disabled hno])]
    rfl

/-- Settles O51: a queue that has no room is not empty, because capacities are positive. -/
theorem rxArriveQueuesOrLoses : Obligations.RxArriveQueuesOrLoses := by
  intro s i b he
  have hstep : step s = .next (onPeriph i (Periph.rxArrive s.cfg i b) (takeTurn s)) := step_of_event he
  rw [hstep]
  refine ⟨fun hen hroom => ?_, fun hno => ?_, fun hen => ⟨_, rfl, ?_⟩⟩
  · rw [onPeriph, takeTurn_periph, rxArrive_queued b hen hroom]
    rfl
  · rw [onPeriph_of_fixed (by rw [takeTurn_periph, rxArrive_lost b hno])]
    rfl
  · rw [onPeriph, periph_setPeriph_self, takeTurn_periph, rxNempty_eq_one]
    by_cases hroom : (s.periph i).rxq.length < rxCap s.cfg i
    · simp [rxArrive_queued b hen hroom]
    · have := rxCap_pos s.cfg i
      rw [rxArrive_lost b (.inr (Nat.le_of_not_lt hroom))]
      exact List.length_pos_iff.mp (by omega)

/-- Settles O53: what the other agents do to one instance, by `AgentStep.keeps`. -/
theorem otherAgentsKeepPolledStatus : Obligations.OtherAgentsKeepPolledStatus := by
  intro s t i hfits hstep hseq hreset
  rcases step_agent_cases hstep with ⟨e, _⟩ | ⟨j, f, -, -, hagent, rfl⟩ | ⟨e, _⟩
  · exact absurd e hseq
  · have hframe : { onPeriph j f (takeTurn s) with p0 := s.p0, p1 := s.p1, agenda := s.agenda, bus := s.bus } = s := by
      cases j <;> rfl
    have hcfg : (onPeriph j f (takeTurn s)).cfg = s.cfg := setPeriph_cfg _ _ _
    obtain ⟨-, hlen, more, hrx⟩ := hagent.onPeriph_keeps (takeTurn s) i
    rw [takeTurn_periph] at hlen hrx
    refine ⟨fun hroom => ?_, fun hdata => ?_, ?_, hframe⟩
    · obtain ⟨hcap, -⟩ := hfits
      rw [txFull_eq_zero] at hroom ⊢
      rw [hcfg]
      omega
    · rw [rxNempty_eq_one] at hdata ⊢
      simp [hrx, hdata]
    · rw [hrx, List.take_left]
  · exact absurd e hreset

/-- Settles O54: everything is empty after reset and every command is over. -/
theorem resetMeetsInvariant : Obligations.ResetMeetsInvariant := fun _ hc =>
  { params := hc
    fits0 := ⟨Nat.zero_le _, Nat.zero_le _⟩
    fits1 := ⟨Nat.zero_le _, Nat.zero_le _⟩
    off0 := fun _ _ => ⟨rfl, rfl, rfl⟩
    off1 := fun _ _ => ⟨rfl, rfl, rfl⟩
    walk := .inl rfl
    clean := nofun
    room := nofun
    data := nofun
    fresh := nofun }

end Sys2Proof.Machine
end

section
/-! SUPPORT. What the sequencer's step leaves, said once: the next state of every FSM state (10_state.md R22), and what it changes of
the two instances. The statements about every step go by cases on these. -/

namespace Sys2Proof.Machine

/-! ## What a DATA read leaves -/

/-- The count of free values after a DATA read (log 8). -/
def readDraws (i : Inst) (s : State) : Nat :=
  if (s.periph i).ctrl.en = 1#1 ∧ (s.periph i).rxq ≠ [] then s.draws else s.draws + 1

/-- The receive queue after a DATA read (40_register_model.md R124). -/
def readRxq (i : Inst) (s : State) : List Byte :=
  if (s.periph i).ctrl.en = 1#1 ∧ (s.periph i).rxq ≠ [] then (s.periph i).rxq.tail else (s.periph i).rxq

/-- A DATA read notes the bus cycle, counts a draw it made, and changes the receive queue of its instance only. -/
theorem afterDataRead_eq (i : Inst) (s : State) :
    afterDataRead i s = { s with bus := some (.regRead i offData (readDataWord i s)), draws := readDraws i s }.setPeriph i
      { s.periph i with rxq := readRxq i s } := by
  unfold afterDataRead readDraws readRxq
  split
  · rfl
  · exact (setPeriph_periph _ i).symm

theorem readRxq_suffix (i : Inst) (s : State) : readRxq i s <:+ (s.periph i).rxq := by
  unfold readRxq
  split
  · exact List.tail_suffix _
  · exact List.suffix_rfl

/-! ## The next state of every FSM state -/

/-- The transmit polls: opcode, poll state, and where it goes on (42_blocking_io.md R171, R180). -/
def pollTxRows : List (BitVec 4 × Fsm × Fsm) :=
  [(opPutByte, .pbPoll, .pbWr), (opPuts, .psCrPoll, .psCrWr), (opPuts, .psChPoll, .psChWr)]

/-- The reports of a status bit: opcode and state (42_blocking_io.md R173, R175). -/
def reportRows : List (BitVec 4 × Fsm) := [(opCharReceived, .crRd), (opTxBusy, .tbRd)]

/-- The DATA reads: opcode and state (42_blocking_io.md R172, R174). -/
def receiveRows : List (BitVec 4 × Fsm) := [(opGetByte, .gbRd), (opCharReceivedGet, .cgRd)]

/-- The DATA writes with `b` in `B`: opcode, state, word written, and where it goes on (42_blocking_io.md R171, R180). -/
def sendRows (b : Byte) : List (BitVec 4 × Fsm × Word × Fsm) :=
  [(opPutByte, .pbWr, byteWord b, .idle), (opPuts, .psCrWr, 0x0000000D#32, .psChPoll), (opPuts, .psChWr, byteWord b, .psNext)]

/-- The CTRL writes: the word of SETUP, or the latch with its one bit changed (43_setup.md R201; 42_blocking_io.md R182). -/
inductive CtrlWrite (s : State) : Word → Prop
  | setup (hf : s.fsm = .suWr) (ho : s.op = opSetup) : CtrlWrite s (setupWord s.cfg s.tap s.raw s.irqm)
  | toggle (hf : s.fsm = .rmwWr) {f : Word → Word} (o : ToggleOf s f) : CtrlWrite s (f s.w)

/-- The sequencer's move outside IDLE that answers a next state. -/
inductive SeqNext (s : State) : State → Prop
  | present (hf : s.fsm = .avRd) (ho : s.op = opAvailable) {i : Inst} (hr : resolveHandle s.cfg s.hnd = some i) :
      SeqNext s { s with bus := some (.capRead s.cfg.cap), r0 := presenceBit s.cfg i s.cfg.cap, fsm := .idle }
  | absent (hf : s.fsm = .avRd) (ho : s.op = opAvailable) (hr : resolveHandle s.cfg s.hnd = none) :
      SeqNext s { s with r0 := 0#32, fsm := .idle }
  | resolved (hf : s.fsm = .suRes) (ho : s.op = opSetup) {den clk tap raw : Word}
      (hres : resolve s.cfg s.clk s.bd = .value den clk tap raw) :
      SeqNext s { s with den := den, clk := clk, tap := tap, raw := raw, fsm := .suWr }
  | hang (hf : s.fsm = .suRes) (ho : s.op = opSetup) (hres : resolve s.cfg s.clk s.bd = .neverEnds) :
      SeqNext s { s with den := denominator s.bd, raw := Config.freeWord s.draws, draws := s.draws + 1 }
  | pollTx {wr : Fsm} (h : (s.op, s.fsm, wr) ∈ pollTxRows) :
      SeqNext s { s with
        w := ctrlValue s.sel s, bus := some (.regRead s.sel offCtrl (ctrlValue s.sel s)),
        fsm := if (loadW s).u.txFull = 1#1 then s.fsm else wr }
  | pollRx (hf : s.fsm = .gbPoll) (ho : s.op = opGetByte) :
      SeqNext s { s with
        w := ctrlValue s.sel s, bus := some (.regRead s.sel offCtrl (ctrlValue s.sel s)),
        fsm := if (loadW s).u.rxNempty = 1#1 then .gbRd else .gbPoll }
  | report (h : (s.op, s.fsm) ∈ reportRows) (bit : Bit) :
      SeqNext s { s with
        w := ctrlValue s.sel s, bus := some (.regRead s.sel offCtrl (ctrlValue s.sel s)), r0 := bitWord bit, fsm := .idle }
  | toggleRead (hf : s.fsm = .rmwRd) {f : Word → Word} (o : ToggleOf s f) :
      SeqNext s { s with w := ctrlValue s.sel s, bus := some (.regRead s.sel offCtrl (ctrlValue s.sel s)), fsm := .rmwWr }
  | receive (h : (s.op, s.fsm) ∈ receiveRows) :
      SeqNext s ({ s with
        b := wordByte (readDataWord s.sel s), r0 := byteWord (wordByte (readDataWord s.sel s)), fsm := .idle,
        bus := some (.regRead s.sel offData (readDataWord s.sel s)), draws := readDraws s.sel s }.setPeriph s.sel
          { s.periph s.sel with rxq := readRxq s.sel s })
  | ctrlWrite {v : Word} (h : CtrlWrite s v) :
      SeqNext s ({ s with bus := some (.regWrite s.sel offCtrl v), fsm := .idle }.setPeriph s.sel
        ((s.periph s.sel).writeStored s.cfg (unpack s.cfg.layout v).stored))
  | send {v : Word} {go : Fsm} (h : (s.op, s.fsm, v, go) ∈ sendRows s.b) (hsim : (s.periph s.sel).ctrl.sim ≠ 1#1) :
      SeqNext s ({ s with bus := some (.regWrite s.sel offData v), fsm := go }.setPeriph s.sel
        ((s.periph s.sel).pushTx s.cfg s.sel (wordByte v)))
  | stringEnd (hf : s.fsm = .psNext) (ho : s.op = opPuts) (hs : s.str = []) : SeqNext s { s with fsm := .idle }
  | nextChar (hf : s.fsm = .psNext) (ho : s.op = opPuts) {c : Byte} {r : List Byte} (hs : s.str = c :: r) :
      SeqNext s { s with b := c, str := r, fsm := if c = 0x0A#8 then .psCrPoll else .psChPoll }

/-! The rows' opcodes and states. -/

theorem mem_pollTxRows {op : BitVec 4} {f wr : Fsm} : (op, f, wr) ∈ pollTxRows ↔
    (op = opPutByte ∧ f = .pbPoll ∧ wr = .pbWr) ∨ (op = opPuts ∧ f = .psCrPoll ∧ wr = .psCrWr) ∨
      (op = opPuts ∧ f = .psChPoll ∧ wr = .psChWr) := by
  simp only [pollTxRows, List.mem_cons, Prod.mk.injEq, List.not_mem_nil, or_false]

theorem mem_sendRows {b : Byte} {op : BitVec 4} {f go : Fsm} {v : Word} : (op, f, v, go) ∈ sendRows b ↔
    (op = opPutByte ∧ f = .pbWr ∧ v = byteWord b ∧ go = .idle) ∨
      (op = opPuts ∧ f = .psCrWr ∧ v = 0x0000000D#32 ∧ go = .psChPoll) ∨
      (op = opPuts ∧ f = .psChWr ∧ v = byteWord b ∧ go = .psNext) := by
  simp only [sendRows, List.mem_cons, Prod.mk.injEq, List.not_mem_nil, or_false]

theorem op_mem_of_receiveRows {op : BitVec 4} {f : Fsm} (h : (op, f) ∈ receiveRows) : op ∈ [opGetByte, opCharReceivedGet] :=
  List.mem_map_of_mem (f := Prod.fst) h

theorem op_mem_of_sendRows {b : Byte} {op : BitVec 4} {f go : Fsm} {v : Word} (h : (op, f, v, go) ∈ sendRows b) :
    op ∈ [opPutByte, opPuts] := by
  have := List.mem_map_of_mem (f := Prod.fst) h
  simpa [sendRows] using this

theorem CtrlWrite.op_mem {s : State} {v : Word} (h : CtrlWrite s v) :
    s.op ∈ [opSetup, opEnable, opDisable, opRtsctsEnable, opRtsctsDisable] := by
  cases h with
  | setup hf ho => simp [ho]
  | toggle hf o => cases o <;> simp [*]

theorem fsm_of_pollTxRows {op : BitVec 4} {f wr : Fsm} (h : (op, f, wr) ∈ pollTxRows) :
    f = .pbPoll ∨ f = .psCrPoll ∨ f = .psChPoll := by
  rcases mem_pollTxRows.mp h with ⟨-, e, -⟩ | ⟨-, e, -⟩ | ⟨-, e, -⟩
  · exact .inl e
  · exact .inr (.inl e)
  · exact .inr (.inr e)

theorem fsm_of_sendRows {b : Byte} {op : BitVec 4} {f go : Fsm} {v : Word} (h : (op, f, v, go) ∈ sendRows b) :
    f = .pbWr ∨ f = .psCrWr ∨ f = .psChWr := by
  rcases mem_sendRows.mp h with ⟨-, e, -⟩ | ⟨-, e, -⟩ | ⟨-, e, -⟩
  · exact .inl e
  · exact .inr (.inl e)
  · exact .inr (.inr e)

theorem fsm_of_reportRows {op : BitVec 4} {f : Fsm} (h : (op, f) ∈ reportRows) : f = .crRd ∨ f = .tbRd := by
  have := List.mem_map_of_mem (f := Prod.snd) h
  simpa [reportRows] using this

theorem fsm_of_receiveRows {op : BitVec 4} {f : Fsm} (h : (op, f) ∈ receiveRows) : f = .gbRd ∨ f = .cgRd := by
  have := List.mem_map_of_mem (f := Prod.snd) h
  simpa [receiveRows] using this

theorem fsm_of_ctrlWrite {s : State} {v : Word} (h : CtrlWrite s v) : s.fsm = .suWr ∨ s.fsm = .rmwWr := by
  cases h with
  | setup hf ho => exact .inl hf
  | toggle hf o => exact .inr hf

theorem sendWord_next {s t : State} {v : Word} {go : Fsm} (h : (s.op, s.fsm, v, go) ∈ sendRows s.b) (e : sendWord v go s = .next t) :
    SeqNext s t := by
  rcases sendWord_cases v go s with ⟨_, e'⟩ | ⟨hsim, e'⟩ <;> rw [e'] at e <;> cases e
  exact .send h hsim

theorem pollTx_next {s t : State} {poll wr : Fsm} (hf : s.fsm = poll) (h : (s.op, poll, wr) ∈ pollTxRows)
    (e : pollTx poll wr s = .next t) : SeqNext s t := by
  subst hf
  cases e
  exact .pollTx h

theorem takeReceived_next {s t : State} (h : (s.op, s.fsm) ∈ receiveRows) (e : takeReceived s = .next t) : SeqNext s t := by
  rw [takeReceived, afterDataRead_eq] at e
  cases e
  exact .receive h

/-- What a move that answers a next state comes to. -/
theorem SeqMove.next {s t : State} {r : Result} (h : SeqMove s r) (e : r = .next t) : SeqNext s t := by
  cases h with
  | avRd hf ho =>
    cases hr : resolveHandle s.cfg s.hnd with
    | some i =>
      rw [availableRead_some hr] at e
      cases e
      exact .present hf ho hr
    | none =>
      rw [availableRead_none hr] at e
      cases e
      exact .absent hf ho hr
  | suRes hf ho =>
    unfold setupResolve at e
    split at e <;> cases e
    · exact .resolved hf ho ‹_›
    · exact .hang hf ho ‹_›
  | suWr hf ho =>
    cases e
    exact .ctrlWrite (.setup hf ho)
  | pbPoll hf ho => exact pollTx_next hf (by simp [pollTxRows, ho]) e
  | psCrPoll hf ho => exact pollTx_next hf (by simp [pollTxRows, ho]) e
  | psChPoll hf ho => exact pollTx_next hf (by simp [pollTxRows, ho]) e
  | pbWr hf ho => exact sendWord_next (by simp [sendRows, hf, ho]) e
  | psCrWr hf ho => exact sendWord_next (by simp [sendRows, hf, ho]) e
  | psChWr hf ho => exact sendWord_next (by simp [sendRows, hf, ho]) e
  | gbPoll hf ho =>
    cases e
    exact .pollRx hf ho
  | gbRd hf ho => exact takeReceived_next (by simp [receiveRows, hf, ho]) e
  | cgRd hf ho => exact takeReceived_next (by simp [receiveRows, hf, ho]) e
  | crRd hf ho =>
    cases e
    exact .report (by simp [reportRows, hf, ho]) _
  | tbRd hf ho =>
    cases e
    exact .report (by simp [reportRows, hf, ho]) _
  | rmwRd hf o =>
    cases e
    exact .toggleRead hf o
  | rmwWr hf o =>
    cases e
    exact .ctrlWrite (.toggle hf o)
  | psNext hf ho =>
    cases hs : s.str with
    | nil =>
      rw [putsNext_nil hs] at e
      cases e
      exact .stringEnd hf ho hs
    | cons c r =>
      rw [putsNext_cons hs] at e
      cases e
      exact .nextChar hf ho hs
  | lost => cases e

/-! ## What a step of the sequencer changes of the instances -/

/-- What a step from `s` to `t` does to the instances: nothing, or what its DATA read, CTRL write or DATA write does to the one in
`SEL`. -/
inductive PeriphChange (s t : State) : Prop
  | same (h : t.periph = s.periph)
  | receive (h : (s.op, s.fsm) ∈ receiveRows) {q : List Byte} (hq : q <:+ (s.periph s.sel).rxq)
      (own : t.periph s.sel = { s.periph s.sel with rxq := q }) (other : t.periph s.sel.other = s.periph s.sel.other)
  | ctrlWrite {v : Word} (h : CtrlWrite s v) (bus : t.bus = some (.regWrite s.sel offCtrl v))
      (own : t.periph s.sel = (s.periph s.sel).writeStored s.cfg (unpack s.cfg.layout v).stored)
      (other : t.periph s.sel.other = s.periph s.sel.other)
  | send {v : Word} {go : Fsm} (h : (s.op, s.fsm, v, go) ∈ sendRows s.b) (bus : t.bus = some (.regWrite s.sel offData v))
      (own : t.periph s.sel = (s.periph s.sel).pushTx s.cfg s.sel (wordByte v))
      (other : t.periph s.sel.other = s.periph s.sel.other)

theorem SeqNext.periphChange {s t : State} (h : SeqNext s t) : PeriphChange s t := by
  cases h with
  | receive h => exact .receive h (readRxq_suffix _ _) (periph_setPeriph_self _ _ _) (periph_setPeriph_other _ _ _)
  | ctrlWrite h => exact .ctrlWrite h (setPeriph_bus _ _ _) (periph_setPeriph_self _ _ _) (periph_setPeriph_other _ _ _)
  | send h hsim => exact .send h (setPeriph_bus _ _ _) (periph_setPeriph_self _ _ _) (periph_setPeriph_other _ _ _)
  | _ => exact .same rfl

/-- The sequencer's moves keep the parameters, the inputs, the command and its instance. -/
theorem SeqNext.keeps {s t : State} (h : SeqNext s t) :
    t.cfg = s.cfg ∧ t.offers = s.offers ∧ t.agenda = s.agenda ∧ t.op = s.op ∧ t.sel = s.sel := by
  cases h with
  | receive | ctrlWrite | send => simp
  | _ => exact ⟨rfl, rfl, rfl, rfl, rfl⟩

/-! ## The accept step -/

/-- What every accept step leaves: it enters the walk of its command and touches neither instance (10_state.md R23). -/
structure Accepted (s t : State) : Prop where
  entry  : t.fsm ∈ Fsm.successors .idle
  walk   : t.fsm ∈ walkStates t.op
  periph : t.periph = s.periph
  cfg    : t.cfg = s.cfg
  bus    : t.bus = s.bus
  offers : t.offers = s.offers
  agenda : t.agenda = s.agenda
  draws  : t.draws = s.draws
  w      : t.w = s.w
  str    : t.str = s.str ∨ ∀ c ∈ t.str, c ≠ 0#8

theorem AcceptMove.accepted {i : Instr} {s t : State} (h : AcceptMove i s (.next t)) : Accepted s t := by
  cases h with
  | available | setup | putByte =>
    exact ⟨by simp [Fsm.successors], by simp [walkStates], rfl, rfl, rfl, rfl, rfl, rfl, rfl, .inl rfl⟩
  | puts h str j e w =>
    subst e
    exact ⟨by simp [Fsm.successors], by simp [walkStates], rfl, rfl, rfl, rfl, rfl, rfl, rfl, .inr (wellFormed_puts.mp w)⟩
  | plain h j op entry e =>
    have hentry : entry ∈ Fsm.successors .idle ∧ entry ∈ walkStates op := by
      simp only [List.mem_cons, Prod.mk.injEq, List.not_mem_nil, or_false] at e
      rcases e with ⟨_, rfl, rfl⟩ | ⟨_, rfl, rfl⟩ | ⟨_, rfl, rfl⟩ | ⟨_, rfl, rfl⟩ | ⟨_, rfl, rfl⟩ | ⟨_, rfl, rfl⟩ |
        ⟨_, rfl, rfl⟩ | ⟨_, rfl, rfl⟩ <;> decide
    exact ⟨hentry.1, hentry.2, rfl, rfl, rfl, rfl, rfl, rfl, rfl, .inl rfl⟩

/-! ## An instruction's step -/

theorem opcodeOf_of_isCommand {i : Instr} (h : isCommand i = true) : ∃ op, opcodeOf i = some op := by
  cases i <;> simp_all [isCommand, opcodeOf]

/-- An instruction that answers a next state: a port transaction, an accept step, or a move of the running command. -/
theorem exec_next_cases {i : Instr} {s t : State} (h : exec i s = .next t) :
    isCommand i = false ∨
    (isCommand i = true ∧ s.fsm = .idle ∧ AcceptMove i s (.next t)) ∨
    (isCommand i = true ∧ s.fsm ≠ .idle ∧ opcodeOf i = some s.op ∧ SeqNext s t) := by
  cases hc : isCommand i with
  | false => exact .inl rfl
  | true =>
    right
    by_cases hf : s.fsm = .idle
    · exact .inl ⟨rfl, hf, h ▸ exec_accept hf hc⟩
    · obtain ⟨op, hop⟩ := opcodeOf_of_isCommand hc
      by_cases ho : s.op = op
      · subst ho
        exact .inr ⟨rfl, hf, hop, (exec_move hf hop).next h⟩
      · rw [exec_busy hf hop ho] at h
        cases h

/-- The sequencer's turn that answers a next state: an accept step, a wait in IDLE, or a move. -/
theorem seqStep_next_cases {s t : State} (h : seqStep s = .next t) :
    (∃ i rest, s.fsm = .idle ∧ decodeCommand s.offers = .ok i rest ∧ AcceptMove i { s with offers := rest } (.next t)) ∨
    (s.fsm = .idle ∧ decodeCommand s.offers = .incomplete ∧ t = s) ∨
    (s.fsm ≠ .idle ∧ SeqNext s t) := by
  rcases seqStep_cases s with ⟨i, rest, hf, hd, e⟩ | ⟨hf, hd, e⟩ | ⟨_, _, _, e⟩ | ⟨hf, hmove⟩
  · rw [e] at h
    exact .inl ⟨i, rest, hf, hd, h ▸ exec_accept (s := { s with offers := rest }) hf (isCommand_of_decodeCommand hd)⟩
  · rw [e] at h
    cases h
    exact .inr (.inl ⟨hf, hd, rfl⟩)
  · rw [e] at h
    cases h
  · exact .inr (.inr ⟨hf, hmove.next h⟩)

/-- A turn of the sequencer changes the instances as `PeriphChange` lists. -/
theorem seqStep_periphChange {s t : State} (h : seqStep s = .next t) : PeriphChange s t := by
  rcases seqStep_next_cases h with ⟨i, rest, -, -, hacc⟩ | ⟨-, -, rfl⟩ | ⟨-, hmove⟩
  · exact .same hacc.accepted.periph
  · exact .same rfl
  · exact hmove.periphChange

end Sys2Proof.Machine
end

section
/-! SUPPORT. The frames of an instruction's step: the registers it writes (10_state.md R21), what it leaves of the two instances
(20_memory.md R58 (c)), and the bus cycle it makes (40_register_model.md R128). -/

namespace Sys2Proof.Machine

/-! ## Registers -/

/-- A port transaction changes the instances, the bus and the count of free values only. -/
theorem exec_port_latches {i : Instr} {s t : State} (hi : isCommand i = false) (h : exec i s = .next t) :
    { t with p0 := s.p0, p1 := s.p1, bus := s.bus, draws := s.draws } = s := by
  cases i <;> simp only [isCommand, reduceCtorEq] at hi
  case portRdCtrl j =>
    cases h
    rfl
  case portRdData j =>
    rw [exec_portRdData, afterDataRead_eq] at h
    cases h
    cases j <;> rfl
  case portWrCtrl j v =>
    cases h
    cases j <;> rfl
  case portWrData j v =>
    rw [exec_portWrData] at h
    rcases writeData_cases j v s with ⟨_, e⟩ | ⟨_, e⟩ <;> rw [e] at h <;> cases h
    cases j <;> rfl

/-! ## Instances -/

/-- What an instruction's own transaction can change of the instance it acts on, from `p` to `q`. -/
def MayChange (i : Instr) (c : Config) (p q : Periph) : Prop :=
  match i with
  | .available _ | .charReceived _ | .txBusy _ | .portRdCtrl _ => q = p
  | .getByte _ | .charReceivedGet _ | .portRdData _ => q = { p with rxq := q.rxq }
  | .putByte _ _ | .puts _ _ | .portWrData _ _ => q = { p with txq := q.txq }
  | .setup _ _ _ _ | .enable _ | .disable _ | .rtsctsEnable _ | .rtsctsDisable _ | .portWrCtrl _ _ =>
    (q.txq = p.txq ∧ q.rxq = p.rxq ∧ q.txsh = p.txsh) ∨
      (q.ctrl.en = 0#1 ∧ c.en0Flush = true ∧ q.txq = [] ∧ q.rxq = [] ∧ q.txsh = none)

theorem mayChange_refl (i : Instr) (c : Config) (p : Periph) : MayChange i c p p := by
  cases i
  case setup | enable | disable | rtsctsEnable | rtsctsDisable | portWrCtrl => exact .inl ⟨rfl, rfl, rfl⟩
  all_goals rfl

/-- A CTRL write keeps the queues and the shifter, or flushes them. -/
theorem writeStored_keeps_or_flushes (c : Config) (f : Stored) (p : Periph) :
    ((p.writeStored c f).txq = p.txq ∧ (p.writeStored c f).rxq = p.rxq ∧ (p.writeStored c f).txsh = p.txsh) ∨
      ((p.writeStored c f).ctrl.en = 0#1 ∧ c.en0Flush = true ∧ (p.writeStored c f).txq = [] ∧ (p.writeStored c f).rxq = [] ∧
        (p.writeStored c f).txsh = none) := by
  rcases writeStored_cases c f p with ⟨hen, hflush, e⟩ | ⟨_, e⟩ <;> rw [e]
  · exact .inr ⟨hen, hflush, rfl, rfl, rfl⟩
  · exact .inl ⟨rfl, rfl, rfl⟩

/-- A push changes the transmit queue only. -/
theorem pushTx_eq_txq (c : Config) (i : Inst) (b : Byte) (p : Periph) : p.pushTx c i b = { p with txq := (p.pushTx c i b).txq } := by
  rcases pushTx_cases c i b p with ⟨_, _, e⟩ | ⟨_, e⟩ <;> rw [e]

/-- The frame of an instruction's step on the instances: the parameters, the inputs and the other instance stay. -/
structure Framed (i : Instr) (s t : State) : Prop where
  cfg    : t.cfg = s.cfg
  offers : t.offers = s.offers
  agenda : t.agenda = s.agenda
  other  : t.periph (targetOf s i).other = s.periph (targetOf s i).other
  wireTx : (t.periph (targetOf s i)).wireTx = (s.periph (targetOf s i)).wireTx
  cts    : (t.periph (targetOf s i)).cts = (s.periph (targetOf s i)).cts
  change : MayChange i s.cfg (s.periph (targetOf s i)) (t.periph (targetOf s i))

/-- A step that puts `p` in the place of its instance is framed when `p` is. -/
theorem Framed.of_setPeriph {i : Instr} {s u : State} {p : Periph}
    (hu : u.cfg = s.cfg ∧ u.offers = s.offers ∧ u.agenda = s.agenda ∧ u.periph = s.periph)
    (hwire : p.wireTx = (s.periph (targetOf s i)).wireTx) (hcts : p.cts = (s.periph (targetOf s i)).cts)
    (hp : MayChange i s.cfg (s.periph (targetOf s i)) p) : Framed i s (u.setPeriph (targetOf s i) p) := by
  obtain ⟨hc, ho, ha, hper⟩ := hu
  exact ⟨by simp [hc], by simp [ho], by simp [ha], by simp [hper], by simp [hwire], by simp [hcts], by simpa using hp⟩

/-- A step that changes neither instance. -/
theorem Framed.of_periph_eq {i : Instr} {s t : State} (hc : t.cfg = s.cfg) (ho : t.offers = s.offers) (ha : t.agenda = s.agenda)
    (hp : t.periph = s.periph) : Framed i s t :=
  ⟨hc, ho, ha, by rw [hp], by rw [hp], by rw [hp], hp ▸ mayChange_refl i _ _⟩

theorem exec_port_framed {i : Instr} {s t : State} (hi : isCommand i = false) (h : exec i s = .next t) : Framed i s t := by
  cases i <;> simp only [isCommand, reduceCtorEq] at hi
  case portRdCtrl j =>
    cases h
    exact .of_periph_eq rfl rfl rfl rfl
  case portRdData j =>
    rw [exec_portRdData, afterDataRead_eq] at h
    cases h
    exact .of_setPeriph (i := .portRdData j) ⟨rfl, rfl, rfl, rfl⟩ rfl rfl rfl
  case portWrCtrl j v =>
    cases h
    exact .of_setPeriph (i := .portWrCtrl j v) ⟨rfl, rfl, rfl, rfl⟩ (writeStored_wireTx _ _ _) (writeStored_cts _ _ _)
      (writeStored_keeps_or_flushes _ _ _)
  case portWrData j v =>
    rw [exec_portWrData] at h
    rcases writeData_cases j v s with ⟨_, e⟩ | ⟨_, e⟩ <;> rw [e] at h <;> cases h
    have hp := pushTx_eq_txq s.cfg j (wordByte v) (s.periph j)
    exact .of_setPeriph (i := .portWrData j v) ⟨rfl, rfl, rfl, rfl⟩ (by rw [hp]; rfl) (by rw [hp]; rfl) hp

theorem targetOf_command {i : Instr} (hi : isCommand i = true) (s : State) : targetOf s i = s.sel := by
  cases i <;> simp_all [isCommand, targetOf]

/-! A command may change what its opcode's transaction changes. -/

theorem mayChange_receive {i : Instr} {op : BitVec 4} (h : opcodeOf i = some op) (hop : op ∈ [opGetByte, opCharReceivedGet])
    (c : Config) (p : Periph) (q : List Byte) : MayChange i c p { p with rxq := q } := by
  cases i <;> cases h
  case getByte | charReceivedGet => rfl
  all_goals exact absurd hop (by decide)

theorem mayChange_send {i : Instr} {op : BitVec 4} (h : opcodeOf i = some op) (hop : op ∈ [opPutByte, opPuts]) (c : Config)
    {p q : Periph} (hq : q = { p with txq := q.txq }) : MayChange i c p q := by
  cases i <;> cases h
  case putByte | puts => exact hq
  all_goals exact absurd hop (by decide)

theorem mayChange_ctrlWrite {i : Instr} {op : BitVec 4} (h : opcodeOf i = some op)
    (hop : op ∈ [opSetup, opEnable, opDisable, opRtsctsEnable, opRtsctsDisable]) (c : Config) (f : Stored) (p : Periph) :
    MayChange i c p (p.writeStored c f) := by
  cases i <;> cases h
  case setup | enable | disable | rtsctsEnable | rtsctsDisable => exact writeStored_keeps_or_flushes c f p
  all_goals exact absurd hop (by decide)

/-- The change a move of the running command makes is one its command may make. -/
theorem PeriphChange.mayChange {i : Instr} {s t : State} (hop : opcodeOf i = some s.op) (h : PeriphChange s t) :
    t.periph s.sel.other = s.periph s.sel.other ∧ (t.periph s.sel).wireTx = (s.periph s.sel).wireTx ∧
      (t.periph s.sel).cts = (s.periph s.sel).cts ∧ MayChange i s.cfg (s.periph s.sel) (t.periph s.sel) := by
  cases h with
  | same h =>
    rw [h]
    exact ⟨rfl, rfl, rfl, mayChange_refl i _ _⟩
  | receive hrow hq own other =>
    rw [own]
    exact ⟨other, rfl, rfl, mayChange_receive hop (op_mem_of_receiveRows hrow) _ _ _⟩
  | ctrlWrite hv bus own other =>
    rw [own]
    exact ⟨other, writeStored_wireTx _ _ _, writeStored_cts _ _ _, mayChange_ctrlWrite hop hv.op_mem _ _ _⟩
  | @send v go hrow bus own other =>
    rw [own]
    have hp := pushTx_eq_txq s.cfg s.sel (wordByte v) (s.periph s.sel)
    exact ⟨other, by rw [hp], by rw [hp], mayChange_send hop (op_mem_of_sendRows hrow) _ hp⟩

/-- Every instruction's step is framed. -/
theorem exec_framed {i : Instr} {s t : State} (h : exec i s = .next t) : Framed i s t := by
  rcases exec_next_cases h with hi | ⟨hi, -, hacc⟩ | ⟨hi, -, hop, hmove⟩
  · exact exec_port_framed hi h
  · have ha := hacc.accepted
    exact .of_periph_eq ha.cfg ha.offers ha.agenda ha.periph
  · obtain ⟨hcfg, hoffers, hagenda, -, -⟩ := hmove.keeps
    obtain ⟨hother, hwire, hcts, hchange⟩ := hmove.periphChange.mayChange hop
    rw [← targetOf_command hi s] at hother hwire hcts hchange
    exact ⟨hcfg, hoffers, hagenda, hother, hwire, hcts, hchange⟩

/-! ## The obligations -/

/-- Settles O38: a port transaction writes no register; the others by their accept step or move. -/
theorem registersWrittenOnlyWhereListed : Obligations.RegistersWrittenOnlyWhereListed := by
  intro i s t h
  rcases exec_next_cases h with hi | ⟨hi, hf, hacc⟩ | ⟨hi, -, -, hmove⟩
  · have e := exec_port_latches hi h
    obtain ⟨⟩ := s
    simp only [State.mk.injEq] at e
    simp [e]
  · cases hacc <;> simp [hf, hi]
  · cases hmove with
    | present hf | absent hf | resolved hf | hang hf | pollRx hf | toggleRead hf | stringEnd hf | nextChar hf => simp [hi, hf]
    | pollTx hrow =>
      rcases fsm_of_pollTxRows hrow with hf | hf | hf <;> simp [hi, hf]
    | report hrow =>
      rcases fsm_of_reportRows hrow with hf | hf <;> simp [hi, hf]
    | receive hrow =>
      rcases fsm_of_receiveRows hrow with hf | hf <;> simp [hi, hf]
    | ctrlWrite | send => simp [hi]

/-- Settles O39: `exec_framed`, with the other instance as any that is not the target. -/
theorem peripheralFrame : Obligations.PeripheralFrame := by
  intro i s t h
  obtain ⟨hcfg, hoffers, hagenda, hother, hwire, hcts, hchange⟩ := exec_framed h
  refine ⟨hcfg, hoffers, hagenda, fun j hj => ?_, hwire, hcts, ?_⟩
  · rw [(eq_or_eq_other (targetOf s i) j).resolve_left hj, hother]
  · cases i <;> exact hchange

/-- Settles O42: an accept step is quiet, and each move notes its own cycle. -/
theorem everyStateMakesItsOwnCycle : Obligations.EveryStateMakesItsOwnCycle := by
  intro i s t hi hbus h
  rcases exec_next_cases h with hport | ⟨-, hf, hacc⟩ | ⟨-, -, -, hmove⟩
  · exact absurd (hport.symm.trans hi) (by decide)
  · simp only [hf]
    exact hacc.accepted.bus.trans hbus
  · cases hmove with
    | present hf ho hr =>
      simp only [hf]
      rcases resolveHandle_cases s.cfg s.hnd with ⟨h0, -⟩ | ⟨-, h1, -⟩ | ⟨-, -, hno⟩
      · rw [if_pos (.inl h0)]
      · rw [if_pos (.inr h1)]
      · exact absurd (hr.symm.trans hno) (Option.some_ne_none _)
    | absent hf ho hr =>
      simp only [hf]
      rcases resolveHandle_cases s.cfg s.hnd with ⟨-, h0⟩ | ⟨-, -, h1⟩ | ⟨hno0, hno1, -⟩
      · exact absurd (h0.symm.trans hr) (Option.some_ne_none _)
      · exact absurd (h1.symm.trans hr) (Option.some_ne_none _)
      · rw [if_neg (not_or.mpr ⟨hno0, hno1⟩), hbus]
    | resolved hf | hang hf | stringEnd hf | nextChar hf =>
      simp only [hf]
      exact hbus
    | pollRx hf | toggleRead hf => simp only [hf]
    | pollTx hrow =>
      rcases fsm_of_pollTxRows hrow with hf | hf | hf <;> simp only [hf]
    | report hrow =>
      rcases fsm_of_reportRows hrow with hf | hf <;> simp only [hf]
    | receive hrow =>
      rcases fsm_of_receiveRows hrow with hf | hf <;> simp only [hf] <;> exact ⟨_, setPeriph_bus _ _ _, setPeriph_r0 _ _ _⟩
    | ctrlWrite hv =>
      cases hv with
      | setup hf ho =>
        simp only [hf]
        exact setPeriph_bus _ _ _
      | toggle hf o =>
        simp only [hf]
        refine ⟨_, setPeriph_bus _ _ _, ?_⟩
        cases o with
        | enable ho => exact .inl ⟨ho, rfl⟩
        | disable ho => exact .inr (.inl ⟨ho, rfl⟩)
        | flowOn ho => exact .inr (.inr (.inl ⟨ho, rfl⟩))
        | flowOff ho => exact .inr (.inr (.inr ⟨ho, rfl⟩))
    | send hrow =>
      rcases mem_sendRows.mp hrow with ⟨-, hf, rfl, rfl⟩ | ⟨-, hf, rfl, rfl⟩ | ⟨-, hf, rfl, rfl⟩ <;>
        simp only [hf] <;> exact setPeriph_bus _ _ _

end Sys2Proof.Machine
end

section
/-! SUPPORT. The two instances do not interfere (44_peripheral_backend.md R226, 20_memory.md R58 (c)): with anything else in the place of
the instance a step does not act on, the step does the same. -/

namespace Sys2Proof.Machine

/-- The outcome with its next state changed by `f`. -/
def mapNext (f : State → State) : Result → Result
  | .next t => .next (f t)
  | .fault e => .fault e
  | .refused r => .refused r

/-! ## The shared steps -/

section Apart

variable (s : State) (q : Periph)

theorem accept_apart (op : BitVec 4) (h : Word) (entry : Fsm) (i : Inst) :
    accept op h entry (s.setPeriph i q) = mapNext (·.setPeriph i q) (accept op h entry s) := by
  unfold accept
  rw [setPeriph_cfg]
  cases resolveHandle s.cfg h <;> cases i <;> rfl

theorem availableRead_apart (i : Inst) : availableRead (s.setPeriph i q) = mapNext (·.setPeriph i q) (availableRead s) := by
  unfold availableRead
  rw [setPeriph_cfg, setPeriph_hnd]
  cases resolveHandle s.cfg s.hnd <;> cases i <;> rfl

theorem setupResolve_apart (i : Inst) : setupResolve (s.setPeriph i q) = mapNext (·.setPeriph i q) (setupResolve s) := by
  unfold setupResolve
  rw [setPeriph_cfg, setPeriph_clk, setPeriph_bd]
  cases resolve s.cfg s.clk s.bd <;> cases i <;> rfl

theorem putsNext_apart (i : Inst) : putsNext (s.setPeriph i q) = mapNext (·.setPeriph i q) (putsNext s) := by
  unfold putsNext
  rw [setPeriph_str]
  cases s.str <;> cases i <;> rfl

theorem setupWrite_apart : setupWrite (s.setPeriph s.sel.other q) = mapNext (·.setPeriph s.sel.other q) (setupWrite s) := by
  obtain ⟨_, _, _, sel⟩ := s
  cases sel <;> rfl

theorem pollTx_apart (stay go : Fsm) :
    pollTx stay go (s.setPeriph s.sel.other q) = mapNext (·.setPeriph s.sel.other q) (pollTx stay go s) := by
  obtain ⟨_, _, _, sel⟩ := s
  cases sel <;> rfl

theorem pollRx_apart (stay go : Fsm) :
    pollRx stay go (s.setPeriph s.sel.other q) = mapNext (·.setPeriph s.sel.other q) (pollRx stay go s) := by
  obtain ⟨_, _, _, sel⟩ := s
  cases sel <;> rfl

theorem reportBit_apart (pick : Unpacked → Bit) :
    reportBit pick (s.setPeriph s.sel.other q) = mapNext (·.setPeriph s.sel.other q) (reportBit pick s) := by
  obtain ⟨_, _, _, sel⟩ := s
  cases sel <;> rfl

theorem rmwWalk_apart (f : Word → Word) :
    rmwWalk f (s.setPeriph s.sel.other q) = mapNext (·.setPeriph s.sel.other q) (rmwWalk f s) := by
  obtain ⟨fsm, _, _, sel⟩ := s
  cases sel <;> cases fsm <;> rfl

theorem afterDataRead_apart (i : Inst) : afterDataRead i (s.setPeriph i.other q) = (afterDataRead i s).setPeriph i.other q := by
  cases i <;> simp only [afterDataRead_eq] <;> rfl

theorem writeData_apart (i : Inst) (v : Word) :
    writeData i v (s.setPeriph i.other q) = mapNext (·.setPeriph i.other q) (writeData i v s) := by
  unfold writeData
  rw [periph_setPeriph_ne s q (other_ne i).symm, setPeriph_cfg]
  split
  · rfl
  · cases i <;> rfl

theorem takeReceived_apart : takeReceived (s.setPeriph s.sel.other q) = mapNext (·.setPeriph s.sel.other q) (takeReceived s) := by
  unfold takeReceived
  simp only [afterDataRead_eq]
  obtain ⟨_, _, _, sel⟩ := s
  cases sel <;> rfl

theorem sendWord_apart (v : Word) (go : Fsm) :
    sendWord v go (s.setPeriph s.sel.other q) = mapNext (·.setPeriph s.sel.other q) (sendWord v go s) := by
  have h := writeData_apart { s with fsm := go } q s.sel v
  unfold sendWord
  rw [← h]
  obtain ⟨_, _, _, sel⟩ := s
  cases sel <;> rfl

/-! ## Commands and port transactions -/

theorem asCommand_apart {i : Inst} (op : BitVec 4) {first first' onward onward' : Result}
    (hfirst : first' = mapNext (·.setPeriph i q) first) (honward : onward' = mapNext (·.setPeriph i q) onward) :
    asCommand op (s.setPeriph i q) first' onward' = mapNext (·.setPeriph i q) (asCommand op s first onward) := by
  subst hfirst honward
  unfold asCommand
  rw [setPeriph_fsm, setPeriph_op]
  split
  · rfl
  · split <;> rfl

/-- The accept step on a state that differs from another in one instance. -/
theorem accept_of_setPeriph (op : BitVec 4) (h : Word) (entry : Fsm) {i : Inst} {u u' : State} (e : u' = u.setPeriph i q) :
    accept op h entry u' = mapNext (·.setPeriph i q) (accept op h entry u) :=
  e ▸ accept_apart u q op h entry i

/-- An instruction reads and writes the instance it acts on only. -/
theorem exec_apart (i : Instr) :
    exec i (s.setPeriph (targetOf s i).other q) = mapNext (·.setPeriph (targetOf s i).other q) (exec i s) := by
  cases i
  case portRdCtrl j => cases j <;> rfl
  case portRdData j => exact congrArg Host.Outcome.next (afterDataRead_apart s q j)
  case portWrCtrl j v => cases j <;> rfl
  case portWrData j v => exact writeData_apart s q j v
  case available h =>
    refine asCommand_apart s q _ ?_ ?_
    · generalize (targetOf s _).other = j
      cases j <;> rfl
    · simp only [setPeriph_fsm]
      split
      · exact availableRead_apart s q _
      · rfl
  case setup h a0 a1 a2 =>
    refine asCommand_apart s q _ (accept_of_setPeriph q _ _ _ ?_) ?_
    · generalize (targetOf s _).other = j
      cases j <;> rfl
    · simp only [setPeriph_fsm]
      split
      · exact setupResolve_apart s q _
      · exact setupWrite_apart s q
      · rfl
  case putByte h b =>
    refine asCommand_apart s q _ (accept_of_setPeriph q _ _ _ ?_) ?_
    · generalize (targetOf s _).other = j
      cases j <;> rfl
    · simp only [setPeriph_fsm, setPeriph_b]
      split
      · exact pollTx_apart s q _ _
      · exact sendWord_apart s q _ _
      · rfl
  case puts h str =>
    refine asCommand_apart s q _ ?_ ?_
    · split
      · refine accept_of_setPeriph q _ _ _ ?_
        generalize (targetOf s _).other = j
        cases j <;> rfl
      · rfl
    · simp only [setPeriph_fsm, setPeriph_b]
      split
      · exact putsNext_apart s q _
      · exact pollTx_apart s q _ _
      · exact sendWord_apart s q _ _
      · exact pollTx_apart s q _ _
      · exact sendWord_apart s q _ _
      · rfl
  case getByte h =>
    refine asCommand_apart s q _ (accept_apart s q _ _ _ _) ?_
    simp only [setPeriph_fsm]
    split
    · exact pollRx_apart s q _ _
    · exact takeReceived_apart s q
    · rfl
  case charReceived h =>
    refine asCommand_apart s q _ (accept_apart s q _ _ _ _) ?_
    simp only [setPeriph_fsm]
    split
    · exact reportBit_apart s q _
    · rfl
  case charReceivedGet h =>
    refine asCommand_apart s q _ (accept_apart s q _ _ _ _) ?_
    simp only [setPeriph_fsm]
    split
    · exact takeReceived_apart s q
    · rfl
  case txBusy h =>
    refine asCommand_apart s q _ (accept_apart s q _ _ _ _) ?_
    simp only [setPeriph_fsm]
    split
    · exact reportBit_apart s q _
    · rfl
  case enable | disable | rtsctsEnable | rtsctsDisable =>
    refine asCommand_apart s q _ (accept_apart s q _ _ _ _) ?_
    rw [setPeriph_cfg]
    exact rmwWalk_apart s q _

/-- A back-end step on an instance that is there commutes with putting the other one. -/
theorem onPeriph_apart (j : Inst) (f : Periph → Periph) :
    onPeriph j f (s.setPeriph j.other q) = (onPeriph j f s).setPeriph j.other q := by
  cases j <;> rfl

end Apart

/-- Settles O40: `exec_apart` for the instructions, `onPeriph_apart` for the back-end's steps. -/
theorem instancesDoNotInterfere : Obligations.InstancesDoNotInterfere := by
  refine ⟨fun i s q => ?_, ?_⟩
  · rw [exec_apart]
    cases exec i s <;> rfl
  · rintro j _ s q (rfl | rfl | ⟨b, rfl⟩)
    · exact ⟨_, rfl, congrArg Host.Outcome.next (onPeriph_apart s q j _), onPeriph_other _ _ _⟩
    · exact ⟨_, rfl, congrArg Host.Outcome.next (onPeriph_apart s q j _), onPeriph_other _ _ _⟩
    · refine ⟨_, rfl, ?_, onPeriph_other _ _ _⟩
      rw [turn, setPeriph_cfg]
      exact congrArg Host.Outcome.next (onPeriph_apart s q j _)

end Sys2Proof.Machine
end

section
/-! SUPPORT. Every step of the machine (10_state.md R20, R22; 20_memory.md R50, R63; 42_blocking_io.md R181; 43_setup.md R204;
44_peripheral_backend.md R220): what reaches the register port, where the sequencer goes, and what is kept. -/

namespace Sys2Proof.Machine

/-! ## The register port -/

/-- A port instruction has an access, and the register file runs it as that instruction (40_register_model.md R128). -/
theorem registerFile_of_port {s : State} {i : Instr} (hc : s.cfg.wf) (hi : isCommand i = false) :
    ∃ a, requestOf s.cfg i = some a ∧ registerFile a s = exec i s := by
  cases i <;> simp only [isCommand, reduceCtorEq] at hi <;> exact ⟨_, rfl, registerFile_request hc rfl⟩

/-- What a step from `s` to `t` leaves of the instances, the bus and the free values is what the port transaction of `s.fsm` leaves; in
the states without one it leaves both instances. -/
def AsTransaction (s t : State) : Prop :=
  match s.transaction with
  | some i => isCommand i = false ∧ ∃ u, exec i s = .next u ∧ u.bus ≠ none ∧
      t.p0 = u.p0 ∧ t.p1 = u.p1 ∧ t.bus = u.bus ∧ t.draws = u.draws
  | none => t.p0 = s.p0 ∧ t.p1 = s.p1 ∧ (t.bus = s.bus ∨ t.bus = some (.capRead s.cfg.cap))

theorem AsTransaction.of_some {s t u : State} {i : Instr} (hi : s.transaction = some i) (hport : isCommand i = false)
    (hu : exec i s = .next u) (hbus : u.bus ≠ none)
    (h : t.p0 = u.p0 ∧ t.p1 = u.p1 ∧ t.bus = u.bus ∧ t.draws = u.draws) : AsTransaction s t := by
  simp only [AsTransaction, hi]
  exact ⟨hport, u, hu, hbus, h⟩

theorem AsTransaction.of_none {s t : State} (hi : s.transaction = none)
    (h : t.p0 = s.p0 ∧ t.p1 = s.p1 ∧ (t.bus = s.bus ∨ t.bus = some (.capRead s.cfg.cap))) : AsTransaction s t := by
  simp only [AsTransaction, hi]
  exact h

/-- Putting the same instance in the same place of two states that differ in latches only. -/
theorem setPeriph_port {s t : State} (h : s.p0 = t.p0 ∧ s.p1 = t.p1 ∧ s.bus = t.bus ∧ s.draws = t.draws) (i : Inst) (p : Periph) :
    (s.setPeriph i p).p0 = (t.setPeriph i p).p0 ∧ (s.setPeriph i p).p1 = (t.setPeriph i p).p1 ∧
      (s.setPeriph i p).bus = (t.setPeriph i p).bus ∧ (s.setPeriph i p).draws = (t.setPeriph i p).draws := by
  obtain ⟨h0, h1, hbus, hdraws⟩ := h
  cases i
  · exact ⟨rfl, h1, hbus, hdraws⟩
  · exact ⟨h0, rfl, hbus, hdraws⟩

theorem transaction_ctrlWrite {s : State} {v : Word} (h : CtrlWrite s v) : s.transaction = some (.portWrCtrl s.sel v) := by
  cases h with
  | setup hf ho => simp only [State.transaction, hf]
  | toggle hf o => cases o <;> simp [State.transaction, toggleWord, *]

/-- Every move leaves what its transaction leaves. -/
theorem SeqNext.asTransaction {s t : State} (h : SeqNext s t) : AsTransaction s t := by
  cases h with
  | present hf => exact .of_none (by simp only [State.transaction, hf]) ⟨rfl, rfl, .inr rfl⟩
  | absent hf | resolved hf | hang hf | stringEnd hf | nextChar hf =>
    exact .of_none (by simp only [State.transaction, hf]) ⟨rfl, rfl, .inl rfl⟩
  | pollRx hf | toggleRead hf =>
    exact .of_some (by simp only [State.transaction, hf]) rfl (exec_portRdCtrl s.sel s) (Option.some_ne_none _) ⟨rfl, rfl, rfl, rfl⟩
  | pollTx hrow =>
    refine .of_some ?_ rfl (exec_portRdCtrl s.sel s) (Option.some_ne_none _) ⟨rfl, rfl, rfl, rfl⟩
    rcases fsm_of_pollTxRows hrow with hf | hf | hf <;> simp only [State.transaction, hf]
  | report hrow =>
    refine .of_some ?_ rfl (exec_portRdCtrl s.sel s) (Option.some_ne_none _) ⟨rfl, rfl, rfl, rfl⟩
    rcases fsm_of_reportRows hrow with hf | hf <;> simp only [State.transaction, hf]
  | receive hrow =>
    refine .of_some ?_ rfl ((exec_portRdData s.sel s).trans (congrArg _ (afterDataRead_eq s.sel s))) (by simp)
      (setPeriph_port (by exact ⟨rfl, rfl, rfl, rfl⟩) _ _)
    rcases fsm_of_receiveRows hrow with hf | hf <;> simp only [State.transaction, hf]
  | ctrlWrite hv =>
    exact .of_some (transaction_ctrlWrite hv) rfl (exec_portWrCtrl s.sel _ s) (by simp [writeCtrl])
      (setPeriph_port (by exact ⟨rfl, rfl, rfl, rfl⟩) _ _)
  | @send v go hrow hsim =>
    have hu : exec (.portWrData s.sel v) s = _ := (exec_portWrData s.sel v s).trans (if_neg hsim)
    refine .of_some ?_ rfl hu (by simp) (setPeriph_port (by exact ⟨rfl, rfl, rfl, rfl⟩) _ _)
    rcases mem_sendRows.mp hrow with ⟨-, hf, rfl, -⟩ | ⟨-, hf, rfl, -⟩ | ⟨-, hf, rfl, -⟩ <;> simp only [State.transaction, hf]

/-- A turn of the sequencer leaves what its transaction leaves. -/
theorem seqStep_asTransaction {s t : State} (h : seqStep s = .next t) : AsTransaction s t := by
  rcases seqStep_next_cases h with ⟨i, rest, hf, -, hacc⟩ | ⟨hf, -, rfl⟩ | ⟨-, hmove⟩
  · have ha := hacc.accepted
    have hp : t.periph = s.periph := ha.periph
    exact .of_none (by simp only [State.transaction, hf]) ⟨congrFun hp .i0, congrFun hp .i1, .inl ha.bus⟩
  · exact .of_none (by simp only [State.transaction, hf]) ⟨rfl, rfl, .inl rfl⟩
  · exact hmove.asTransaction

/-! ## Where the sequencer goes -/

/-- The resolver never ends exactly for a zero denominator under SUBTRACT (41_divisor_resolver.md R154). -/
theorem denominator_of_neverEnds {c : Config} {clk baud : Word} (h : resolve c clk baud = .neverEnds) :
    denominator baud = 0#32 ∧ c.divStrategy = .subtract := by
  by_cases hden : denominator baud = 0#32
  · refine ⟨hden, ?_⟩
    cases hc : c.divStrategy with
    | subtract => rfl
    | divide =>
      unfold resolve at h
      split at h <;> simp only [reduceCtorEq] at h
      exact absurd ‹_› (quotient_divide_ends hc _ _)
  · obtain ⟨clk', e⟩ := resolve_of_denominator_ne_zero c clk hden
    rw [e] at h
    cases h

/-- A move goes along a listed transition (10_state.md R22). -/
theorem SeqNext.fsm_mem {s t : State} (h : SeqNext s t) : t.fsm ∈ s.fsm.successors := by
  cases h with
  | present hf | absent hf | resolved hf | hang hf | toggleRead hf | stringEnd hf => simp [hf, Fsm.successors]
  | nextChar hf =>
    simp only [hf]
    split <;> simp [Fsm.successors]
  | pollRx hf =>
    simp only [hf]
    split <;> simp [Fsm.successors]
  | pollTx hrow =>
    rcases mem_pollTxRows.mp hrow with ⟨-, hf, rfl⟩ | ⟨-, hf, rfl⟩ | ⟨-, hf, rfl⟩ <;>
      simp only [hf] <;> split <;> simp [Fsm.successors]
  | report hrow => rcases fsm_of_reportRows hrow with hf | hf <;> simp [hf, Fsm.successors]
  | receive hrow => rcases fsm_of_receiveRows hrow with hf | hf <;> simp [hf, Fsm.successors]
  | ctrlWrite hv => rcases fsm_of_ctrlWrite hv with hf | hf <;> simp [hf, Fsm.successors]
  | send hrow =>
    rcases mem_sendRows.mp hrow with ⟨-, hf, -, rfl⟩ | ⟨-, hf, -, rfl⟩ | ⟨-, hf, -, rfl⟩ <;> simp [hf, Fsm.successors]

/-- In each state but the polls and `SU_RES` the sequencer leaves; `SU_RES` stays only in the subtraction that never ends. -/
theorem SeqNext.suRes_stays {s t : State} (h : SeqNext s t) (hs : s.fsm = .suRes) (ht : t.fsm = .suRes) :
    denominator s.bd = 0#32 ∧ s.cfg.divStrategy = .subtract := by
  cases h with
  | hang _ _ hres => exact denominator_of_neverEnds hres
  | present hf | absent hf | pollRx hf | toggleRead hf | stringEnd hf | nextChar hf => simp [hs] at hf
  | resolved => simp at ht
  | pollTx hrow => rcases fsm_of_pollTxRows hrow with hf | hf | hf <;> simp [hs] at hf
  | report => simp at ht
  | receive => simp at ht
  | ctrlWrite => simp at ht
  | send hrow => rcases fsm_of_sendRows hrow with hf | hf | hf <;> simp [hs] at hf

/-- A move out of a poll state saw the awaited status (42_blocking_io.md R181). -/
theorem SeqNext.poll_left {s t : State} (h : SeqNext s t) (hl : s.cfg.layout.wf) (hne : t.fsm ≠ s.fsm) :
    (s.fsm = .pbPoll → t.fsm = .pbWr ∧ (s.periph s.sel).txq.length ≠ txCap s.cfg s.sel) ∧
    (s.fsm = .psCrPoll → t.fsm = .psCrWr ∧ (s.periph s.sel).txq.length ≠ txCap s.cfg s.sel) ∧
    (s.fsm = .psChPoll → t.fsm = .psChWr ∧ (s.periph s.sel).txq.length ≠ txCap s.cfg s.sel) ∧
    (s.fsm = .gbPoll → t.fsm = .gbRd ∧ (s.periph s.sel).rxq ≠ []) := by
  cases h with
  | pollTx hrow =>
    rw [loadW_u hl] at hne ⊢
    by_cases hfull : txFull s.cfg s.sel (s.periph s.sel) = 1#1
    · simp [hfull] at hne
    · have hroom := mt txFull_eq_one.mpr hfull
      rcases mem_pollTxRows.mp hrow with ⟨-, hf, rfl⟩ | ⟨-, hf, rfl⟩ | ⟨-, hf, rfl⟩ <;> simp [hf, hfull, hroom]
  | pollRx hf =>
    rw [loadW_u hl] at hne ⊢
    by_cases hdata : rxNempty (s.periph s.sel) = 1#1
    · simp [hf, hdata, rxNempty_eq_one.mp hdata]
    · simp [hf, hdata] at hne
  | present hf | absent hf | resolved hf | hang hf | toggleRead hf | stringEnd hf | nextChar hf => simp [hf]
  | report hrow => rcases fsm_of_reportRows hrow with hf | hf <;> simp [hf]
  | receive hrow => rcases fsm_of_receiveRows hrow with hf | hf <;> simp [hf]
  | ctrlWrite hv => rcases fsm_of_ctrlWrite hv with hf | hf <;> simp [hf]
  | send hrow => rcases fsm_of_sendRows hrow with hf | hf | hf <;> simp [hf]

/-! ## What is kept -/

@[simp] theorem pushTx_ctrl (c : Config) (i : Inst) (b : Byte) (p : Periph) : (p.pushTx c i b).ctrl = p.ctrl := by
  rw [pushTx_eq_txq]

/-- A single-bit command keeps the two baud fields of the word (42_blocking_io.md R182). -/
theorem ToggleOf.stored_baud {s : State} {f : Word → Word} (o : ToggleOf s f) (hl : s.cfg.layout.wf) {w : Word} {c : Stored}
    (hw : (unpack s.cfg.layout w).stored = c) :
    (unpack s.cfg.layout (f w)).stored.prsc = c.prsc ∧ (unpack s.cfg.layout (f w)).stored.baud = c.baud := by
  cases o with
  | enable => exact stored_unpack_setBit_en hl hw ▸ ⟨rfl, rfl⟩
  | disable => exact stored_unpack_clearBit_en hl hw ▸ ⟨rfl, rfl⟩
  | flowOn => exact stored_unpack_setBit_hwfc hl hw ▸ ⟨rfl, rfl⟩
  | flowOff => exact stored_unpack_clearBit_hwfc hl hw ▸ ⟨rfl, rfl⟩

/-- Only a CTRL write of the instance in `SEL` can change stored fields. -/
theorem PeriphChange.ctrl_eq {s t : State} (h : PeriphChange s t) (j : Inst) :
    (t.periph j).ctrl = (s.periph j).ctrl ∨
      ∃ v, CtrlWrite s v ∧ j = s.sel ∧ (t.periph j).ctrl = (unpack s.cfg.layout v).stored := by
  rcases eq_or_eq_other s.sel j with rfl | rfl
  · cases h with
    | same h => exact .inl (by rw [h])
    | receive _ _ own => exact .inl (by rw [own])
    | @ctrlWrite v hv _ own => exact .inr ⟨v, hv, rfl, by rw [own, writeStored_ctrl]⟩
    | send _ _ own => exact .inl (by rw [own, pushTx_ctrl])
  · cases h with
    | same h => exact .inl (by rw [h])
    | receive _ _ _ other | ctrlWrite _ _ _ other | send _ _ _ other => exact .inl (by rw [other])

/-- A turn keeps what an instance has accepted, appends the byte of its DATA write, or flushes by its CTRL write
(44_peripheral_backend.md R220). -/
theorem PeriphChange.accepted {s t : State} (h : PeriphChange s t) (j : Inst) :
    (t.periph j).accepted = (s.periph j).accepted ∨
    (∃ v, t.bus = some (.regWrite j offData v) ∧ (s.periph j).ctrl.en = 1#1 ∧
      (t.periph j).accepted = (s.periph j).accepted ++ [wordByte v]) ∨
    (∃ v, t.bus = some (.regWrite j offCtrl v) ∧ (t.periph j).ctrl.en = 0#1 ∧ s.cfg.en0Flush = true ∧
      (t.periph j).accepted = (s.periph j).wireTx ∧ (t.periph j).wireTx = (s.periph j).wireTx) := by
  cases h with
  | same h => exact .inl (by rw [h])
  | receive _ _ own other =>
    left
    rcases eq_or_eq_other s.sel j with rfl | rfl
    · rw [own, Periph.accepted, Periph.accepted]
    · rw [other]
  | @ctrlWrite v _ bus own other =>
    rcases eq_or_eq_other s.sel j with rfl | rfl
    · rcases writeStored_cases s.cfg (unpack s.cfg.layout v).stored (s.periph s.sel) with ⟨hen, hflush, e⟩ | ⟨-, e⟩
      · exact .inr (.inr ⟨v, bus, by rw [own, e, hen], hflush, by simp [own, e, Periph.accepted], by rw [own, e]⟩)
      · exact .inl (by rw [own, e, Periph.accepted, Periph.accepted])
    · exact .inl (by rw [other])
  | @send v _ _ bus own other =>
    rcases eq_or_eq_other s.sel j with rfl | rfl
    · rcases pushTx_cases s.cfg s.sel (wordByte v) (s.periph s.sel) with ⟨hen, -, e⟩ | ⟨-, e⟩
      · exact .inr (.inl ⟨v, bus, bit_ne_zero.mp hen, by simp [own, e, Periph.accepted]⟩)
      · exact .inl (by rw [own, e])
    · exact .inl (by rw [other])

/-! ## The obligations -/

/-- Settles O41: `AgentStep.keeps` for the other agents, `seqStep_asTransaction` for the sequencer. -/
theorem onlyTheSequencerReachesThePort : Obligations.OnlyTheSequencerReachesThePort := by
  intro s t hc h
  rcases step_agent_cases h with ⟨e, hseq⟩ | ⟨i, f, hnseq, -, hagent, rfl⟩ | ⟨e, rfl⟩
  · refine ⟨fun hn => absurd e hn, fun _ => ?_⟩
    have key := seqStep_asTransaction hseq
    unfold AsTransaction at key
    rw [show (takeTurn s).transaction = s.transaction from rfl] at key
    cases ht : s.transaction with
    | none =>
      simp only [ht] at key ⊢
      exact key
    | some i =>
      simp only [ht] at key ⊢
      obtain ⟨hport, u, hu, hkeep⟩ := key
      obtain ⟨a, ha, hrun⟩ := registerFile_of_port (s := takeTurn s) hc hport
      exact ⟨a, u, ha, hrun.trans hu, hkeep⟩
  · refine ⟨fun _ => ⟨setPeriph_bus _ _ _, fun _ j => ?_⟩, fun hn => absurd hn hnseq⟩
    exact (hagent.onPeriph_keeps (takeTurn s) j).1.trans (congrArg Periph.ctrl (takeTurn_periph s j))
  · exact ⟨fun _ => ⟨rfl, fun hn => absurd e hn⟩, fun hn => absurd (e.symm.trans hn) nofun⟩

/-- Settles O43: an accept step enters a walk, a move goes on with it, and of the other agents only reset moves the sequencer. -/
theorem onlyListedTransitions : Obligations.OnlyListedTransitions := by
  intro s t h
  rcases step_agent_cases h with ⟨e, hseq⟩ | ⟨i, f, hnseq, hnreset, -, rfl⟩ | ⟨e, rfl⟩
  · refine ⟨fun _ => ?_, fun hn => absurd (e.symm.trans hn) nofun, fun hn => absurd e hn⟩
    rcases seqStep_next_cases hseq with ⟨i, rest, hf, -, hacc⟩ | ⟨hf, hd, rfl⟩ | ⟨-, hmove⟩
    · have hf : s.fsm = .idle := hf
      rw [hf]
      exact ⟨.inl hacc.accepted.entry, nofun⟩
    · have hf : s.fsm = .idle := hf
      exact ⟨.inr ⟨hf, hf, hd⟩, fun hn => absurd (hf.symm.trans hn) nofun⟩
    · exact ⟨.inl hmove.fsm_mem, hmove.suRes_stays⟩
  · exact ⟨fun hn => absurd hn hnseq, fun hn => absurd hn hnreset, fun _ _ => setPeriph_fsm _ _ _⟩
  · exact ⟨fun hn => absurd (e.symm.trans hn) nofun, fun _ => rfl, fun _ hn => absurd e hn⟩

/-- Settles O44: the other agents do not move the sequencer, and a move out of a poll saw the status (`poll_left`). -/
theorem pollsLeaveOnlyOnStatus : Obligations.PollsLeaveOnlyOnStatus := by
  intro s t hl h hreset hne
  rcases step_agent_cases h with ⟨e, hseq⟩ | ⟨i, f, -, -, -, rfl⟩ | ⟨e, -⟩
  · rcases seqStep_next_cases hseq with ⟨i, rest, hf, -⟩ | ⟨hf, -⟩ | ⟨-, hmove⟩
    · have hf : s.fsm = .idle := hf
      simp [hf]
    · have hf : s.fsm = .idle := hf
      simp [hf]
    · exact hmove.poll_left hl hne
  · exact absurd (setPeriph_fsm _ _ _) hne
  · exact absurd e hreset

/-- Settles O45: stored fields change by a CTRL write only, and the one of a single-bit command keeps the baud fields. -/
theorem onlySetupChangesBaudFields : Obligations.OnlySetupChangesBaudFields := by
  intro s t j hl h hfresh hchange
  rcases step_agent_cases h with ⟨e, hseq⟩ | ⟨i, f, -, -, hagent, rfl⟩ | ⟨e, -⟩
  · left
    rcases (seqStep_periphChange hseq).ctrl_eq j with hsame | ⟨v, hv, hj, hctrl⟩
    · rw [takeTurn_periph] at hsame
      simp [hsame] at hchange
    · subst hj
      cases hv with
      | setup hf =>
        have hfields : (t.periph s.sel).ctrl = setupFields s.cfg s.tap s.raw s.irqm :=
          hctrl.trans (stored_unpack_pack hl (setupFields s.cfg s.tap s.raw s.irqm))
        exact ⟨e, hf, rfl, congrArg Stored.prsc hfields, congrArg Stored.baud hfields⟩
      | toggle hf o =>
        obtain ⟨hprsc, hbaud⟩ := o.stored_baud hl (hfresh hf)
        rcases hchange with hne | hne
        · exact absurd ((congrArg Stored.prsc hctrl).trans hprsc) hne
        · exact absurd ((congrArg Stored.baud hctrl).trans hbaud) hne
  · rw [(hagent.onPeriph_keeps (takeTurn s) j).1, takeTurn_periph] at hchange
    simp at hchange
  · exact .inr e

/-- Settles O52: by what a turn does to the instances: a push appends the byte written, a CTRL write keeps all or flushes. -/
theorem acceptedBytesAreKeptInOrder : Obligations.AcceptedBytesAreKeptInOrder := by
  intro s t j h hreset
  rcases step_agent_cases h with ⟨e, hseq⟩ | ⟨i, f, -, -, hagent, rfl⟩ | ⟨e, -⟩
  · rcases (seqStep_periphChange hseq).accepted j with hkeep | hsent | hflushed
    · exact .inl (hkeep.trans (congrArg Periph.accepted (takeTurn_periph s j)))
    · obtain ⟨v, hbus, hen, hacc⟩ := hsent
      rw [takeTurn_periph] at hen hacc
      exact .inr (.inl ⟨v, hbus, hen, hacc⟩)
    · obtain ⟨v, hbus, hen, hflush, hacc, hwire⟩ := hflushed
      rw [takeTurn_periph] at hacc hwire
      exact .inr (.inr ⟨v, hbus, hen, hflush, hacc, hwire⟩)
  · left
    rcases eq_or_eq_other i j with rfl | rfl
    · rw [onPeriph, periph_setPeriph_self, takeTurn_periph]
      exact hagent.accepted _
    · rw [onPeriph_other, takeTurn_periph]
  · exact absurd e hreset

end Sys2Proof.Machine
end

section
/-! SUPPORT. The invariant of a run (10_state.md R30): what every agent's step keeps of each instance, and what the sequencer's moves
keep of the latches. -/

namespace Sys2Proof.Machine

/-! ## One instance -/

/-- The invariant's two clauses about an instance: its queues fit, and it is empty while off under `EN0_FLUSH`. -/
structure Periph.Sound (c : Config) (i : Inst) (p : Periph) : Prop where
  fits : p.fits c i
  off  : p.emptyWhenOff c

/-- An enabled instance is sound once its queues fit. -/
theorem Periph.Sound.of_enabled {c : Config} {i : Inst} {p : Periph} (hen : p.ctrl.en = 1#1) (hfits : p.fits c i) : p.Sound c i :=
  ⟨hfits, fun h0 => absurd (hen.symm.trans h0) (by decide)⟩

/-- A write of the stored fields keeps the queues or empties them, and empties an instance it disables under `EN0_FLUSH`. -/
theorem Periph.Sound.writeStored {c : Config} {i : Inst} {p : Periph} (h : p.Sound c i) (f : Stored) :
    (p.writeStored c f).Sound c i := by
  rcases writeStored_cases c f p with ⟨-, -, e⟩ | ⟨hno, e⟩ <;> rw [e]
  · exact ⟨⟨Nat.zero_le _, Nat.zero_le _⟩, fun _ _ => ⟨rfl, rfl, rfl⟩⟩
  · exact ⟨h.fits, fun h0 hflush => absurd ⟨h0, hflush⟩ hno⟩

/-- A DATA write pushes only where there is room, and only while enabled. -/
theorem Periph.Sound.pushTx {c : Config} {i : Inst} {p : Periph} (h : p.Sound c i) (b : Byte) : (p.pushTx c i b).Sound c i := by
  rcases pushTx_cases c i b p with ⟨hen, hroom, e⟩ | ⟨-, e⟩ <;> rw [e]
  · refine .of_enabled (bit_ne_zero.mp hen) ⟨?_, h.fits.2⟩
    simpa using hroom
  · exact h

/-- Taking bytes off the front of the receive queue keeps an instance sound. -/
theorem Periph.Sound.dropRx {c : Config} {i : Inst} {p : Periph} (h : p.Sound c i) {q : List Byte} (hq : q <:+ p.rxq) :
    Periph.Sound c i { p with rxq := q } := by
  refine ⟨⟨h.fits.1, hq.length_le.trans h.fits.2⟩, fun h0 hflush => ?_⟩
  obtain ⟨htx, hrx, hsh⟩ := h.off h0 hflush
  exact ⟨htx, List.suffix_nil.mp (hrx ▸ hq), hsh⟩

/-- The other agents keep an instance sound: they act on an enabled one, and add only where there is room. -/
theorem AgentStep.sound {c : Config} {i : Inst} {f : Periph → Periph} (h : AgentStep c i f) {p : Periph} (hp : p.Sound c i) :
    (f p).Sound c i := by
  cases h with
  | txLoad =>
    rcases txLoad_cases p with ⟨x, q, hen, _, hq, _, e⟩ | ⟨_, e⟩ <;> rw [e]
    · have hlen : q.length + 1 ≤ txCap c i := by simpa [hq] using hp.fits.1
      exact .of_enabled hen ⟨Nat.le_of_succ_le hlen, hp.fits.2⟩
    · exact hp
  | txDone =>
    rcases txDone_cases p with ⟨x, hen, _, e⟩ | ⟨_, e⟩ <;> rw [e]
    · exact .of_enabled hen hp.fits
    · exact hp
  | rxArrive b =>
    rcases rxArrive_cases c i b p with ⟨hen, hroom, e⟩ | ⟨_, e⟩ <;> rw [e]
    · refine .of_enabled hen ⟨hp.fits.1, ?_⟩
      simpa using hroom
    · exact hp
  | cts level => exact ⟨hp.fits, hp.off⟩

theorem AgentStep.onPeriph_sound {c : Config} {i : Inst} {f : Periph → Periph} (h : AgentStep c i f) {s : State}
    (hs : ∀ j, (s.periph j).Sound c j) (j : Inst) : ((onPeriph i f s).periph j).Sound c j := by
  rcases eq_or_eq_other i j with rfl | rfl
  · rw [onPeriph, periph_setPeriph_self]
    exact h.sound (hs _)
  · rw [onPeriph_other]
    exact hs _

/-- So does the sequencer's turn. -/
theorem PeriphChange.sound {s t : State} (h : PeriphChange s t) (hs : ∀ j, (s.periph j).Sound s.cfg j) (j : Inst) :
    (t.periph j).Sound s.cfg j := by
  rcases eq_or_eq_other s.sel j with rfl | rfl
  · cases h with
    | same h => exact h ▸ hs _
    | receive _ hq own => exact own ▸ (hs _).dropRx hq
    | ctrlWrite _ _ own => exact own ▸ (hs _).writeStored _
    | send _ _ own => exact own ▸ (hs _).pushTx _
  · cases h with
    | same h => exact h ▸ hs _
    | receive _ _ _ other | ctrlWrite _ _ _ other | send _ _ _ other => exact other ▸ hs _

/-! ## The invariant, by instance -/

theorem State.Inv.sound {s : State} (h : s.Inv) (i : Inst) : (s.periph i).Sound s.cfg i := by
  cases i with
  | i0 => exact ⟨h.fits0, h.off0⟩
  | i1 => exact ⟨h.fits1, h.off1⟩

/-- The invariant from its clauses about the instances and those about the latches. -/
theorem State.Inv.of_sound {s : State} (params : s.cfg.wf) (sound : ∀ i, (s.periph i).Sound s.cfg i) (walk : s.onWalk)
    (clean : s.cleanString) (room : s.roomToWrite) (data : s.dataToRead) (fresh : s.freshLatch) : s.Inv :=
  { params, walk, clean, room, data, fresh
    fits0 := (sound .i0).fits
    fits1 := (sound .i1).fits
    off0 := (sound .i0).off
    off1 := (sound .i1).off }

/-- The turn's own changes are to the agenda and the bus. -/
theorem State.Inv.takeTurn {s : State} (h : s.Inv) : (takeTurn s).Inv :=
  .of_sound h.params h.sound h.walk h.clean h.room h.data h.fresh

/-! ## The sequencer's moves -/

/-- A move ends the command or stays on its walk. -/
theorem SeqNext.onWalk {s t : State} (h : SeqNext s t) : t.onWalk := by
  cases h with
  | present | absent | stringEnd => exact .inl rfl
  | report => exact .inl rfl
  | receive | ctrlWrite => exact .inl (setPeriph_fsm _ _ _)
  | resolved hf ho => exact .inr (by simp [ho, walkStates])
  | hang hf ho => exact .inr (by simp [hf, ho, walkStates])
  | toggleRead hf o => cases o <;> exact .inr (by simp [*, walkStates])
  | nextChar hf ho =>
    right
    simp only [ho]
    split <;> simp [walkStates]
  | pollRx hf ho =>
    right
    simp only [ho]
    split <;> simp [walkStates]
  | pollTx hrow =>
    right
    rcases mem_pollTxRows.mp hrow with ⟨ho, hf, rfl⟩ | ⟨ho, hf, rfl⟩ | ⟨ho, hf, rfl⟩ <;>
      simp only [ho, hf] <;> split <;> simp [walkStates]
  | send hrow =>
    rcases mem_sendRows.mp hrow with ⟨ho, hf, -, rfl⟩ | ⟨ho, hf, -, rfl⟩ | ⟨ho, hf, -, rfl⟩ <;> simp [State.onWalk, ho, walkStates]

/-- A move takes characters off the front of the string only. -/
theorem SeqNext.clean {s t : State} (h : SeqNext s t) (hs : s.cleanString) : t.cleanString := by
  cases h with
  | nextChar _ _ hstr => exact fun c hc => hs c (hstr ▸ List.mem_cons_of_mem _ hc)
  | receive | ctrlWrite | send => simpa [State.cleanString] using hs
  | _ => exact hs

/-- The states a poll goes on to are entered from no other state. -/
theorem poll_of_successor (f : Fsm) : ∀ g ∈ f.successors,
    (g = .pbWr → f = .pbPoll) ∧ (g = .psCrWr → f = .psCrPoll) ∧ (g = .psChWr → f = .psChPoll) ∧ (g = .gbRd → f = .gbPoll) ∧
      (g = .rmwWr → f = .rmwRd) := by
  cases f <;> decide

/-- The states in which the sequencer's transaction changes an instance. -/
theorem PeriphChange.same_of_fsm {s t : State} (h : PeriphChange s t)
    (hf : s.fsm ∉ [.suWr, .pbWr, .gbRd, .cgRd, .rmwWr, .psCrWr, .psChWr]) : t.periph = s.periph := by
  cases h with
  | same h => exact h
  | receive hrow => rcases fsm_of_receiveRows hrow with e | e <;> simp [e] at hf
  | ctrlWrite hv => rcases fsm_of_ctrlWrite hv with e | e <;> simp [e] at hf
  | send hrow => rcases fsm_of_sendRows hrow with e | e | e <;> simp [e] at hf

/-- A transmit write is entered from its poll only, which saw a queue that is not full (42_blocking_io.md R171 (c)). -/
theorem SeqNext.room {s t : State} (h : SeqNext s t) (hl : s.cfg.layout.wf)
    (hfits : (s.periph s.sel).txq.length ≤ txCap s.cfg s.sel) : t.roomToWrite := by
  intro hw
  obtain ⟨hcfg, -, -, -, hsel⟩ := h.keeps
  obtain ⟨hpb, hcr, hch, -⟩ := poll_of_successor _ _ h.fsm_mem
  have hleft := h.poll_left hl
  have hsame := h.periphChange.same_of_fsm
  have hroom : t.periph = s.periph ∧ (s.periph s.sel).txq.length ≠ txCap s.cfg s.sel := by
    rcases hw with e | e | e <;> simp_all
  rw [hcfg, hsel, hroom.1]
  exact lt_of_le_of_ne hfits hroom.2

/-- The read of `get_byte` is entered from its poll only, which saw a byte waiting (42_blocking_io.md R172 (d)). -/
theorem SeqNext.data {s t : State} (h : SeqNext s t) (hl : s.cfg.layout.wf) : t.dataToRead := by
  intro hg
  obtain ⟨-, -, -, -, hsel⟩ := h.keeps
  obtain ⟨-, -, -, hpoll, -⟩ := poll_of_successor _ _ h.fsm_mem
  have hf := hpoll hg
  obtain ⟨-, -, -, hdata⟩ := h.poll_left hl (by simp [hg, hf])
  rw [hsel, h.periphChange.same_of_fsm (by simp [hf])]
  exact (hdata hf).2

/-- `RMW_WR` is entered from `RMW_RD` only, which read the register into `W` (42_blocking_io.md R182). -/
theorem SeqNext.fresh {s t : State} (h : SeqNext s t) (hl : s.cfg.layout.wf) : t.freshLatch := by
  intro hw
  obtain ⟨-, -, -, -, hrmw⟩ := poll_of_successor _ _ h.fsm_mem
  have hs := hrmw hw
  cases h with
  | toggleRead => exact stored_unpack_ctrlWord hl s.sel (s.periph s.sel)
  | present | absent | resolved | report | receive | ctrlWrite | stringEnd => simp at hw
  | hang hf | pollRx hf | nextChar hf => exact absurd (hs.symm.trans hf) nofun
  | pollTx hrow => rcases fsm_of_pollTxRows hrow with e | e | e <;> exact absurd (hs.symm.trans e) nofun
  | send hrow => rcases fsm_of_sendRows hrow with e | e | e <;> exact absurd (hs.symm.trans e) nofun

/-! ## Every step -/

/-- A move of the running command keeps the invariant. -/
theorem SeqNext.inv {s t : State} (h : SeqNext s t) (hs : s.Inv) : t.Inv := by
  obtain ⟨-, -, -, -, -, hl⟩ := hs.params
  have hcfg : t.cfg = s.cfg := h.keeps.1
  exact .of_sound (hcfg ▸ hs.params) (fun i => hcfg ▸ h.periphChange.sound hs.sound i) h.onWalk (h.clean hs.clean)
    (h.room hl (hs.sound s.sel).fits.1) (h.data hl) (h.fresh hl)

/-- An accept step enters a walk in none of the states the latches' clauses speak of. -/
theorem Accepted.inv {s t : State} (h : Accepted s t) (hs : s.Inv) : t.Inv := by
  have hentry := h.entry
  refine .of_sound (h.cfg ▸ hs.params) (fun i => ?_) (.inr h.walk) ?_ ?_ ?_ ?_
  · rw [h.cfg, h.periph]
    exact hs.sound i
  · rcases h.str with e | e
    · exact fun c hc => hs.clean c (e ▸ hc)
    · exact e
  · rintro (e | e | e) <;> simp [e, Fsm.successors] at hentry
  · intro e
    simp [e, Fsm.successors] at hentry
  · intro e
    simp [e, Fsm.successors] at hentry

theorem seqStep_inv {s t : State} (hs : s.Inv) (h : seqStep s = .next t) : t.Inv := by
  rcases seqStep_next_cases h with ⟨i, rest, -, -, hacc⟩ | ⟨-, -, rfl⟩ | ⟨-, hmove⟩
  · exact hacc.accepted.inv (.of_sound hs.params hs.sound hs.walk hs.clean hs.room hs.data hs.fresh)
  · exact hs
  · exact hmove.inv hs

/-- The other agents make room and bring data, and leave the control registers and the sequencer alone. -/
theorem AgentStep.inv {i : Inst} {f : Periph → Periph} {s : State} (h : AgentStep s.cfg i f) (hs : s.Inv) :
    (onPeriph i f s).Inv := by
  obtain ⟨hctrl, hlen, more, hrx⟩ := h.onPeriph_keeps s s.sel
  refine .of_sound ((setPeriph_cfg _ _ _).symm ▸ hs.params) (fun j => ?_) ?_ ?_ (fun hw => ?_) (fun hg => ?_) (fun hw => ?_) <;>
    simp only [onPeriph, State.onWalk, State.cleanString, setPeriph_fsm, setPeriph_op, setPeriph_str, setPeriph_sel, setPeriph_cfg,
      setPeriph_w] at *
  · exact h.onPeriph_sound hs.sound j
  · exact hs.walk
  · exact hs.clean
  · exact hlen.trans_lt (hs.room hw)
  · rw [hrx]
    exact List.append_ne_nil_of_left_ne_nil (hs.data hg) more
  · exact (hs.fresh hw).trans hctrl.symm

/-- Settles O55: each agent's step keeps each clause. -/
theorem stepKeepsInvariant : Obligations.StepKeepsInvariant := by
  intro s t hs h
  rcases step_agent_cases h with ⟨-, hseq⟩ | ⟨i, f, -, -, hagent, rfl⟩ | ⟨-, rfl⟩
  · exact seqStep_inv hs.takeTurn hseq
  · exact hagent.inv (s := takeTurn s) hs.takeTurn
  · obtain ⟨_, fits0, fits1, off0, off1, walk, clean, room, data, fresh⟩ := resetMeetsInvariant s.cfg hs.params
    exact ⟨hs.params, fits0, fits1, off0, off1, walk, clean, room, data, fresh⟩

end Sys2Proof.Machine
end

section
/-! SUPPORT. What a step can stop with (60_exceptions.md R245, R246): nothing on the walk of a command faults, and each refusal has its
own condition. -/

namespace Sys2Proof.Machine

/-! ## No fault on a walk -/

theorem availableRead_ne_fault (s : State) (f : Fault) : availableRead s ≠ .fault f := by
  unfold availableRead
  split <;> nofun

theorem setupResolve_ne_fault (s : State) (f : Fault) : setupResolve s ≠ .fault f := by
  unfold setupResolve
  split <;> nofun

theorem putsNext_ne_fault (s : State) (f : Fault) : putsNext s ≠ .fault f := by
  unfold putsNext
  split <;> nofun

theorem sendWord_ne_fault (v : Word) (go : Fsm) (s : State) (f : Fault) : sendWord v go s ≠ .fault f := by
  rcases sendWord_cases v go s with ⟨_, e⟩ | ⟨_, e⟩ <;> rw [e] <;> nofun

theorem rmwWalk_ne_fault {s : State} (hw : s.fsm ∈ [.rmwRd, .rmwWr]) (g : Word → Word) (f : Fault) : rmwWalk g s ≠ .fault f := by
  unfold rmwWalk
  simp only [List.mem_cons, List.not_mem_nil, or_false] at hw
  rcases hw with hf | hf <;> rw [hf] <;> nofun

/-- On the walk of its command the sequencer has a transition (10_state.md R22). -/
theorem exec_ne_fault {i : Instr} {s : State} (hn : s.fsm ≠ .idle) (hi : opcodeOf i = some s.op) (hw : s.fsm ∈ walkStates s.op)
    (f : Fault) : exec i s ≠ .fault f := by
  cases i <;> simp only [opcodeOf, Option.some.injEq, reduceCtorEq] at hi <;> rw [← hi] at hw <;> replace hi := hi.symm
  case available h =>
    obtain hf : s.fsm = .avRd := List.mem_singleton.mp hw
    simp only [exec, execAvailable, asCommand_onward hn hi, hf]
    exact availableRead_ne_fault s f
  case setup h c b m =>
    simp only [exec, execSetup, asCommand_onward hn hi]
    rcases List.mem_pair.mp hw with hf | hf <;> rw [hf]
    · exact setupResolve_ne_fault s f
    · nofun
  case putByte h b =>
    rcases List.mem_pair.mp hw with hf | hf
    · rw [exec_putByte_pbPoll h b hf hi]
      nofun
    · rw [exec_putByte_pbWr h b hf hi]
      exact sendWord_ne_fault _ _ s f
  case getByte h =>
    rcases List.mem_pair.mp hw with hf | hf
    · rw [exec_getByte_gbPoll h hf hi]
      nofun
    · rw [exec_getByte_gbRd h hf hi]
      nofun
  case charReceived h =>
    rw [exec_charReceived_crRd h (List.mem_singleton.mp hw) hi]
    nofun
  case charReceivedGet h =>
    obtain hf : s.fsm = .cgRd := List.mem_singleton.mp hw
    simp only [exec, execCharReceivedGet, asCommand_onward hn hi, hf]
    nofun
  case txBusy h =>
    rw [exec_txBusy_tbRd h (List.mem_singleton.mp hw) hi]
    nofun
  case puts h str =>
    replace hw : s.fsm ∈ [.psNext, .psCrPoll, .psCrWr, .psChPoll, .psChWr] := hw
    simp only [List.mem_cons, List.not_mem_nil, or_false] at hw
    rcases hw with hf | hf | hf | hf | hf
    · exact exec_puts_psNext h str hf hi ▸ putsNext_ne_fault s f
    · exact exec_puts_psCrPoll h str hf hi ▸ nofun
    · exact exec_puts_psCrWr h str hf hi ▸ sendWord_ne_fault _ _ s f
    · exact exec_puts_psChPoll h str hf hi ▸ nofun
    · exact exec_puts_psChWr h str hf hi ▸ sendWord_ne_fault _ _ s f
  all_goals
    simp only [exec, execEnable, execDisable, execRtsctsEnable, execRtsctsDisable, asCommand_onward hn hi]
    exact rmwWalk_ne_fault hw _ f

/-- On a walk the latches hold a command. -/
theorem runningCommand_of_walk {s : State} (hw : s.fsm ∈ walkStates s.op) : ∃ i, runningCommand s = some i := by
  unfold runningCommand
  unfold walkStates at hw
  split at hw <;> simp_all

theorem AcceptMove.ne_fault {i : Instr} {s : State} {r : Result} (h : AcceptMove i s r) (f : Fault) : r ≠ .fault f := by
  cases h <;> nofun

/-- The other agents' turns and reset always answer a next state. -/
theorem step_next_of_agent {s : State} (h : nextEvent s ≠ .seq) : ∃ t, step s = .next t := by
  cases e : nextEvent s with
  | seq => exact absurd e h
  | _ => exact ⟨_, step_of_event e⟩

theorem seqStep_ne_fault {s : State} (hs : s.Inv) (f : Fault) : seqStep s ≠ .fault f := by
  rcases seqStep_cases s with ⟨i, rest, hf, hd, e⟩ | ⟨-, -, e⟩ | ⟨_, -, -, e⟩ | ⟨hf, -⟩
  · exact e ▸ (exec_accept (s := { s with offers := rest }) hf (isCommand_of_decodeCommand hd)).ne_fault f
  · exact e ▸ nofun
  · exact e ▸ nofun
  · have hw : s.fsm ∈ walkStates s.op := hs.walk.resolve_left hf
    obtain ⟨i, hi⟩ := runningCommand_of_walk hw
    exact seqStep_running hf hi ▸ exec_ne_fault hf (opcodeOf_runningCommand hi) hw f

/-! ## The refusals -/

/-- The accept step of a well-formed command that resolves its handle. -/
theorem exec_eq_accept {i : Instr} {h : Word} {s : State} (hf : s.fsm = .idle) (hi : resolvedHandle i = some h)
    (hw : i.wellFormed = true) : ∃ op entry t, t.cfg = s.cfg ∧ exec i s = accept op h entry t := by
  cases i <;> simp only [resolvedHandle, Option.some.injEq, reduceCtorEq] at hi <;> subst hi
  case puts str => exact ⟨_, _, { s with str := str }, rfl, exec_puts_idle _ hf (wellFormed_puts.mp hw)⟩
  case setup a0 a1 a2 => exact ⟨_, _, { s with clk := a0, bd := a1, irqm := a2 }, rfl, asCommand_idle hf _ _⟩
  case putByte b => exact ⟨_, _, { s with b := b }, rfl, asCommand_idle hf _ _⟩
  all_goals exact ⟨_, _, s, rfl, asCommand_idle hf _ _⟩

/-- An accept step of a well-formed command refuses only an unknown handle (M1). -/
theorem exec_idle_refused {i : Instr} {s : State} {r : Refusal} (hf : s.fsm = .idle) (hc : isCommand i = true)
    (hw : i.wellFormed = true) (e : exec i s = .refused r) :
    r = .unknownHandle ∧ ∃ h, resolvedHandle i = some h ∧ h ≠ s.cfg.c0.base ∧ h ≠ s.cfg.c1.base := by
  cases hi : resolvedHandle i with
  | some h =>
    obtain ⟨op, entry, t, hcfg, hacc⟩ := exec_eq_accept hf hi hw
    rcases accept_cases op h entry t with ⟨_, _, e'⟩ | ⟨hnone, e'⟩
    · rw [hacc, e'] at e
      cases e
    · rw [hacc, e'] at e
      cases e
      rw [hcfg] at hnone
      rcases resolveHandle_cases s.cfg h with ⟨_, e0⟩ | ⟨_, _, e1⟩ | ⟨h0, h1, _⟩
      · exact absurd (hnone.symm.trans e0) nofun
      · exact absurd (hnone.symm.trans e1) nofun
      · exact ⟨rfl, h, rfl, h0, h1⟩
  | none =>
    cases i <;> simp only [resolvedHandle, isCommand, reduceCtorEq] at hi hc
    rw [show exec (.available _) s = _ from asCommand_idle hf _ _] at e
    cases e

/-- A quotient has no meaning exactly for a zero denominator under DIVIDE with no `DIV0_RESULT` (41_divisor_resolver.md R154). -/
theorem denominator_of_noMeaning {c : Config} {clk baud : Word} (h : resolve c clk baud = .noMeaning) :
    denominator baud = 0#32 ∧ c.divStrategy = .divide ∧ c.div0Result = none := by
  by_cases hden : denominator baud = 0#32
  · refine ⟨hden, ?_⟩
    unfold resolve quotient at h
    rw [hden] at h
    cases hdiv : c.divStrategy with
    | subtract => simp [hdiv] at h
    | divide =>
      cases hres : c.div0Result with
      | some q => simp [hdiv, hres] at h
      | none => exact ⟨rfl, rfl⟩
  · obtain ⟨clk', e⟩ := resolve_of_denominator_ne_zero c clk hden
    rw [e] at h
    cases h

theorem setupResolve_refused {s : State} {r : Refusal} (e : setupResolve s = .refused r) :
    r = .divideByZero ∧ denominator s.bd = 0#32 ∧ s.cfg.divStrategy = .divide ∧ s.cfg.div0Result = none := by
  unfold setupResolve at e
  split at e <;> cases e
  exact ⟨rfl, denominator_of_noMeaning ‹_›⟩

theorem sendWord_refused {v : Word} {go : Fsm} {s : State} {r : Refusal} (e : sendWord v go s = .refused r) :
    r = .simRedirect ∧ (s.periph s.sel).ctrl.sim = 1#1 := by
  rcases sendWord_cases v go s with ⟨h, e'⟩ | ⟨_, e'⟩ <;> rw [e'] at e <;> cases e
  exact ⟨rfl, h⟩

/-- A move of the running command has no meaning only for M2 and M10. -/
theorem SeqMove.refused {s : State} {res : Result} {r : Refusal} (h : SeqMove s res) (e : res = .refused r) :
    (r = .divideByZero ∧ s.fsm = .suRes ∧ denominator s.bd = 0#32 ∧ s.cfg.divStrategy = .divide ∧ s.cfg.div0Result = none) ∨
    (r = .simRedirect ∧ s.fsm.writesData ∧ (s.periph s.sel).ctrl.sim = 1#1) := by
  cases h with
  | suRes hf =>
    obtain ⟨hr, hzero⟩ := setupResolve_refused e
    exact .inl ⟨hr, hf, hzero⟩
  | pbWr hf | psCrWr hf | psChWr hf =>
    obtain ⟨hr, hsim⟩ := sendWord_refused e
    exact .inr ⟨hr, by simp [Fsm.writesData, hf], hsim⟩
  | avRd =>
    unfold availableRead at e
    split at e <;> cases e
  | psNext =>
    unfold putsNext at e
    split at e <;> cases e
  | _ => cases e

/-- Settles O56: no transition is missing on a walk, and the refusals are those of the decoder, the accept step, SU_RES and the DATA
writes. -/
theorem stepNeverFaults : Obligations.StepNeverFaults := by
  intro s hs
  by_cases hev : nextEvent s = .seq
  · have hstep := step_seq hev
    rw [hstep]
    refine ⟨seqStep_ne_fault hs.takeTurn, fun r hr => ⟨hev, ?_⟩⟩
    rcases seqStep_cases (takeTurn s) with ⟨i, rest, hf, hd, e⟩ | ⟨-, -, e⟩ | ⟨err, hf, hd, e⟩ | ⟨-, hmove⟩
    · left
      obtain ⟨hw, -⟩ := decodedWordsAreTheEncoding.1 _ _ _ hd
      obtain ⟨rfl, h, hi, h0, h1⟩ := exec_idle_refused (s := { takeTurn s with offers := rest }) hf
        (isCommand_of_decodeCommand hd) hw (e.symm.trans hr)
      exact ⟨rfl, hf, i, rest, h, hd, hi, h0, h1⟩
    · exact absurd (e.symm.trans hr) nofun
    · obtain rfl : Refusal.notWellFormed err = r := by simpa using e.symm.trans hr
      exact .inr (.inr (.inl ⟨err, rfl, hf, hd⟩))
    · rcases hmove.refused hr with hzero | hsim
      · exact .inr (.inl hzero)
      · exact .inr (.inr (.inr (by rwa [takeTurn_periph] at hsim)))
  · obtain ⟨t, ht⟩ := step_next_of_agent hev
    rw [ht]
    exact ⟨nofun, nofun⟩

end Sys2Proof.Machine
end

section
/-! SUPPORT. Runs of the whole block (44_peripheral_backend.md R225; 42_blocking_io.md R181): a transmit poll under the fair schedule of
an empty agenda, and the two polls that hang. -/

namespace Sys2Proof.Machine

/-! ## Runs -/

theorem run_succ {s t : State} (h : step s = .next t) (k : Nat) :
    Host.Core.run Sys2Proof.core (k + 1) s = Host.Core.run Sys2Proof.core k t := by
  have hcore : Sys2Proof.core.step s = .next t := h
  simp only [Host.Core.run, hcore]

/-- What every step keeps, a run keeps. -/
theorem run_keeps {P : State → Prop} (h : ∀ s, P s → ∃ t, step s = .next t ∧ P t) (k : Nat) :
    ∀ s, P s → ∃ t, Host.Core.run Sys2Proof.core k s = .next t ∧ P t := by
  induction k with
  | zero => exact fun s hs => ⟨s, rfl, hs⟩
  | succ k ih =>
    intro s hs
    obtain ⟨t, ht, hPt⟩ := h s hs
    obtain ⟨u, hu, hPu⟩ := ih t hPt
    exact ⟨u, (run_succ ht k).trans hu, hPu⟩

/-- Whose turn it can be, from what the agenda holds; past its end it is the sequencer's or an engine's. -/
theorem nextEvent_of_agenda {P : Event → Prop} {s : State} (h : ∀ e ∈ s.agenda, P e) (hseq : P .seq) (hload : ∀ i, P (.txLoad i))
    (hdone : ∀ i, P (.txDone i)) : P (nextEvent s) := by
  rcases nextEvent_cases s with ⟨e, rest, ha, hn⟩ | ⟨-, hn | ⟨i, hn | hn⟩⟩ <;> rw [hn]
  · exact h e (ha ▸ List.mem_cons_self)
  · exact hseq
  · exact hdone i
  · exact hload i

/-- A turn of the sequencer at `PB_POLL`. -/
theorem seqStep_pbPoll {s : State} (hl : s.cfg.layout.wf) (hf : s.fsm = .pbPoll) (ho : s.op = opPutByte) :
    seqStep s = .next
      { s with w := ctrlWord s.cfg s.sel (s.periph s.sel),
               bus := some (.regRead s.sel offCtrl (ctrlWord s.cfg s.sel (s.periph s.sel))),
               fsm := if (s.periph s.sel).txq.length = txCap s.cfg s.sel then .pbPoll else .pbWr } :=
  ((seqStep_running (i := .putByte s.hnd s.b) (by simp [hf]) (by simp [runningCommand, ho])).trans
    (exec_putByte_pbPoll _ _ hf ho)).trans (pollTx_eq _ _ hl)

/-- A turn of the sequencer at `PB_WR`. -/
theorem seqStep_pbWr {s : State} (hf : s.fsm = .pbWr) (ho : s.op = opPutByte) : seqStep s = sendWord (byteWord s.b) .idle s :=
  (seqStep_running (i := .putByte s.hnd s.b) (by simp [hf]) (by simp [runningCommand, ho])).trans (exec_putByte_pbWr _ _ hf ho)

/-- A turn of the sequencer at `GB_POLL`. -/
theorem seqStep_gbPoll {s : State} (hl : s.cfg.layout.wf) (hf : s.fsm = .gbPoll) (ho : s.op = opGetByte) :
    seqStep s = .next
      { s with w := ctrlWord s.cfg s.sel (s.periph s.sel),
               bus := some (.regRead s.sel offCtrl (ctrlWord s.cfg s.sel (s.periph s.sel))),
               fsm := if (s.periph s.sel).rxq = [] then .gbPoll else .gbRd } :=
  ((seqStep_running (i := .getByte s.hnd) (by simp [hf]) (by simp [runningCommand, ho])).trans
    (exec_getByte_gbPoll _ hf ho)).trans (pollRx_eq _ _ hl)

/-! ## A transmit poll under the fair schedule -/

theorem nextEvent_fair {s : State} (h : s.agenda = []) : nextEvent s = fairTurn s := by
  rw [nextEvent, h]

/-- The sequencer takes its turn unless it waits. -/
theorem fairTurn_seq {s : State} (h : seqWaits s = false) : fairTurn s = .seq := by
  simp [fairTurn, h]

/-- A waiting sequencer lets the engine of its own instance move first. -/
theorem fairTurn_engine {s : State} {e : Event} (hw : seqWaits s = true) (he : engineStep s.sel (s.periph s.sel) = some e) :
    fairTurn s = e := by
  simp [fairTurn, readyEngine, hw, he]

/-- At `PB_POLL` the sequencer waits exactly for a full queue. -/
theorem seqWaits_pbPoll {s : State} (hl : s.cfg.layout.wf) (hf : s.fsm = .pbPoll) :
    seqWaits s = decide ((s.periph s.sel).txq.length = txCap s.cfg s.sel) := by
  simp only [seqWaits, hf, loadW_u hl, beq_eq_decide, txFull_eq_one]

/-- `put_byte` of `b` at its poll under the fair schedule, on an instance that transmits, with `acc` accepted so far. -/
structure Sending (i : Inst) (b : Byte) (acc : List Byte) (s : State) : Prop where
  layout : s.cfg.layout.wf
  agenda : s.agenda = []
  fsm    : s.fsm = .pbPoll
  op     : s.op = opPutByte
  sel    : s.sel = i
  b      : s.b = b
  en     : (s.periph i).ctrl.en = 1#1
  sim    : (s.periph i).ctrl.sim = 0#1
  hwfc   : (s.periph i).ctrl.hwfc = 0#1
  acc    : (s.periph i).accepted = acc

/-- The command is complete after `k` steps, with `b` the last byte accepted. -/
abbrev SentAfter (i : Inst) (b : Byte) (acc : List Byte) (k : Nat) (s : State) : Prop :=
  ∃ t, Host.Core.run Sys2Proof.core k s = .next t ∧ t.fsm = .idle ∧ (t.periph i).accepted = acc ++ [b]

section Fair

variable {i : Inst} {b : Byte} {acc : List Byte} {s : State}

/-- An engine's step on the instance leaves the poll as it was, with what was accepted. -/
theorem Sending.engine (h : Sending i b acc s) {f : Periph → Periph} (hf : AgentStep s.cfg i f) :
    Sending i b acc (onPeriph i f (takeTurn s)) := by
  have hctrl := (hf.keeps (s.periph i)).1
  constructor <;> simp only [onPeriph, setPeriph_cfg, setPeriph_agenda, setPeriph_fsm, setPeriph_op, setPeriph_sel, setPeriph_b,
    periph_setPeriph_self, takeTurn_periph, hctrl, hf.accepted]
  · exact h.layout
  · exact congrArg List.tail h.agenda
  · exact h.fsm
  · exact h.op
  · exact h.sel
  · exact h.b
  · exact h.en
  · exact h.sim
  · exact h.hwfc
  · exact h.acc

/-- With room the poll goes on. -/
theorem Sending.poll (h : Sending i b acc s) (hroom : (s.periph i).txq.length < txCap s.cfg i) :
    ∃ t, step s = .next t ∧ t.fsm = .pbWr ∧ t.agenda = [] ∧ t.b = b ∧ Sent s t [] := by
  obtain ⟨hl, ha, hf, ho, rfl, rfl, -⟩ := h
  have hwaits : seqWaits s = false := (seqWaits_pbPoll hl hf).trans (decide_eq_false hroom.ne)
  have hpoll := seqStep_pbPoll (s := takeTurn s) hl hf ho
  rw [takeTurn_sel, takeTurn_periph, takeTurn_cfg, if_neg hroom.ne, ← step_seq ((nextEvent_fair ha).trans (fairTurn_seq hwaits))]
    at hpoll
  exact ⟨_, hpoll, rfl, congrArg List.tail ha, rfl, rfl, rfl, rfl, rfl, by rw [List.append_nil]; rfl, rfl⟩

/-- The write after it hands over the byte. -/
theorem Sending.of_room (h : Sending i b acc s) (hroom : (s.periph i).txq.length < txCap s.cfg i) : SentAfter i b acc 2 s := by
  obtain ⟨t, ht, htf, hta, rfl, hst⟩ := h.poll hroom
  obtain ⟨hl, -, -, ho, rfl, -, hen, hsim, -, rfl⟩ := h
  obtain ⟨hl', hen', hsim', hroom'⟩ : Ready t 1 := Ready.of_sent (s := s) (bytes := []) ⟨hl, hen, hsim, hroom⟩ hst
  obtain ⟨u, hu, huf, -, -, hown⟩ := sendWord_ready (s := takeTurn t) ⟨hl', hen', hsim', hroom'⟩ (byteWord t.b) .idle
  have hwaits : seqWaits t = false := by simp only [seqWaits, htf]
  have hwr : step t = .next u := by
    rw [step_seq ((nextEvent_fair hta).trans (fairTurn_seq hwaits)), seqStep_pbWr (s := takeTurn t) htf (hst.op.trans ho)]
    exact hu
  refine ⟨u, (run_succ ht 1).trans (run_succ hwr 0), huf, ?_⟩
  have hsent : (u.periph s.sel).accepted = (t.periph s.sel).accepted ++ [t.b] := by
    have e := hown.own
    rw [takeTurn_sel, takeTurn_periph, hst.sel] at e
    simp [e, Periph.accepted]
  rw [hsent, hst.own, List.append_nil]

/-- An engine's turn on the instance comes first while the sequencer waits for a full queue. -/
theorem Sending.step_engine (h : Sending i b acc s) (hfull : (s.periph i).txq.length = txCap s.cfg i) {e : Event}
    (he : engineStep i (s.periph i) = some e) : step s = turn e (takeTurn s) := by
  obtain ⟨hl, ha, hf, -, rfl, -⟩ := h
  have hwaits : seqWaits s = true := (seqWaits_pbPoll hl hf).trans (decide_eq_true hfull)
  exact step_of_event ((nextEvent_fair ha).trans (fairTurn_engine hwaits he))

/-- An empty shifter takes the oldest byte, which makes room. -/
theorem Sending.of_shifter_empty (h : Sending i b acc s) (hfull : (s.periph i).txq.length = txCap s.cfg i)
    (hsh : (s.periph i).txsh = none) : SentAfter i b acc 3 s := by
  cases hq : (s.periph i).txq with
  | nil => simp [hq, (txCap_pos s.cfg i).ne] at hfull
  | cons x q =>
    have hload : engineStep i (s.periph i) = some (.txLoad i) := by
      simp [engineStep, Periph.txDoneEnabled, Periph.txLoadEnabled, hsh, hq, h.en, h.hwfc]
    have hstep : step s = .next (onPeriph i Periph.txLoad (takeTurn s)) := h.step_engine hfull hload
    obtain ⟨t, hrun, ht⟩ := (h.engine .txLoad).of_room (by
      rw [onPeriph, periph_setPeriph_self, takeTurn_periph, setPeriph_cfg,
        txLoad_enabled h.en hsh hq fun h1 => absurd (h1.symm.trans h.hwfc) (by decide)]
      simp [← hfull, hq])
    exact ⟨t, (run_succ hstep 2).trans hrun, ht⟩

/-- A byte in the shifter goes out first. -/
theorem Sending.of_shifter_holding (h : Sending i b acc s) (hfull : (s.periph i).txq.length = txCap s.cfg i) {x : Byte}
    (hsh : (s.periph i).txsh = some x) : SentAfter i b acc 4 s := by
  have hdone : engineStep i (s.periph i) = some (.txDone i) := by
    simp [engineStep, Periph.txDoneEnabled, hsh, h.en]
  have hstep : step s = .next (onPeriph i Periph.txDone (takeTurn s)) := h.step_engine hfull hdone
  have hown : (onPeriph i Periph.txDone (takeTurn s)).periph i = { s.periph i with
      wireTx := (s.periph i).wireTx ++ [x], txsh := none } := by
    rw [onPeriph, periph_setPeriph_self, takeTurn_periph, txDone_enabled h.en hsh]
  obtain ⟨t, hrun, ht⟩ := (h.engine .txDone).of_shifter_empty (by rw [hown, onPeriph, setPeriph_cfg]; exact hfull) (by rw [hown])
  exact ⟨t, (run_succ hstep 3).trans hrun, ht⟩

end Fair

/-- Settles O57: by whether the queue has room, and else whether the shifter holds a byte. -/
theorem putByteCompletesWhenFair : Obligations.PutByteCompletesWhenFair := by
  intro s hs ha hf ho hen hsim hhwfc
  obtain ⟨-, -, -, -, -, hl⟩ := hs.params
  have h : Sending s.sel s.b (s.periph s.sel).accepted s := ⟨hl, ha, hf, ho, rfl, rfl, hen, hsim, hhwfc, rfl⟩
  rcases lt_or_eq_of_le (hs.sound s.sel).fits.1 with hroom | hfull
  · exact ⟨2, (h.of_room hroom).imp fun _ ht => ⟨by decide, ht⟩⟩
  · cases hsh : (s.periph s.sel).txsh with
    | none => exact ⟨3, (h.of_shifter_empty hfull hsh).imp fun _ ht => ⟨by decide, ht⟩⟩
    | some x => exact ⟨4, (h.of_shifter_holding hfull hsh).imp fun _ ht => ⟨by decide, ht⟩⟩

/-! ## The polls that hang -/

/-- What the other agents' turn leaves of the instance in `SEL`, when its own events keep it. -/
theorem step_agents_keep {α : Type} (g : Periph → α) {s : State} (hseq : nextEvent s ≠ .seq) (hreset : nextEvent s ≠ .reset)
    (hload : g (s.periph s.sel).txLoad = g (s.periph s.sel)) (hdone : g (s.periph s.sel).txDone = g (s.periph s.sel))
    (harrive : ∀ b, nextEvent s = .rxArrive s.sel b → g ((s.periph s.sel).rxArrive s.cfg s.sel b) = g (s.periph s.sel))
    (hcts : ∀ level, nextEvent s = .cts s.sel level → g ((s.periph s.sel).setCts level) = g (s.periph s.sel)) :
    ∃ i f, step s = .next (onPeriph i f (takeTurn s)) ∧ g ((onPeriph i f (takeTurn s)).periph s.sel) = g (s.periph s.sel) := by
  have keep : ∀ (i : Inst) (f : Periph → Periph), (i = s.sel → g (f (s.periph s.sel)) = g (s.periph s.sel)) →
      g ((onPeriph i f (takeTurn s)).periph s.sel) = g (s.periph s.sel) := by
    intro i f h
    rcases eq_or_eq_other i s.sel with e | e
    · rw [e, onPeriph, periph_setPeriph_self, takeTurn_periph, ← e, h e.symm]
    · rw [e, onPeriph_other, takeTurn_periph]
  cases hev : nextEvent s with
  | seq => exact absurd hev hseq
  | reset => exact absurd hev hreset
  | txLoad i => exact ⟨i, _, step_of_event hev, keep i _ fun _ => hload⟩
  | txDone i => exact ⟨i, _, step_of_event hev, keep i _ fun _ => hdone⟩
  | rxArrive i b => exact ⟨i, _, step_of_event hev, keep i _ fun e => by subst e; exact harrive b hev⟩
  | cts i level => exact ⟨i, _, step_of_event hev, keep i _ fun e => by subst e; exact hcts level hev⟩

theorem txLoad_rxq (p : Periph) : p.txLoad.rxq = p.rxq := by
  rcases txLoad_cases p with ⟨_, _, _, _, _, _, e⟩ | ⟨_, e⟩ <;> rw [e]

theorem txDone_rxq (p : Periph) : p.txDone.rxq = p.rxq := by
  rcases txDone_cases p with ⟨_, _, _, e⟩ | ⟨_, e⟩ <;> rw [e]

/-- `get_byte` at its poll with nothing waiting and nothing to come for its instance, `R0` holding `r`. -/
structure Unfed (r : Word) (s : State) : Prop where
  layout : s.cfg.layout.wf
  fsm    : s.fsm = .gbPoll
  op     : s.op = opGetByte
  rxq    : (s.periph s.sel).rxq = []
  r0     : s.r0 = r
  agenda : ∀ e ∈ s.agenda, e ≠ .reset ∧ ∀ b, e ≠ .rxArrive s.sel b

/-- Such a poll goes on as it is, whoever's turn it is. -/
theorem Unfed.step {r : Word} {s : State} (h : Unfed r s) : ∃ t, step s = .next t ∧ Unfed r t := by
  have hagenda : ∀ e ∈ s.agenda.tail, e ≠ .reset ∧ ∀ b, e ≠ .rxArrive s.sel b := fun e he => h.agenda e (List.mem_of_mem_tail he)
  by_cases hseq : nextEvent s = .seq
  · have hturn := seqStep_gbPoll (s := takeTurn s) h.layout h.fsm h.op
    exact ⟨_, (step_seq hseq).trans hturn, h.layout, if_pos h.rxq, h.op, h.rxq, h.r0, hagenda⟩
  · obtain ⟨hreset, harrive⟩ := nextEvent_of_agenda h.agenda (by simp) (by simp) (by simp)
    obtain ⟨i, f, ht, hrxq⟩ := step_agents_keep Periph.rxq hseq hreset (txLoad_rxq _) (txDone_rxq _)
      (fun b e => absurd e (harrive b)) fun _ _ => rfl
    refine ⟨_, ht, ?_⟩
    constructor <;> simp only [onPeriph, setPeriph_cfg, setPeriph_fsm, setPeriph_op, setPeriph_sel, setPeriph_r0, setPeriph_agenda]
    · exact h.layout
    · exact h.fsm
    · exact h.op
    · exact hrxq.trans h.rxq
    · exact h.r0
    · exact hagenda

/-- Settles O58: the poll is kept by every step. -/
theorem getByteHangsWithoutSender : Obligations.GetByteHangsWithoutSender := by
  intro k s hc hf ho hrxq hagenda
  obtain ⟨-, -, -, -, -, hl⟩ := hc
  obtain ⟨t, hrun, ht⟩ := run_keeps (fun _ => Unfed.step) k s ⟨hl, hf, ho, hrxq, rfl, hagenda⟩
  exact ⟨t, hrun, ht.fsm, ht.r0, ht.rxq⟩

/-- What keeps a full queue full while flow control withholds permission. -/
def Periph.held (p : Periph) : Bit × Bool × List Byte := (p.ctrl.hwfc, p.cts, p.txq)

theorem txDone_held (p : Periph) : p.txDone.held = p.held := by
  rcases txDone_cases p with ⟨_, _, _, e⟩ | ⟨_, e⟩ <;> rw [e]
  rfl

theorem rxArrive_held (c : Config) (i : Inst) (b : Byte) (p : Periph) : (p.rxArrive c i b).held = p.held := by
  rcases rxArrive_cases c i b p with ⟨_, _, e⟩ | ⟨_, e⟩ <;> rw [e]
  rfl

/-- `put_byte` at its poll with the full queue `q` of instance `i`, which is not permitted to transmit and will not be. -/
structure Blocked (i : Inst) (q : List Byte) (s : State) : Prop where
  layout : s.cfg.layout.wf
  fsm    : s.fsm = .pbPoll
  op     : s.op = opPutByte
  sel    : s.sel = i
  held   : (s.periph i).held = (1#1, false, q)
  full   : q.length = txCap s.cfg i
  agenda : ∀ e ∈ s.agenda, e ≠ .reset ∧ e ≠ .cts i true

/-- Such a poll goes on as it is, whoever's turn it is. -/
theorem Blocked.step {i : Inst} {q : List Byte} {s : State} (h : Blocked i q s) : ∃ t, step s = .next t ∧ Blocked i q t := by
  obtain ⟨hl, hf, ho, rfl, hheld, hfull, hagenda⟩ := h
  obtain ⟨hhwfc, hcts, hq⟩ : (s.periph s.sel).ctrl.hwfc = 1#1 ∧ (s.periph s.sel).cts = false ∧ (s.periph s.sel).txq = q := by
    simpa [Periph.held] using hheld
  have hlater : ∀ e ∈ s.agenda.tail, e ≠ .reset ∧ e ≠ .cts s.sel true := fun e he => hagenda e (List.mem_of_mem_tail he)
  by_cases hseq : nextEvent s = .seq
  · have hturn := seqStep_pbPoll (s := takeTurn s) hl hf ho
    exact ⟨_, (step_seq hseq).trans hturn, hl, if_pos (hq ▸ hfull), ho, rfl, hheld, hfull, hlater⟩
  · obtain ⟨hreset, hraise⟩ := nextEvent_of_agenda hagenda (by simp) (by simp) (by simp)
    obtain ⟨j, f, ht, hkeep⟩ := step_agents_keep Periph.held hseq hreset
      (by rw [txLoad_disabled (.inr (.inr (.inr ⟨hhwfc, hcts⟩)))]) (txDone_held _)
      (fun b _ => rxArrive_held _ _ b _) fun level e => by
        obtain rfl : level = false := by simpa [e] using hraise
        rw [Periph.held, Periph.held, hcts, Periph.setCts]
    refine ⟨_, ht, ?_⟩
    constructor <;> simp only [onPeriph, setPeriph_cfg, setPeriph_fsm, setPeriph_op, setPeriph_sel, setPeriph_agenda]
    · exact hl
    · exact hf
    · exact ho
    · rfl
    · exact hkeep.trans hheld
    · exact hfull
    · exact hlater

/-- Settles O59: the poll is kept by every step. -/
theorem putByteHangsWithoutClearToSend : Obligations.PutByteHangsWithoutClearToSend := by
  intro k s hc hf ho hhwfc hcts hfull hagenda
  obtain ⟨-, -, -, -, -, hl⟩ := hc
  have hheld : (s.periph s.sel).held = (1#1, false, (s.periph s.sel).txq) := by rw [Periph.held, hhwfc, hcts]
  obtain ⟨t, hrun, ht⟩ := run_keeps (fun _ => Blocked.step) k s ⟨hl, hf, ho, rfl, hheld, hfull, hagenda⟩
  exact ⟨t, hrun, ht.fsm, congrArg (fun v => v.2.2) ht.held⟩

end Sys2Proof.Machine
end
